-- ==== Sys2Proof/Word.lean ====
section
/-! DEFINITION. The words of the TLB block: 32-bit operands, results and page-table entries (00_scope.md R10, R11)
and the bytes of the store (10_state.md R24). -/

namespace Sys2Proof

/-- An operand, a result or a page-table entry: 32 bits, numbered from the least significant end (R10). -/
abbrev Word := BitVec 32

/-- One byte of the Byte Store (R24). -/
abbrev Byte := BitVec 8

end Sys2Proof
end

