-- ==== Sys2Proof/Config.lean ====
section
/-! DEFINITION. The implementation parameters of 00_scope.md R9 and the free values of the model. A configuration is
plain data, carried by the state and never changed by a step, so that a statement over every state is a statement over
every configuration. -/

namespace Sys2Proof

/-- The parameters of 00_scope.md R9 that are open or that a model may take as arguments (92_eei_decisions.md D6, D14,
D15, D26, D27). `SLOT_INIT` is given by `slotInit`: entry `l` for level `l`, and R9's default `MAX_PRIO - l` for a level
it does not list. -/
structure Config where
  /-- `CAP`: bytes of the Byte Store. -/
  cap : Nat
  /-- `MAX_PRIO`: priority levels. -/
  maxPrio : Nat
  /-- `MAX_QUEUE_SIZE`: places in each level's queue. -/
  maxQueue : Nat
  /-- `SLOT_INIT(l)` of the first levels; the others take the default. -/
  slotInit : List Word
  /-- `PID_W`: width of a process id at the TLB. -/
  pidW : Nat
  /-- `SWPTYP_LO`, `SWPTYP_W`: place and width of the swap type in a page-table entry. -/
  swpTypLo : Nat
  swpTypW : Nat
  /-- `SWPOFF_LO`, `SWPOFF_W`: place and width of the swap offset in a page-table entry. -/
  swpOffLo : Nat
  swpOffW : Nat
deriving DecidableEq, Repr

/-- `SLOT_INIT(l)` (R9; the default `MAX_PRIO - l` is the spec's passage G4 from general knowledge, log 2). -/
def Config.quotaInit (c : Config) (l : Nat) : Word :=
  c.slotInit.getD l (BitVec.ofNat 32 (c.maxPrio - l))

/-- The parameters of 95_test_vectors.md: `CAP = 1024`, `MAX_PRIO = 4`, `MAX_QUEUE_SIZE = 3`, `SLOT_INIT(l) = 4 - l`,
`PID_W = 5`, swap type at bits 4:0, swap offset at bits 12:5. DESIGN CHOICE (unsafe, log 2): the spec leaves the first
four open; the reset state uses these. -/
def Config.vectors : Config :=
  { cap := 1024, maxPrio := 4, maxQueue := 3, slotInit := [], pidW := 5,
    swpTypLo := 0, swpTypW := 5, swpOffLo := 5, swpOffW := 8 }

/-- FREE VALUE (safe, log 7): the page-directory entry of process `pid`, page `p`, where the state lists none. The
directory is external and holds "any value" (10_state.md R39, R41). -/
opaque Config.unlistedPte : Nat → Nat → BitVec 32

/-- FREE VALUE (safe, log 10): what a hit or miss counter holds after an increment past `2^32 - 1`
(93_implementation_defined.md U6: "any value"); the argument tells two such increments apart. -/
opaque Config.statPastMax : Nat → BitVec 32

end Sys2Proof
end

