-- ==== Sys2Proof/Syntax.lean ====
section
/-! DEFINITION. The commands of the block: one constructor for each row of spec/opcode_table.json (30_encoding.md R91),
with the operands that the row's format reads (R92). Every operand is a whole 32-bit `ARG` field (R99). -/

namespace Sys2Proof

/-- One command of the block. The operands stand in `ARG0`, `ARG1`, … order. -/
inductive Instr where
  /-- `PTE.PACK`, F6 (41_codec.md R110). -/
  | ptePack (present frame dirty swapped swapType swapOff : Word)
  /-- `VA.OFF`, F1 (R111). -/
  | vaOff (addr : Word)
  /-- `VA.PGN`, F1 (R112). -/
  | vaPgn (addr : Word)
  /-- `PTE.FPN`, F1 (R113). -/
  | pteFpn (pte : Word)
  /-- `PTE.SWP`, F1 (R114). -/
  | pteSwp (pte : Word)
  /-- `SUM.DEC`, F1 (R115). -/
  | sumDec (word : Word)
  /-- `PTE.UNPACK`, F1 (R116). -/
  | pteUnpack (pte : Word)
  /-- `ST.RDB`, F1 (42_bytestore.md R130). -/
  | stRdb (addr : Word)
  /-- `ST.WRB`, F2 (R131). -/
  | stWrb (addr value : Word)
  /-- `ST.RDW`, F1 (R132). -/
  | stRdw (addr : Word)
  /-- `ST.WRW`, F2 (R133). -/
  | stWrw (addr value : Word)
  /-- `ST.DUMP`, F0 (R134). -/
  | stDump
  /-- `ST.BDUMP`, F0 (R135). -/
  | stBdump
  /-- `TLB.RD`, F2 (43_tlb.md R154). -/
  | tlbRd (pid page : Word)
  /-- `TLB.INS`, F3 (R156). -/
  | tlbIns (pid page pte : Word)
  /-- `TLB.INV`, F2 (R160). -/
  | tlbInv (pid page : Word)
  /-- `TLB.FLUSH`, F3 (R165). -/
  | tlbFlush (pid pgLo pgHi : Word)
  /-- `TLB.INVALL`, F1 (R170). -/
  | tlbInvall (pid : Word)
  /-- `SCH.INIT`, F0 (46_scheduler.md R216). -/
  | schInit
  /-- `SCH.GET`, F0 (R217). -/
  | schGet
  /-- `SCH.PUT`, F2 (R219). -/
  | schPut (proc prio : Word)
  /-- `SCH.END`, F5 (R222). -/
  | schEnd (proc prio pid pgLo pgHi : Word)
  /-- `SCH.EMPTY`, F0 (R228). -/
  | schEmpty
  /-- `SCH.SLOT`, F1 (R229). -/
  | schSlot (level : Word)
deriving DecidableEq, Repr

/-- What another host can do to the store unit between two per-page steps of a flush: one atomic step of that unit
(20_memory.md R62, R66; 43_tlb.md R167). A page of another host's flush is such a step, without a response;
`flushDone` is the response of a flush whose pages are all done. -/
inductive StoreStep where
  | rdb (addr : Word)
  | wrb (addr value : Word)
  | rdw (addr : Word)
  | wrw (addr value : Word)
  | dump
  | bdump
  | rd (pid page : Word)
  | ins (pid page pte : Word)
  | inv (pid page : Word)
  | invall (pid : Word)
  | flushPage (pid page : Word)
  | flushDone
deriving DecidableEq, Repr

/-- What arrives at the block and its surroundings from outside, one item for each thing that takes effect. The order of
the list is the total order of 20_memory.md R63, an input of a model with several hosts
(93_implementation_defined.md U23). The host number only routes a response (log 6). -/
inductive Input where
  /-- A host issues the 200-bit command record (30_encoding.md R88). -/
  | command (host : Nat) (record : BitVec 200)
  /-- The reset event (70_reset_and_hazards.md R270). -/
  | reset
  /-- The external page-table layer writes a page-directory entry (10_state.md R28, R39). -/
  | setPte (pid : Nat) (page : BitVec 14) (pte : Word)
  /-- A process is created: its hit and miss counters start at 0 (44_facade.md R186). -/
  | createProcess (pid : Nat)
  /-- The Façade counts the outcome of the host's latest lookup for `pid` (R183, R184, R186). -/
  | countLookup (host pid : Nat)
  /-- The Façade inserts a page with its page-directory entry as it is now (R181); with `onlyAfterMiss`, only if the
  host's latest lookup was no hit (R184). -/
  | insertFromDirectory (host : Nat) (pid page : Word) (onlyAfterMiss : Bool)
deriving DecidableEq, Repr

end Sys2Proof
end

