-- ==== Sys2Proof/WellFormed.lean ====
section
/-! DEFINITION. What is well formed: a configuration (00_scope.md R9, one check for each constraint of its table), an
operation code (30_encoding.md R91, R94), and a command. Every operand of a command is a whole 32-bit field (R99), so a
term of `Instr` has no ill-formed operand; what a command refuses at run time is a matter of its meaning. -/

namespace Sys2Proof

/-- `0 <= CAP < 2^32` (R9). -/
def Config.capOk (c : Config) : Bool := decide (c.cap < 2 ^ 32)

/-- `1 <= PID_W <= 16` (R9). -/
def Config.pidWidthOk (c : Config) : Bool := decide (1 ≤ c.pidW) && decide (c.pidW ≤ 16)

/-- `MAX_PRIO >= 1` (R9). -/
def Config.maxPrioOk (c : Config) : Bool := decide (1 ≤ c.maxPrio)

/-- `MAX_QUEUE_SIZE >= 1` (R9). -/
def Config.maxQueueOk (c : Config) : Bool := decide (1 ≤ c.maxQueue)

/-- The swap-type field lies inside bits 12:0 (R9). -/
def Config.swapTypeOk (c : Config) : Bool := decide (c.swpTypLo + c.swpTypW ≤ 13)

/-- The swap-offset field lies inside bits 12:0 (R9). -/
def Config.swapOffOk (c : Config) : Bool := decide (c.swpOffLo + c.swpOffW ≤ 13)

/-- The two swap fields share no bit (R9). -/
def Config.swapDisjointOk (c : Config) : Bool :=
  decide (c.swpTypLo + c.swpTypW ≤ c.swpOffLo) || decide (c.swpOffLo + c.swpOffW ≤ c.swpTypLo)

/-- `SLOT_INIT(l)` fits in `SLOT_W`, 32 bits signed (R9): a listed one by its type; of the levels that take the default
`MAX_PRIO - l` the first has the largest. -/
def Config.slotInitOk (c : Config) : Bool := decide (c.maxPrio - c.slotInit.length < 2 ^ 31)

/-- "A configuration is legal only when every constraint in the last column holds" (R9). -/
def Config.legal (c : Config) : Bool :=
  c.capOk && c.pidWidthOk && c.maxPrioOk && c.maxQueueOk && c.swapTypeOk && c.swapOffOk && c.swapDisjointOk &&
    c.slotInitOk

/-- The operation codes of the opcode map (R91); every other value is illegal (R94). -/
def legalOps : List (BitVec 8) :=
  [0x00, 0x01, 0x02, 0x03, 0x04, 0x05, 0x06, 0x10, 0x11, 0x12, 0x13, 0x14, 0x15,
   0x20, 0x21, 0x22, 0x23, 0x24, 0x30, 0x31, 0x32, 0x33, 0x34, 0x35]

/-- `OP` is one of the 24 codes of R91. -/
def legalOp (op : BitVec 8) : Bool := legalOps.contains op

/-- The operand formats of R92. -/
inductive Format where
  | f0 | f1 | f2 | f3 | f5 | f6
deriving DecidableEq, Repr

/-- How many operands, from `ARG0` on, a format reads (R92). -/
def Format.operands : Format → Nat
  | .f0 => 0
  | .f1 => 1
  | .f2 => 2
  | .f3 => 3
  | .f5 => 5
  | .f6 => 6

end Sys2Proof
end

