-- ==== Sys2Proof/Decode.lean ====
section
/-! DEFINITION. The 200-bit command record (30_encoding.md R88), the decoder from a record to a command (R91, R92, R93),
total and rejecting an illegal operation code by name (R94), the encoder back, and the written names of the commands
(R97, R98). -/

namespace Sys2Proof

/-- Why a record is no command. -/
inductive DecodeError where
  /-- `OP` is not in R91: the block answers `BAD_OP` (R94). -/
  | illegalOp (op : BitVec 8)
deriving DecidableEq, Repr

/-- The record of R88: `OP` in bits 199:192, then `ARG0` down to `ARG5`. -/
def record (op : BitVec 8) (a0 a1 a2 a3 a4 a5 : Word) : BitVec 200 :=
  op ++ a0 ++ a1 ++ a2 ++ a3 ++ a4 ++ a5

/-- `OP`, bits 199:192 (R88). -/
def recOp (r : BitVec 200) : BitVec 8 := r.extractLsb' 192 8

/-- `ARGk`, bits `191 - 32k` down to `160 - 32k` (R88); meant for `k` below 6. -/
def recArg (r : BitVec 200) (k : Nat) : Word := r.extractLsb' (160 - 32 * k) 32

/-- The command that a record carries. `OP` is matched in full (R91); an `ARG` that the format does not read is ignored
(R93). -/
def decode (r : BitVec 200) : Except DecodeError Instr :=
  let op := recOp r
  let a := recArg r
  if op = 0x00 then .ok (.ptePack (a 0) (a 1) (a 2) (a 3) (a 4) (a 5))
  else if op = 0x01 then .ok (.vaOff (a 0))
  else if op = 0x02 then .ok (.vaPgn (a 0))
  else if op = 0x03 then .ok (.pteFpn (a 0))
  else if op = 0x04 then .ok (.pteSwp (a 0))
  else if op = 0x05 then .ok (.sumDec (a 0))
  else if op = 0x06 then .ok (.pteUnpack (a 0))
  else if op = 0x10 then .ok (.stRdb (a 0))
  else if op = 0x11 then .ok (.stWrb (a 0) (a 1))
  else if op = 0x12 then .ok (.stRdw (a 0))
  else if op = 0x13 then .ok (.stWrw (a 0) (a 1))
  else if op = 0x14 then .ok .stDump
  else if op = 0x15 then .ok .stBdump
  else if op = 0x20 then .ok (.tlbRd (a 0) (a 1))
  else if op = 0x21 then .ok (.tlbIns (a 0) (a 1) (a 2))
  else if op = 0x22 then .ok (.tlbInv (a 0) (a 1))
  else if op = 0x23 then .ok (.tlbFlush (a 0) (a 1) (a 2))
  else if op = 0x24 then .ok (.tlbInvall (a 0))
  else if op = 0x30 then .ok .schInit
  else if op = 0x31 then .ok .schGet
  else if op = 0x32 then .ok (.schPut (a 0) (a 1))
  else if op = 0x33 then .ok (.schEnd (a 0) (a 1) (a 2) (a 3) (a 4))
  else if op = 0x34 then .ok .schEmpty
  else if op = 0x35 then .ok (.schSlot (a 0))
  else .error (.illegalOp op)

/-- The operation code of a command (R91). -/
def Instr.opcode : Instr → BitVec 8
  | .ptePack .. => 0x00
  | .vaOff .. => 0x01
  | .vaPgn .. => 0x02
  | .pteFpn .. => 0x03
  | .pteSwp .. => 0x04
  | .sumDec .. => 0x05
  | .pteUnpack .. => 0x06
  | .stRdb .. => 0x10
  | .stWrb .. => 0x11
  | .stRdw .. => 0x12
  | .stWrw .. => 0x13
  | .stDump => 0x14
  | .stBdump => 0x15
  | .tlbRd .. => 0x20
  | .tlbIns .. => 0x21
  | .tlbInv .. => 0x22
  | .tlbFlush .. => 0x23
  | .tlbInvall .. => 0x24
  | .schInit => 0x30
  | .schGet => 0x31
  | .schPut .. => 0x32
  | .schEnd .. => 0x33
  | .schEmpty => 0x34
  | .schSlot .. => 0x35

/-- The format of a command (R91, R92). -/
def Instr.format : Instr → Format
  | .ptePack .. => .f6
  | .vaOff .. => .f1
  | .vaPgn .. => .f1
  | .pteFpn .. => .f1
  | .pteSwp .. => .f1
  | .sumDec .. => .f1
  | .pteUnpack .. => .f1
  | .stRdb .. => .f1
  | .stWrb .. => .f2
  | .stRdw .. => .f1
  | .stWrw .. => .f2
  | .stDump => .f0
  | .stBdump => .f0
  | .tlbRd .. => .f2
  | .tlbIns .. => .f3
  | .tlbInv .. => .f2
  | .tlbFlush .. => .f3
  | .tlbInvall .. => .f1
  | .schInit => .f0
  | .schGet => .f0
  | .schPut .. => .f2
  | .schEnd .. => .f5
  | .schEmpty => .f0
  | .schSlot .. => .f1

/-- The record of a command, its unused operands zero (R88, R91, R92). -/
def encode : Instr → BitVec 200
  | .ptePack present frame dirty swapped swapType swapOff =>
    record 0x00 present frame dirty swapped swapType swapOff
  | .vaOff addr => record 0x01 addr 0 0 0 0 0
  | .vaPgn addr => record 0x02 addr 0 0 0 0 0
  | .pteFpn pte => record 0x03 pte 0 0 0 0 0
  | .pteSwp pte => record 0x04 pte 0 0 0 0 0
  | .sumDec word => record 0x05 word 0 0 0 0 0
  | .pteUnpack pte => record 0x06 pte 0 0 0 0 0
  | .stRdb addr => record 0x10 addr 0 0 0 0 0
  | .stWrb addr value => record 0x11 addr value 0 0 0 0
  | .stRdw addr => record 0x12 addr 0 0 0 0 0
  | .stWrw addr value => record 0x13 addr value 0 0 0 0
  | .stDump => record 0x14 0 0 0 0 0 0
  | .stBdump => record 0x15 0 0 0 0 0 0
  | .tlbRd pid page => record 0x20 pid page 0 0 0 0
  | .tlbIns pid page pte => record 0x21 pid page pte 0 0 0
  | .tlbInv pid page => record 0x22 pid page 0 0 0 0
  | .tlbFlush pid pgLo pgHi => record 0x23 pid pgLo pgHi 0 0 0
  | .tlbInvall pid => record 0x24 pid 0 0 0 0 0
  | .schInit => record 0x30 0 0 0 0 0 0
  | .schGet => record 0x31 0 0 0 0 0 0
  | .schPut proc prio => record 0x32 proc prio 0 0 0 0
  | .schEnd proc prio pid pgLo pgHi => record 0x33 proc prio pid pgLo pgHi 0
  | .schEmpty => record 0x34 0 0 0 0 0 0
  | .schSlot level => record 0x35 level 0 0 0 0 0

/-- The command that the decoder reads from an opcode-table row's word: the table numbers the bits of the one 200-bit
record, so bit 199 is the top bit of `OP`. -/
def decodeTableWord (nbits w : Nat) : Option Instr :=
  match decode (BitVec.ofNat 200 (w % 2 ^ nbits)) with
  | .ok i => some i
  | .error _ => none

/-- The operation code of a written command name, the aliases of R98 among them (R91, R97, R98). The `FAC.*` names of
R98 are host sequences (Machine/Facade.lean) and have no code. -/
def opOfName (name : String) : Option (BitVec 8) :=
  ([("PTE.PACK", 0x00), ("VA.OFF", 0x01), ("VA.PGN", 0x02), ("PTE.FPN", 0x03), ("PTE.SWP", 0x04), ("SUM.DEC", 0x05),
    ("PTE.UNPACK", 0x06), ("ST.RDB", 0x10), ("ST.WRB", 0x11), ("ST.RDW", 0x12), ("ST.WRW", 0x13), ("ST.DUMP", 0x14),
    ("ST.BDUMP", 0x15), ("TLB.RD", 0x20), ("TLB.INS", 0x21), ("TLB.INV", 0x22), ("TLB.FLUSH", 0x23),
    ("TLB.INVALL", 0x24), ("SCH.INIT", 0x30), ("SCH.GET", 0x31), ("SCH.PUT", 0x32), ("SCH.END", 0x33),
    ("SCH.EMPTY", 0x34), ("SCH.SLOT", 0x35),
    ("SCH.ADD", 0x32), ("get_mlq_proc", 0x31), ("flush_of", 0x24), ("invalidate_all", 0x24),
    ("tlb_change_all_page_tables_of", 0x24)] : List (String × BitVec 8)).lookup name

end Sys2Proof
end

