-- ==== Sys2Proof/Machine/State.lean ====
section
/-! DEFINITION. The state of the block (10_state.md), of what surrounds it as far as a command or a Façade sequence
touches it (R39, R186), and of the model's own inputs and outputs; the reasons a step can stop; the state after reset
(R41). All of it is plain data. -/

namespace Sys2Proof.Machine

/-- The Byte Store `MEM` (R24): the bytes that are not `0x00`, addresses strictly rising. An unlisted address reads as
`0x00`, its value after reset (R41). The TLB ways are views of it (R25). -/
abbrev Memory := List Host.Cell

/-- The status of a response (30_encoding.md R90). The reserved codes 6, 7 and 11 to 15 "are never produced": they have
no constructor. -/
inductive Status where
  | ok | miss | novict | empty | full | unimpl | devErr | badOp | badArg
deriving DecidableEq, Repr

/-- A response (R22, 30_encoding.md R89): `STATUS` and `RES0` to `RES5`. A result register that a command's rule does not
name is 0 (R93). -/
structure Response where
  status : Status
  res0 : Word := 0
  res1 : Word := 0
  res2 : Word := 0
  res3 : Word := 0
  res4 : Word := 0
  res5 : Word := 0
deriving DecidableEq, Repr

/-- One priority level of the scheduler: `Q[l].items`, front first (R31), and the quota `SLOT[l]`, two's complement
(R36). `Q[l].size` is the length of `items` (45_queue.md R200). -/
structure Level where
  items : List Word
  slot : Word
deriving DecidableEq, Repr

/-- A reclaim event (46_scheduler.md R227). The `SWPOFF_W`-bit slot of `SwapFree` is held zero-extended. -/
inductive Event where
  | ramFree (frame : BitVec 13)
  | swapFree (slot : Word)
  | pcbRelease (proc : Word)
deriving DecidableEq, Repr

/-- The hit and miss counters of one process, kept by the Façade (44_facade.md R186). -/
structure Stats where
  hit : Word
  miss : Word
deriving DecidableEq, Repr

/-- The state. -/
structure State where
  /-- The configuration (00_scope.md R9); no step changes it. -/
  cfg : Config
  /-- `MEM` (R24). -/
  mem : Memory
  /-- `FLAGS` (R29): bit 0 `DEVERR`, bit 1 `QFULL`. -/
  flags : BitVec 2
  /-- `Q[l]` and `SLOT[l]` for `l` below `MAX_PRIO`, level 0 first (R31, R36). -/
  levels : List Level
  /-- The response port: `STATUS` and `RES0` to `RES5` of the latest command (R22). -/
  response : Response
  /-- Each host's own copy of the response to its latest command (R22, 60_exceptions.md R262), by host number. -/
  hosts : List (Nat × Response)
  /-- The reclaim events emitted so far, oldest first: the model's record of an output (46_scheduler.md R227). -/
  events : List Event
  /-- The external page directory (R39), by process and page, as far as the inputs have written it. -/
  pgd : List (Nat × Word)
  /-- The host-side hit and miss counters (R38), by process. -/
  stats : List (Nat × Stats)
  /-- The model's own: which free value the next statistics overflow takes (log 10). -/
  freeCount : Nat
  /-- The model's own: what will still arrive from outside, in order (log 1). -/
  inputs : List Input
  /-- The model's own: for each coming point between two per-page steps of a flush, the store-unit steps of other hosts
  that fall there, each with its host's number (20_memory.md R66, 43_tlb.md R167; log 5). -/
  gaps : List (List (Nat × StoreStep))
deriving DecidableEq, Repr

/-- The reasons a step stops the machine. No status of the spec is among them: a command that fails answers with an
error status and the block goes on (60_exceptions.md R242). -/
inductive Fault where
  /-- Raised by `step` alone, when the configuration breaks a constraint of 00_scope.md R9, to which the spec gives no
  behaviour. Safe: nothing is claimed of such a machine (log 3). -/
  | illegalConfiguration
deriving DecidableEq, Repr

/-- The reasons a step refuses an instruction. -/
inductive Refusal where
  /-- Raised by an arm of `exec` for an instruction without a meaning. Safe. No arm raises it: all 24 commands have
  their meaning. -/
  | notModelled (mnemonic : String)
deriving DecidableEq, Repr

/-- A response port before any response: the spec gives it no value (R41). DESIGN CHOICE (unsafe, log 4). -/
def Response.initial : Response := { status := .ok }

/-- The scheduler after `SCH.INIT` or reset (46_scheduler.md R216, R41): every queue empty, every quota `SLOT_INIT(l)`. -/
def initialLevels (c : Config) : List Level :=
  (List.range c.maxPrio).map fun l => { items := [], slot := c.quotaInit l }

/-- The machine right after reset under a given configuration (R41, 70_reset_and_hazards.md R271). -/
def State.resetOf (c : Config) : State :=
  { cfg := c, mem := [], flags := 0, levels := initialLevels c, response := Response.initial, hosts := [],
    events := [], pgd := [], stats := [], freeCount := 0, inputs := [], gaps := [] }

/-- The machine right after reset, with the parameters of 95_test_vectors.md (log 2). -/
def State.reset : State := State.resetOf Config.vectors

end Sys2Proof.Machine
end

