-- ==== Sys2Proof/Machine/Flags.lean ====
section
/-! DEFINITION. The sticky register `FLAGS` (10_state.md R29, 60_exceptions.md R248) and the numeric form of a response
(30_encoding.md R89, R90). The block has no condition codes (R29). -/

namespace Sys2Proof.Machine

/-- `FLAGS.DEVERR`, bit 0 (R29). -/
def devErrFlag (f : BitVec 2) : Bool := f.getLsbD 0

/-- `FLAGS.QFULL`, bit 1 (R29). -/
def qFullFlag (f : BitVec 2) : Bool := f.getLsbD 1

/-- `FLAGS.DEVERR <- 1` (60_exceptions.md R242). -/
def setDevErr (f : BitVec 2) : BitVec 2 := f ||| 1

/-- `FLAGS.QFULL <- 1` (46_scheduler.md R219). -/
def setQFull (f : BitVec 2) : BitVec 2 := f ||| 2

/-- `FLAGS.QFULL <- 0`, `FLAGS.DEVERR` left (46_scheduler.md R216). -/
def clearQFull (f : BitVec 2) : BitVec 2 := f &&& 1

/-- The code of a status (30_encoding.md R90). -/
def Status.code : Status → BitVec 4
  | .ok => 0
  | .miss => 1
  | .novict => 2
  | .empty => 3
  | .full => 4
  | .unimpl => 5
  | .devErr => 8
  | .badOp => 9
  | .badArg => 10

/-- "Codes with bit 3 set are errors" (30_encoding.md R90). -/
def Status.isError (st : Status) : Bool := st.code.getLsbD 3

/-- The 196-bit response record: `STATUS` in bits 195:192, then `RES0` down to `RES5` (30_encoding.md R89). -/
def Response.toBits (r : Response) : BitVec 196 :=
  r.status.code ++ r.res0 ++ r.res1 ++ r.res2 ++ r.res3 ++ r.res4 ++ r.res5

end Sys2Proof.Machine
end

