-- ==== Sys2Proof/Machine/Layout.lean ====
section
/-! DEFINITION. The layouts of the data words (30_encoding.md R80 to R87) and of the TLB lines in the store
(20_memory.md R59, R60): fields of a page-table entry, a virtual address, a way word and a summary word; the tag; the
line of a page; the address of a way. -/

namespace Sys2Proof.Machine

/-- The `w` bits of a word from bit `lo` up, zero-extended to 32 bits: `zext_32((v >> lo) mod 2^w)` (00_scope.md R10). -/
def bits (v : Word) (lo w : Nat) : Word := (v.extractLsb' lo w).setWidth 32

/-- `trunc_w(v)`, `v mod 2^w` (00_scope.md R11). -/
def trunc (w : Nat) (v : Word) : Word := bits v 0 w

/-- One bit of a word as a word. -/
def bitAt (v : Word) (i : Nat) : Word := bits v i 1

/-! Page-table entry (30_encoding.md R80, R87). -/

/-- `present`, bit 31. -/
def ptePresent (pte : Word) : Bool := pte.getLsbD 31

/-- `swapped`, bit 30. -/
def pteSwapped (pte : Word) : Bool := pte.getLsbD 30

/-- `FPN(pte)`, bits 12:0, the 13-bit frame number (41_codec.md R113). -/
def pteFrame (pte : Word) : BitVec 13 := pte.extractLsb' 0 13

/-- `SWP(pte)`, the swap-offset field (41_codec.md R114), zero-extended. -/
def pteSwapOff (c : Config) (pte : Word) : Word := bits pte c.swpOffLo c.swpOffW

/-- The swap-type field (41_codec.md R116), zero-extended. -/
def pteSwapType (c : Config) (pte : Word) : Word := bits pte c.swpTypLo c.swpTypW

/-! Virtual address (30_encoding.md R82). -/

/-- `offset`, bits 7:0, zero-extended. -/
def vaOffset (addr : Word) : Word := bits addr 0 8

/-- `page_number`, bits 21:8, zero-extended. -/
def vaPage (addr : Word) : Word := bits addr 8 14

/-! Tag and way word 0 (30_encoding.md R83, R84; 43_tlb.md R152, R153). -/

/-- `tag(pid, pagenum) = (pid << 14) | pagenum`, 30 bits (R83, R152). -/
def tag (pid page : Nat) : BitVec 30 := BitVec.ofNat 30 ((pid <<< 14) ||| page)

/-- `valid`, bit 31 of way word 0 (R84). -/
def wayValid (x : Word) : Bool := x.getLsbD 31

/-- `recency`, bit 30 of way word 0 (R84). -/
def wayRecency (x : Word) : Bool := x.getLsbD 30

/-- `tag`, bits 29:0 of way word 0 (R84). -/
def wayTag (x : Word) : BitVec 30 := x.extractLsb' 0 30

/-- `x | 0x40000000`: recency 1 (43_tlb.md R155). -/
def markRecent (x : Word) : Word := x ||| 0x40000000

/-- `x & 0xBFFFFFFF`: recency 0 (R155). -/
def clearRecent (x : Word) : Word := x &&& 0xBFFFFFFF

/-- `0xC0000000 | t`: valid 1, recency 1, tag `t` (43_tlb.md R156). -/
def filledWay (t : BitVec 30) : Word := 0xC0000000 ||| t.setWidth 32

/-! Lines in the store (20_memory.md R59, R60; 43_tlb.md R151). -/

/-- `N = floor(CAP / 16)` (R59). -/
def lines (c : Config) : Nat := c.cap / 16

/-- `line(pid, pg) = ((pid << 5) + (pg mod 32)) mod N`, on naturals (R151); meant for `N >= 1`. -/
def lineOf (c : Config) (pid page : Nat) : Nat := ((pid <<< 5) + page % 32) % lines c

/-- `WAYADDR(i, w) = 16*i + 8*w` (R60, R153). -/
def wayAddr (i w : Nat) : Nat := 16 * i + 8 * w

/-- The numbers of pages `[lo, hi)` in ascending order; none when `lo >= hi` (43_tlb.md R165). -/
def pages (lo hi : Nat) : List Nat := List.range' lo (hi - lo)

/-- The span of pages that a byte range `[start, stop)` touches, `p_lo` and `p_hi` (43_tlb.md R166, 44_facade.md R188);
empty for an empty range. -/
def pageSpan (start stop : Word) : Nat × Nat :=
  if start.toNat < stop.toNat then ((vaPage start).toNat, (vaPage (stop - 1)).toNat + 1)
  else (0, 0)

end Sys2Proof.Machine
end

