-- ==== Sys2Proof/Machine/SparseMap.lean ====
section
/-! DEFINITION. Maps from naturals as lists of pairs with strictly rising keys: the form of the store, of the hosts'
registers, of the page directory and of the statistics. -/

namespace Sys2Proof.Machine

/-- The value listed for a key. -/
def lookup {α : Type} : List (Nat × α) → Nat → Option α
  | [], _ => none
  | (k, v) :: rest, a => if a = k then some v else lookup rest a

/-- The map with a key's entry set to a value, or taken out. Rising keys stay rising. -/
def update {α : Type} : List (Nat × α) → Nat → Option α → List (Nat × α)
  | [], _, none => []
  | [], a, some v => [(a, v)]
  | (k, w) :: rest, a, o =>
    if a < k then
      match o with
      | none => (k, w) :: rest
      | some v => (a, v) :: (k, w) :: rest
    else if a = k then
      match o with
      | none => rest
      | some v => (a, v) :: rest
    else (k, w) :: update rest a o

/-- The keys rise strictly, from `lo` on. -/
def rising {α : Type} : Nat → List (Nat × α) → Bool
  | _, [] => true
  | lo, (k, _) :: rest => decide (lo ≤ k) && rising (k + 1) rest

end Sys2Proof.Machine
end

