-- ==== Sys2Proof/Machine/Ops.lean ====
section
/-! DEFINITION. The named operations every meaning is built from: bytes and big-endian words of the store (20_memory.md
R51 to R55), the response of a command, raising an error (60_exceptions.md R242 to R246: the block's one form of taking
an exception; there is no return, R249), reading the page directory (46_scheduler.md R226), emitting a reclaim event
(R227), delivering a response to a host (10_state.md R22). -/

namespace Sys2Proof.Machine

/-! The store as bytes and words. -/

/-- `MEM[a]`; an unlisted byte is `0x00` (R41). -/
def memByte (m : Memory) (a : Nat) : Byte := (lookup m a).getD 0

/-- `MEM[a] <- b`, keeping the canonical form: a zero byte is not listed. -/
def setByte (m : Memory) (a : Nat) (b : Byte) : Memory := update m a (if b = 0 then none else some b)

/-- The big-endian word at `a` (R51). -/
def memWord (m : Memory) (a : Nat) : Word :=
  memByte m a ++ memByte m (a + 1) ++ memByte m (a + 2) ++ memByte m (a + 3)

/-- The big-endian word `v` stored at `a`: most significant byte at the lowest address (R51). -/
def setWord (m : Memory) (a : Nat) (v : Word) : Memory :=
  setByte (setByte (setByte (setByte m a (v.extractLsb' 24 8)) (a + 1) (v.extractLsb' 16 8)) (a + 2)
    (v.extractLsb' 8 8)) (a + 3) (v.extractLsb' 0 8)

/-- The canonical form of the store: addresses strictly rising, no zero byte listed. -/
def Memory.wf (m : Memory) : Bool := rising 0 m && m.all fun c => c.2 != 0

/-! Responses and errors. -/

/-- Write the response of the command. -/
def respond (r : Response) (s : State) : State := { s with response := r }

/-- An error that ends a command (60_exceptions.md R242 to R244). -/
inductive CmdError where
  /-- `BadOp` (R243). -/
  | badOp
  /-- `BadArg(k)`: the `k`-th operand is out of range (R244). -/
  | badArg (k : Nat)
  /-- `DevErr(a)`: an access out of `[0, CAP)`, or a store without a line (R242). -/
  | devErr (a : Nat)
deriving DecidableEq, Repr

/-- `raise X(info)` (R246): the status, the information in `RES0`, the other `RES` 0, the sticky flag for `DevErr`, and
nothing else. -/
def raise (e : CmdError) (s : State) : State :=
  match e with
  | .badOp => respond { status := .badOp } s
  | .badArg k => respond { status := .badArg, res0 := BitVec.ofNat 32 k } s
  | .devErr a =>
    respond { status := .devErr, res0 := BitVec.ofNat 32 a } { s with flags := setDevErr s.flags }

/-- The response of the latest command goes to the host that issued it (10_state.md R22). -/
def deliver (host : Nat) (s : State) : State := { s with hosts := update s.hosts host (some s.response) }

/-- A host's own `STATUS` and `RES` registers (60_exceptions.md R262). -/
def hostResponse (s : State) (host : Nat) : Response := (lookup s.hosts host).getD Response.initial

/-! The access primitives (20_memory.md R52 to R55). Addresses are naturals: nothing wraps. -/

/-- `MemRead(addr, 1)` (R52). -/
def memRead1 (a : Nat) (s : State) : Except CmdError Byte :=
  if s.cfg.cap ≤ a then .error (.devErr a) else .ok (memByte s.mem a)

/-- `MemWrite(addr, 1, v)` (R53). -/
def memWrite1 (a : Nat) (b : Byte) (s : State) : Except CmdError State :=
  if s.cfg.cap ≤ a then .error (.devErr a) else .ok { s with mem := setByte s.mem a b }

/-- The lowest of `a .. a+3` that is not below `CAP`, when one is (R54). -/
def lowestOutside (cap a : Nat) : Nat := if cap ≤ a then a else cap

/-- `MemRead(addr, 4)` (R54). -/
def memRead4 (a : Nat) (s : State) : Except CmdError Word :=
  if s.cfg.cap ≤ a + 3 then .error (.devErr (lowestOutside s.cfg.cap a)) else .ok (memWord s.mem a)

/-- `MemWrite(addr, 4, v)`: the whole range is checked before a byte is written (R55). -/
def memWrite4 (a : Nat) (v : Word) (s : State) : Except CmdError State :=
  if s.cfg.cap ≤ a + 3 then .error (.devErr (lowestOutside s.cfg.cap a))
  else .ok { s with mem := setWord s.mem a v }

/-! The page directory and the reclaim port. -/

/-- Where the entry of a process's page stands in the list of the page directory. -/
def pgdKey (pid page : Nat) : Nat := pid * 16384 + page

/-- `PgdRead(pid, p)` (46_scheduler.md R226): the entry as it is now; an unlisted one is a free value (log 7). -/
def pgdRead (s : State) (pid page : Nat) : Word :=
  (lookup s.pgd (pgdKey pid page)).getD (Config.unlistedPte pid page)

/-- The external layer writes a page-directory entry (10_state.md R28, R39). -/
def writePte (pid : Nat) (page : BitVec 14) (pte : Word) (s : State) : State :=
  { s with pgd := update s.pgd (pgdKey pid page.toNat) (some pte) }

/-- `emit`: events leave on the reclaim port in order (R227). -/
def emit (es : List Event) (s : State) : State := { s with events := s.events ++ es }

/-- The reset event (70_reset_and_hazards.md R270, 10_state.md R41): the store, the flags, the scheduler, the response
port and the statistics as after creation. What is outside the block stays: the page directory, the hosts' registers,
the inputs still to come, the events already emitted (log 9). -/
def resetBlock (s : State) : State :=
  { s with mem := [], flags := 0, levels := initialLevels s.cfg, response := Response.initial, stats := [] }

end Sys2Proof.Machine
end

