-- ==== Sys2Proof/Machine/Operands.lean ====
section
/-! DEFINITION. What each command does with its operands before it acts (30_encoding.md R99): the truncation of
`ST.WRB`, and the range checks of the `TLB.*` and `SCH.*` commands, in ascending operand order, then the check for a line
(60_exceptions.md R247). A check answers the first error, or none. -/

namespace Sys2Proof.Machine

/-- `ARG1[7:0]`, the byte that `ST.WRB` stores (42_bytestore.md R131, R99 (a)). -/
def byteOperand (v : Word) : Byte := v.extractLsb' 0 8

/-- Operand `k` is a process id below `2^PID_W` (43_tlb.md R150). -/
def pidOk (c : Config) (pid : Word) : Bool := decide (pid.toNat < 2 ^ c.pidW)

/-- A page number below `2^14` (R150). -/
def pageOk (page : Word) : Bool := decide (page.toNat < 2 ^ 14)

/-- A page bound, at most `2^14` (R165). -/
def boundOk (bound : Word) : Bool := decide (bound.toNat ≤ 2 ^ 14)

/-- A priority or level below `MAX_PRIO` (46_scheduler.md R231). -/
def prioOk (c : Config) (prio : Word) : Bool := decide (prio.toNat < c.maxPrio)

/-- The store holds a line, `N >= 1` (43_tlb.md R150). -/
def hasLine (c : Config) : Bool := decide (1 ≤ lines c)

/-- The checks of `TLB.RD`, `TLB.INS`, `TLB.INV` (R150). -/
def checkPage (c : Config) (pid page : Word) : Option CmdError :=
  if !pidOk c pid then some (.badArg 0)
  else if !pageOk page then some (.badArg 1)
  else if !hasLine c then some (.devErr c.cap)
  else none

/-- The checks of `TLB.FLUSH` (R165). -/
def checkFlush (c : Config) (pid pgLo pgHi : Word) : Option CmdError :=
  if !pidOk c pid then some (.badArg 0)
  else if !boundOk pgLo then some (.badArg 1)
  else if !boundOk pgHi then some (.badArg 2)
  else if !hasLine c then some (.devErr c.cap)
  else none

/-- The check of `TLB.INVALL` (R170). -/
def checkInvall (c : Config) (pid : Word) : Option CmdError :=
  if !pidOk c pid then some (.badArg 0) else none

/-- The check of `SCH.PUT` (46_scheduler.md R219). -/
def checkPut (c : Config) (prio : Word) : Option CmdError :=
  if !prioOk c prio then some (.badArg 1) else none

/-- The checks of `SCH.END` (R222). A store without a line is no error there. -/
def checkEnd (c : Config) (prio pid pgLo pgHi : Word) : Option CmdError :=
  if !prioOk c prio then some (.badArg 1)
  else if !pidOk c pid then some (.badArg 2)
  else if !boundOk pgLo then some (.badArg 3)
  else if !boundOk pgHi then some (.badArg 4)
  else none

/-- The check of `SCH.SLOT` (R229). -/
def checkSlot (c : Config) (level : Word) : Option CmdError :=
  if !prioOk c level then some (.badArg 0) else none

end Sys2Proof.Machine
end

