-- ==== Sys2Proof/Machine/ByteStore.lean ====
section
/-! DEFINITION. The Byte Store commands (42_bytestore.md). Each is one atomic step of the store unit (R137). The
functions `stRdb` and so on are the steps; a meaning is its step as a command of the port. -/

namespace Sys2Proof.Machine

/-- The step of `ST.RDB` (R130). -/
def stRdb (addr : Word) (s : State) : State :=
  match memRead1 addr.toNat s with
  | .error e => raise e s
  | .ok b => respond { status := .ok, res0 := b.setWidth 32 } s

/-- The step of `ST.WRB` (R131). -/
def stWrb (addr value : Word) (s : State) : State :=
  match memWrite1 addr.toNat (byteOperand value) s with
  | .error e => raise e s
  | .ok s' => respond { status := .ok } s'

/-- The step of `ST.RDW` (R132). -/
def stRdw (addr : Word) (s : State) : State :=
  match memRead4 addr.toNat s with
  | .error e => raise e s
  | .ok w => respond { status := .ok, res0 := w } s

/-- The step of `ST.WRW` (R133). -/
def stWrw (addr value : Word) (s : State) : State :=
  match memWrite4 addr.toNat value s with
  | .error e => raise e s
  | .ok s' => respond { status := .ok } s'

/-- The step of `ST.DUMP` (R134): no state changes; the diagnostic text is no output of the model. -/
def stDump (s : State) : State := respond { status := .ok } s

/-- The step of `ST.BDUMP` (R135): as `ST.DUMP`. -/
def stBdump (s : State) : State := respond { status := .ok } s

/-- `ST.RDB` (R130). -/
def execStRdb (addr : Word) (s : State) : Host.Outcome State Fault Refusal := .next (stRdb addr s)

/-- `ST.WRB` (R131). -/
def execStWrb (addr value : Word) (s : State) : Host.Outcome State Fault Refusal := .next (stWrb addr value s)

/-- `ST.RDW` (R132). -/
def execStRdw (addr : Word) (s : State) : Host.Outcome State Fault Refusal := .next (stRdw addr s)

/-- `ST.WRW` (R133). -/
def execStWrw (addr value : Word) (s : State) : Host.Outcome State Fault Refusal := .next (stWrw addr value s)

/-- `ST.DUMP` (R134). -/
def execStDump (s : State) : Host.Outcome State Fault Refusal := .next (stDump s)

/-- `ST.BDUMP` (R135). -/
def execStBdump (s : State) : Host.Outcome State Fault Refusal := .next (stBdump s)

end Sys2Proof.Machine
end

