-- ==== Sys2Proof/Machine/Codec.lean ====
section
/-! DEFINITION. The Codec commands (41_codec.md): pure functions of their operands; they read and write no state but the
response and always answer `OK` (R118, R119). -/

namespace Sys2Proof.Machine

/-- Bits 12:0 of a packed entry (R110): the frame when present, else the two swap fields, each truncated. -/
def packLow (c : Config) (present : Bool) (frame swapType swapOff : Word) : Word :=
  if present then trunc 13 frame
  else (trunc c.swpOffW swapOff <<< c.swpOffLo) ||| (trunc c.swpTypW swapType <<< c.swpTypLo)

/-- The entry that `PTE.PACK` builds (R110). -/
def packPte (c : Config) (present frame dirty swapped swapType swapOff : Word) : Word :=
  (trunc 1 present <<< 31) ||| (trunc 1 swapped <<< 30) ||| (trunc 1 dirty <<< 28) |||
    packLow c (present.getLsbD 0) frame swapType swapOff

/-- `PTE.PACK` (R110). -/
def execPtePack (present frame dirty swapped swapType swapOff : Word) (s : State) : Host.Outcome State Fault Refusal :=
  .next (respond { status := .ok, res0 := packPte s.cfg present frame dirty swapped swapType swapOff } s)

/-- `VA.OFF` (R111). -/
def execVaOff (addr : Word) (s : State) : Host.Outcome State Fault Refusal :=
  .next (respond { status := .ok, res0 := vaOffset addr } s)

/-- `VA.PGN` (R112). -/
def execVaPgn (addr : Word) (s : State) : Host.Outcome State Fault Refusal :=
  .next (respond { status := .ok, res0 := vaPage addr } s)

/-- `PTE.FPN` (R113). -/
def execPteFpn (pte : Word) (s : State) : Host.Outcome State Fault Refusal :=
  .next (respond { status := .ok, res0 := (pteFrame pte).setWidth 32 } s)

/-- `PTE.SWP` (R114). -/
def execPteSwp (pte : Word) (s : State) : Host.Outcome State Fault Refusal :=
  .next (respond { status := .ok, res0 := pteSwapOff s.cfg pte } s)

/-- `SUM.DEC` (R115; layout 30_encoding.md R86). -/
def execSumDec (word : Word) (s : State) : Host.Outcome State Fault Refusal :=
  .next (respond
    { status := .ok, res0 := bitAt word 31, res1 := bits word 26 5, res2 := bits word 12 14, res3 := bits word 0 12 } s)

/-- `PTE.UNPACK` (R116): raw slices, in the order of `PTE.PACK`'s operands. -/
def execPteUnpack (pte : Word) (s : State) : Host.Outcome State Fault Refusal :=
  .next (respond
    { status := .ok, res0 := bitAt pte 31, res1 := bits pte 0 13, res2 := bitAt pte 28, res3 := bitAt pte 30,
      res4 := pteSwapType s.cfg pte, res5 := pteSwapOff s.cfg pte } s)

end Sys2Proof.Machine
end

