-- ==== Sys2Proof/Machine/Queue.lean ====
section
/-! DEFINITION. The bounded queues (45_queue.md) and the quota counters (10_state.md R36, 46_scheduler.md R230) of the
scheduler's levels. -/

namespace Sys2Proof.Machine

/-- Level `l`; a level that the state does not have is empty. -/
def levelAt (s : State) (l : Nat) : Level := s.levels.getD l { items := [], slot := 0 }

/-- Level `l` replaced. -/
def setLevel (l : Nat) (lv : Level) (s : State) : State := { s with levels := s.levels.set l lv }

/-- `enqueue(l, item)` (R201): the new state and whether the item was accepted. -/
def enqueue (l : Nat) (item : Word) (s : State) : State × Bool :=
  let lv := levelAt s l
  if lv.items.length = s.cfg.maxQueue then (s, false)
  else (setLevel l { lv with items := lv.items ++ [item] } s, true)

/-- `dequeue(l)` (R202): the item enqueued first and the new state, or empty. -/
def dequeue (l : Nat) (s : State) : Option (Word × State) :=
  let lv := levelAt s l
  match lv.items with
  | [] => none
  | item :: rest => some (item, setLevel l { lv with items := rest } s)

/-- `empty(l)` (R203); a level from `MAX_PRIO` on counts as empty. -/
def queueEmpty (l : Nat) (s : State) : Bool := decide (s.cfg.maxPrio ≤ l) || (levelAt s l).items.isEmpty

/-- `SLOT[l] <- SLOT[l] + d` modulo `2^32` (R230). -/
def addQuota (l : Nat) (d : Word) (s : State) : State :=
  setLevel l { levelAt s l with slot := (levelAt s l).slot + d } s

end Sys2Proof.Machine
end

