-- ==== Sys2Proof/Machine/Tlb.lean ====
section
/-! DEFINITION. The TLB Cache Engine commands (43_tlb.md). The engine has no storage of its own: every line is 16 bytes
of the store (10_state.md R25). After the checks of R150 no access can be out of range, so the helpers read and write the
store's words directly (log 12). -/

namespace Sys2Proof.Machine

/-! Helpers (R153, R155). -/

/-- `W0(i, w)`, way word 0 (R153). -/
def wayWord (m : Memory) (i w : Nat) : Word := memWord m (wayAddr i w)

/-- `PTEOF(i, w)`, the shadow page-table entry (R153). -/
def wayPte (m : Memory) (i w : Nat) : Word := memWord m (wayAddr i w + 4)

/-- The recency of a way is cleared; nothing else of its word changes (R155). -/
def clearRecency (m : Memory) (i w : Nat) : Memory := setWord m (wayAddr i w) (clearRecent (wayWord m i w))

/-- `touch(i, w)`: way `w` becomes the most recently used of its line, valid sibling or not (R155). -/
def touch (m : Memory) (i w : Nat) : Memory :=
  clearRecency (setWord m (wayAddr i w) (markRecent (wayWord m i w))) i (1 - w)

/-- A way that a read of tag `t` hits: valid, the tag equal, the shadow entry present (R154). -/
def wayHits (m : Memory) (i w : Nat) (t : BitVec 30) : Bool :=
  wayValid (wayWord m i w) && (wayTag (wayWord m i w) == t) && ptePresent (wayPte m i w)

/-- The way that a read hits, way 0 before way 1 (R154). -/
def hitWay (m : Memory) (i : Nat) (t : BitVec 30) : Option Nat :=
  if wayHits m i 0 t then some 0 else if wayHits m i 1 t then some 1 else none

/-- The way that an insert fills (R156): the first invalid one, else the first with recency 0, else none. -/
def victimWay (m : Memory) (i : Nat) : Option Nat :=
  if !wayValid (wayWord m i 0) then some 0
  else if !wayValid (wayWord m i 1) then some 1
  else if !wayRecency (wayWord m i 0) then some 0
  else if !wayRecency (wayWord m i 1) then some 1
  else none

/-- Way `k` filled with a tag and an entry, the sibling's recency cleared (R156). -/
def fillWay (m : Memory) (i k : Nat) (t : BitVec 30) (pte : Word) : Memory :=
  clearRecency (setWord (setWord m (wayAddr i k) (filledWay t)) (wayAddr i k + 4) pte) i (1 - k)

/-- Both words of a way zeroed if its tag field is `t`, valid or not (R160, R161); and whether it was. -/
def invalidateWay (m : Memory) (i w : Nat) (t : BitVec 30) : Memory × Bool :=
  if wayTag (wayWord m i w) == t then (setWord (setWord m (wayAddr i w) 0) (wayAddr i w + 4) 0, true)
  else (m, false)

/-- The body of `TLB.INV` on a line: way 0, then way 1 (R160); and whether one had the tag. -/
def invalidateLine (m : Memory) (i : Nat) (t : BitVec 30) : Memory × Bool :=
  let first := invalidateWay m i 0 t
  let second := invalidateWay first.1 i 1 t
  (second.1, first.2 || second.2)

/-- The body of `TLB.INV` for one page, its status left out (R165). -/
def invalidatePage (pid page : Nat) (s : State) : State :=
  { s with mem := (invalidateLine s.mem (lineOf s.cfg pid page) (tag pid page)).1 }

/-! The atomic steps (20_memory.md R62). -/

/-- The step of `TLB.RD` (R154). -/
def tlbRd (pid page : Word) (s : State) : State :=
  match checkPage s.cfg pid page with
  | some e => raise e s
  | none =>
    let i := lineOf s.cfg pid.toNat page.toNat
    match hitWay s.mem i (tag pid.toNat page.toNat) with
    | some w =>
      respond { status := .ok, res0 := (pteFrame (wayPte s.mem i w)).setWidth 32 } { s with mem := touch s.mem i w }
    | none => respond { status := .miss } s

/-- The step of `TLB.INS` (R156). It does not look for a way that already holds the tag (R158). -/
def tlbIns (pid page pte : Word) (s : State) : State :=
  match checkPage s.cfg pid page with
  | some e => raise e s
  | none =>
    let i := lineOf s.cfg pid.toNat page.toNat
    match victimWay s.mem i with
    | some k =>
      respond { status := .ok, res0 := (pteFrame pte).setWidth 32 }
        { s with mem := fillWay s.mem i k (tag pid.toNat page.toNat) pte }
    | none => respond { status := .novict } s

/-- The step of `TLB.INV` (R160). -/
def tlbInv (pid page : Word) (s : State) : State :=
  match checkPage s.cfg pid page with
  | some e => raise e s
  | none =>
    let r := invalidateLine s.mem (lineOf s.cfg pid.toNat page.toNat) (tag pid.toNat page.toNat)
    respond { status := if r.2 then .ok else .miss } { s with mem := r.1 }

/-- The step of `TLB.INVALL` (R170): a placeholder that does nothing and says so. -/
def tlbInvall (pid : Word) (s : State) : State :=
  match checkInvall s.cfg pid with
  | some e => raise e s
  | none => respond { status := .unimpl } s

/-! The flush, one atomic step per page, other hosts' steps between (R165, R167; 20_memory.md R66). -/

/-- One page of another host's flush, whose operands have passed their checks; otherwise nothing. -/
def flushPage (pid page : Word) (s : State) : State :=
  match checkPage s.cfg pid page with
  | some _ => s
  | none => invalidatePage pid.toNat page.toNat s

/-- One atomic step of the store unit done for another host, with its response to that host. -/
def otherHostStep (s : State) (x : Nat × StoreStep) : State :=
  match x.2 with
  | .rdb addr => deliver x.1 (stRdb addr s)
  | .wrb addr value => deliver x.1 (stWrb addr value s)
  | .rdw addr => deliver x.1 (stRdw addr s)
  | .wrw addr value => deliver x.1 (stWrw addr value s)
  | .dump => deliver x.1 (stDump s)
  | .bdump => deliver x.1 (stBdump s)
  | .rd pid page => deliver x.1 (tlbRd pid page s)
  | .ins pid page pte => deliver x.1 (tlbIns pid page pte s)
  | .inv pid page => deliver x.1 (tlbInv pid page s)
  | .invall pid => deliver x.1 (tlbInvall pid s)
  | .flushPage pid page => flushPage pid page s
  | .flushDone => deliver x.1 (respond { status := .ok } s)

/-- What other hosts do to the store unit at the next point between two steps of a flush (log 5). -/
def otherHosts (s : State) : State :=
  match s.gaps with
  | [] => s
  | g :: rest => g.foldl otherHostStep { s with gaps := rest }

/-- `n` pages of a process from `p` on, ascending, each one atomic step (R165, R167). -/
def flushPages (pid : Nat) : Nat → Nat → State → State
  | _, 0, s => s
  | p, n + 1, s => flushPages pid (p + 1) n (otherHosts (invalidatePage pid p s))

/-- The step of `TLB.FLUSH` over `[pgLo, pgHi)` (R165). -/
def tlbFlush (pid pgLo pgHi : Word) (s : State) : State :=
  match checkFlush s.cfg pid pgLo pgHi with
  | some e => raise e s
  | none => respond { status := .ok } (flushPages pid.toNat pgLo.toNat (pgHi.toNat - pgLo.toNat) s)

/-! The meanings. -/

/-- `TLB.RD` (R154). -/
def execTlbRd (pid page : Word) (s : State) : Host.Outcome State Fault Refusal := .next (tlbRd pid page s)

/-- `TLB.INS` (R156). -/
def execTlbIns (pid page pte : Word) (s : State) : Host.Outcome State Fault Refusal := .next (tlbIns pid page pte s)

/-- `TLB.INV` (R160). -/
def execTlbInv (pid page : Word) (s : State) : Host.Outcome State Fault Refusal := .next (tlbInv pid page s)

/-- `TLB.FLUSH` (R165). -/
def execTlbFlush (pid pgLo pgHi : Word) (s : State) : Host.Outcome State Fault Refusal :=
  .next (tlbFlush pid pgLo pgHi s)

/-- `TLB.INVALL` (R170). -/
def execTlbInvall (pid : Word) (s : State) : Host.Outcome State Fault Refusal := .next (tlbInvall pid s)

end Sys2Proof.Machine
end

