-- ==== Sys2Proof/Machine/Scheduler.lean ====
section
/-! DEFINITION. The MLQ Scheduler commands (46_scheduler.md). Each is one atomic step of the scheduler unit (R215);
level 0 is the highest priority. -/

namespace Sys2Proof.Machine

/-- `SCH.INIT` (R216). -/
def execSchInit (s : State) : Host.Outcome State Fault Refusal :=
  .next (respond { status := .ok } { s with levels := initialLevels s.cfg, flags := clearQFull s.flags })

/-- The first level, from 0 up, whose queue is not empty (R217). -/
def firstReady (s : State) : Option Nat := (List.range s.cfg.maxPrio).find? fun l => !queueEmpty l s

/-- `SCH.GET` (R217): the front of the first level that has one, its quota decremented; no quota is tested. -/
def execSchGet (s : State) : Host.Outcome State Fault Refusal :=
  match firstReady s with
  | none => .next (respond { status := .empty } s)
  | some l =>
    match dequeue l s with
    | none => .next (respond { status := .empty } s)
    | some (item, s') =>
      .next (respond { status := .ok, res0 := item, res1 := BitVec.ofNat 32 l } (addQuota l (-1) s'))

/-- `SCH.PUT` (R219, R221): the quota is incremented whether or not the queue takes the process. -/
def execSchPut (proc prio : Word) (s : State) : Host.Outcome State Fault Refusal :=
  match checkPut s.cfg prio with
  | some e => .next (raise e s)
  | none =>
    let r := enqueue prio.toNat proc s
    let s' := addQuota prio.toNat 1 r.1
    if r.2 then .next (respond { status := .ok } s')
    else .next (respond { status := .full } { s' with flags := setQFull s'.flags })

/-- What the walk of `SCH.END` emits for one page (R223): a frame if present, else a slot if swapped, else nothing. -/
def reclaimOf (s : State) (pid page : Nat) : Option Event :=
  let pte := pgdRead s pid page
  if ptePresent pte then some (.ramFree (pteFrame pte))
  else if pteSwapped pte then some (.swapFree (pteSwapOff s.cfg pte))
  else none

/-- The walk (R222 step 3, R223): the reclaim events of the pages `[lo, hi)`, ascending. -/
def walk (s : State) (pid lo hi : Nat) : List Event := (pages lo hi).filterMap (reclaimOf s pid)

/-- A `RamFree` event. -/
def Event.isRam : Event → Bool
  | .ramFree _ => true
  | .swapFree _ => false
  | .pcbRelease _ => false

/-- A `SwapFree` event. -/
def Event.isSwap : Event → Bool
  | .ramFree _ => false
  | .swapFree _ => true
  | .pcbRelease _ => false

/-- `SCH.END` (R222): the quota, the flush where the store has a line, the walk, the release; `RES0` and `RES1` count
the two kinds of reclaim event. The queues are not searched (R225). -/
def execSchEnd (proc prio pid pgLo pgHi : Word) (s : State) : Host.Outcome State Fault Refusal :=
  match checkEnd s.cfg prio pid pgLo pgHi with
  | some e => .next (raise e s)
  | none =>
    let s1 := addQuota prio.toNat 1 s
    let s2 := if hasLine s1.cfg then flushPages pid.toNat pgLo.toNat (pgHi.toNat - pgLo.toNat) s1 else s1
    let es := walk s2 pid.toNat pgLo.toNat pgHi.toNat
    .next (respond
      { status := .ok, res0 := BitVec.ofNat 32 (es.countP Event.isRam), res1 := BitVec.ofNat 32 (es.countP Event.isSwap) }
      (emit (es ++ [.pcbRelease proc]) s2))

/-- `SCH.EMPTY` (R228). -/
def execSchEmpty (s : State) : Host.Outcome State Fault Refusal :=
  .next (respond
    { status := .ok, res0 := if (List.range s.cfg.maxPrio).all fun l => queueEmpty l s then 1 else 0 } s)

/-- `SCH.SLOT` (R229). -/
def execSchSlot (level : Word) (s : State) : Host.Outcome State Fault Refusal :=
  match checkSlot s.cfg level with
  | some e => .next (raise e s)
  | none => .next (respond { status := .ok, res0 := (levelAt s level.toNat).slot } s)

end Sys2Proof.Machine
end

