-- ==== Sys2Proof/Machine/Dispatch.lean ====
section
/-! DEFINITION. The command dispatcher: one arm for each constructor of `Instr`, each a direct call of its meaning. -/

namespace Sys2Proof.Machine

def exec (i : Instr) (s : State) : Host.Outcome State Fault Refusal :=
  match i with
  | .ptePack present frame dirty swapped swapType swapOff => Sys2Proof.Machine.execPtePack present frame dirty swapped swapType swapOff s
  | .vaOff addr => Sys2Proof.Machine.execVaOff addr s
  | .vaPgn addr => Sys2Proof.Machine.execVaPgn addr s
  | .pteFpn pte => Sys2Proof.Machine.execPteFpn pte s
  | .pteSwp pte => Sys2Proof.Machine.execPteSwp pte s
  | .sumDec word => Sys2Proof.Machine.execSumDec word s
  | .pteUnpack pte => Sys2Proof.Machine.execPteUnpack pte s
  | .stRdb addr => Sys2Proof.Machine.execStRdb addr s
  | .stWrb addr value => Sys2Proof.Machine.execStWrb addr value s
  | .stRdw addr => Sys2Proof.Machine.execStRdw addr s
  | .stWrw addr value => Sys2Proof.Machine.execStWrw addr value s
  | .stDump => Sys2Proof.Machine.execStDump s
  | .stBdump => Sys2Proof.Machine.execStBdump s
  | .tlbRd pid page => Sys2Proof.Machine.execTlbRd pid page s
  | .tlbIns pid page pte => Sys2Proof.Machine.execTlbIns pid page pte s
  | .tlbInv pid page => Sys2Proof.Machine.execTlbInv pid page s
  | .tlbFlush pid pgLo pgHi => Sys2Proof.Machine.execTlbFlush pid pgLo pgHi s
  | .tlbInvall pid => Sys2Proof.Machine.execTlbInvall pid s
  | .schInit => Sys2Proof.Machine.execSchInit s
  | .schGet => Sys2Proof.Machine.execSchGet s
  | .schPut proc prio => Sys2Proof.Machine.execSchPut proc prio s
  | .schEnd proc prio pid pgLo pgHi => Sys2Proof.Machine.execSchEnd proc prio pid pgLo pgHi s
  | .schEmpty => Sys2Proof.Machine.execSchEmpty s
  | .schSlot level => Sys2Proof.Machine.execSchSlot level s

end Sys2Proof.Machine
end

