-- ==== Sys2Proof/Machine/Port.lean ====
section
/-! DEFINITION. The command port (30_encoding.md R88, R89): a record is decoded, its command runs, and the response goes
to the host that issued it; an illegal operation code answers `BAD_OP` (R94). -/

namespace Sys2Proof.Machine

/-- An outcome whose next state has its response delivered to a host. -/
def delivered (host : Nat) : Host.Outcome State Fault Refusal → Host.Outcome State Fault Refusal
  | .next s => .next (deliver host s)
  | .fault r => .fault r
  | .refused r => .refused r

/-- A host's command record at the port. -/
def runCommand (host : Nat) (rec : BitVec 200) (s : State) : Host.Outcome State Fault Refusal :=
  match decode rec with
  | .ok i => delivered host (exec i s)
  | .error _ => .next (deliver host (raise .badOp s))

end Sys2Proof.Machine
end

