-- ==== Sys2Proof/Machine/Facade.lean ====
section
/-! DEFINITION. The TLB Façade (44_facade.md): software around the block, as sequences of inputs, and its two host-side
steps, the statistics (R186) and the insert from the page directory (R181, R184). A sequence is not atomic (R187): the
inputs of other hosts may stand anywhere between its own; where R181 to R184 call the delegate, the caller says what
happens meanwhile (`meanwhile`, the delegate's writes to the page directory among them). -/

namespace Sys2Proof.Machine

/-- `HIT[pid]` and `MISS[pid]`; 0 until the process has counted a lookup (R186). -/
def statsOf (s : State) (pid : Nat) : Stats := (lookup s.stats pid).getD { hit := 0, miss := 0 }

/-- One more on a counter; past `2^32 - 1` the value is free (93_implementation_defined.md U6, log 10). -/
def countUp (k : Nat) (c : Word) : Word := if c = 0xFFFFFFFF then Config.statPastMax k else c + 1

/-- The Façade counts the host's latest lookup: `OK` is a hit, any other status a miss (R183, R186). -/
def countLookup (host pid : Nat) (s : State) : State :=
  let st := statsOf s pid
  let st' : Stats :=
    if (hostResponse s host).status = .ok then { st with hit := countUp s.freeCount st.hit }
    else { st with miss := countUp s.freeCount st.miss }
  { s with stats := update s.stats pid (some st'), freeCount := s.freeCount + 1 }

/-- A new process: its counters are 0 (R186). -/
def createProcess (pid : Nat) (s : State) : State := { s with stats := update s.stats pid (some { hit := 0, miss := 0 }) }

/-- The Façade's insert of a page with its page-directory entry as it is now (R181); with `onlyAfterMiss`, nothing if the
host's latest lookup was a hit (R184). -/
def insertFromDirectory (host : Nat) (pid page : Word) (onlyAfterMiss : Bool) (s : State) :
    Host.Outcome State Fault Refusal :=
  if onlyAfterMiss && ((hostResponse s host).status == .ok) then .next s
  else delivered host (exec (.tlbIns pid page (pgdRead s pid.toNat page.toNat)) s)

/-- `alloc` (R181). `range` is the delegate's answer: the freshly allocated bytes, or none when it fails; then no command
is issued. -/
def facAlloc (host : Nat) (pid : Word) (range : Option (Word × Word)) : List Input :=
  match range with
  | none => []
  | some (start, stop) =>
    (pages (pageSpan start stop).1 (pageSpan start stop).2).map fun p =>
      .insertFromDirectory host pid (BitVec.ofNat 32 p) false

/-- `free` of the region `[start, stop)` (R182). Whether the invalidations still happen when the delegate's free fails is
open (91_not_in_source.md N14, 93_implementation_defined.md U16): `invalidates` says it. -/
def facFree (host : Nat) (pid start stop : Word) (meanwhile : List Input) (invalidates : Bool) : List Input :=
  meanwhile ++
    if invalidates then
      (pages (pageSpan start stop).1 (pageSpan start stop).2).map fun p =>
        .command host (encode (.tlbInv pid (BitVec.ofNat 32 p)))
    else []

/-- The lookup that `read` and `write` begin with (R183, R184): the page of the address, the read of the TLB, the
statistics. -/
def facLookup (host : Nat) (pid addr : Word) : List Input :=
  [.command host (encode (.vaPgn addr)), .command host (encode (.tlbRd pid (vaPage addr))),
    .countLookup host pid.toNat]

/-- `read` at byte address `addr` (R183). The data come from the delegate and are no part of the block. -/
def facRead (host : Nat) (pid addr : Word) (meanwhile : List Input) : List Input :=
  facLookup host pid addr ++ meanwhile

/-- `write` at byte address `addr` (R184): after a miss, an insert with the entry as it is after the write; none when the
delegate's write fails. -/
def facWrite (host : Nat) (pid addr : Word) (meanwhile : List Input) (delegateOk : Bool) : List Input :=
  facLookup host pid addr ++ meanwhile ++
    if delegateOk then [.insertFromDirectory host pid (vaPage addr) true] else []

/-- `flush_of` and `invalidate_all` (R185): one `TLB.INVALL`. -/
def facFlushOf (host : Nat) (pid : Word) : List Input := [.command host (encode (.tlbInvall pid))]

/-- What one input does. -/
def takeInput (x : Input) (s : State) : Host.Outcome State Fault Refusal :=
  match x with
  | .command host rec => runCommand host rec s
  | .reset => .next (resetBlock s)
  | .setPte pid page pte => .next (writePte pid page pte s)
  | .createProcess pid => .next (createProcess pid s)
  | .countLookup host pid => .next (countLookup host pid s)
  | .insertFromDirectory host pid page onlyAfterMiss => insertFromDirectory host pid page onlyAfterMiss s

end Sys2Proof.Machine
end

