-- ==== Sys2Proof/Machine/Step.lean ====
section
/-! DEFINITION. The step: the next input takes effect; with no input the block waits (70_reset_and_hazards.md R273: it
never halts). -/

namespace Sys2Proof.Machine

/-- One step. -/
def step (s : State) : Host.Outcome State Fault Refusal :=
  if s.cfg.legal then
    match s.inputs with
    | [] => .next s
    | x :: rest => takeInput x { s with inputs := rest }
  else .fault .illegalConfiguration

/-- The state with an instruction's record as the next command of host 0: the block fetches nothing, a host issues the
command (10_state.md R23, log 1). -/
def State.withFetchWord (s : State) (nbits w : Nat) : State :=
  { s with inputs := .command 0 (BitVec.ofNat 200 (w % 2 ^ nbits)) :: s.inputs }

end Sys2Proof.Machine
end

