-- ==== Sys2Proof/Safety.lean ====
section
/-! DEFINITION. What counts as a good state and a safe run: the invariant of the model, the sticky error marks
(60_exceptions.md R248), and the conditions on TLB lines and on other hosts' steps that the spec's conditional promises
take (10_state.md R27, 20_memory.md R70, 43_tlb.md R157, 70_reset_and_hazards.md R276, R279). -/

namespace Sys2Proof.Machine

/-- Every listed byte lies in `[0, CAP)` (10_state.md R24). -/
def memInside (s : State) : Bool := s.mem.all fun c => decide (c.1 < s.cfg.cap)

/-- `MAX_PRIO` levels, each queue within its capacity (10_state.md R31, R32). -/
def levelsOk (s : State) : Bool :=
  decide (s.levels.length = s.cfg.maxPrio) && s.levels.all fun lv => decide (lv.items.length ≤ s.cfg.maxQueue)

/-- The invariant of the model: a legal configuration (00_scope.md R9), the store in its canonical form and inside
`[0, CAP)`, the queues within their capacity, the model's other maps with rising keys. -/
def State.wf (s : State) : Bool :=
  s.cfg.legal && Memory.wf s.mem && memInside s && levelsOk s &&
    rising 0 s.hosts && rising 0 s.pgd && rising 0 s.stats

/-- "No device error recorded", the safety predicate that 60_exceptions.md R248 names. -/
def noDeviceError (s : State) : Bool := !devErrFlag s.flags

/-- No process has been lost to a full queue since the last `SCH.INIT` or reset (R248, 70_reset_and_hazards.md R281). -/
def noQueueFull (s : State) : Bool := !qFullFlag s.flags

/-- No line of the store has recency 1 in both ways (43_tlb.md R157). -/
def regularLines (s : State) : Prop :=
  ∀ i < lines s.cfg, ¬(wayRecency (wayWord s.mem i 0) = true ∧ wayRecency (wayWord s.mem i 1) = true)

/-- Way `w` of line `i` is valid and holds tag `t`. -/
def wayHolds (m : Memory) (i w : Nat) (t : BitVec 30) : Bool :=
  wayValid (wayWord m i w) && (wayTag (wayWord m i w) == t)

/-- The discipline of 70_reset_and_hazards.md R276 for one page: no valid way of its line holds its tag. -/
def pageAbsent (s : State) (pid page : Word) : Bool :=
  let i := lineOf s.cfg pid.toNat page.toNat
  let t := tag pid.toNat page.toNat
  !wayHolds s.mem i 0 t && !wayHolds s.mem i 1 t

/-- A raw write, the one kind of command that can break a line (20_memory.md R69, 70_reset_and_hazards.md R279). -/
def rawWrite : Instr → Bool
  | .ptePack .. => false
  | .vaOff .. => false
  | .vaPgn .. => false
  | .pteFpn .. => false
  | .pteSwp .. => false
  | .sumDec .. => false
  | .pteUnpack .. => false
  | .stRdb .. => false
  | .stWrb .. => true
  | .stRdw .. => false
  | .stWrw .. => true
  | .stDump => false
  | .stBdump => false
  | .tlbRd .. => false
  | .tlbIns .. => false
  | .tlbInv .. => false
  | .tlbFlush .. => false
  | .tlbInvall .. => false
  | .schInit => false
  | .schGet => false
  | .schPut .. => false
  | .schEnd .. => false
  | .schEmpty => false
  | .schSlot .. => false

/-- The insert of one page, the one `TLB.*` command that can create its entry (20_memory.md R70). -/
def insertsPage (pid page : Word) : Instr → Bool
  | .ptePack .. => false
  | .vaOff .. => false
  | .vaPgn .. => false
  | .pteFpn .. => false
  | .pteSwp .. => false
  | .sumDec .. => false
  | .pteUnpack .. => false
  | .stRdb .. => false
  | .stWrb .. => false
  | .stRdw .. => false
  | .stWrw .. => false
  | .stDump => false
  | .stBdump => false
  | .tlbRd .. => false
  | .tlbIns pid' page' _ => pid' == pid && page' == page
  | .tlbInv .. => false
  | .tlbFlush .. => false
  | .tlbInvall .. => false
  | .schInit => false
  | .schGet => false
  | .schPut .. => false
  | .schEnd .. => false
  | .schEmpty => false
  | .schSlot .. => false

/-- A raw write by another host. -/
def otherRawWrite : StoreStep → Bool
  | .rdb .. => false
  | .wrb .. => true
  | .rdw .. => false
  | .wrw .. => true
  | .dump => false
  | .bdump => false
  | .rd .. => false
  | .ins .. => false
  | .inv .. => false
  | .invall .. => false
  | .flushPage .. => false
  | .flushDone => false

/-- Another host's insert of one page. -/
def otherInsertsPage (pid page : Word) : StoreStep → Bool
  | .rdb .. => false
  | .wrb .. => false
  | .rdw .. => false
  | .wrw .. => false
  | .dump => false
  | .bdump => false
  | .rd .. => false
  | .ins pid' page' _ => pid' == pid && page' == page
  | .inv .. => false
  | .invall .. => false
  | .flushPage .. => false
  | .flushDone => false

/-- No raw write stands among the other hosts' steps. -/
def gapsWithoutRawWrites (s : State) : Bool := s.gaps.all fun g => g.all fun x => !otherRawWrite x.2

/-- No insert of a page stands among the other hosts' steps. -/
def gapsWithoutInsert (pid page : Word) (s : State) : Bool := s.gaps.all fun g => g.all fun x => !otherInsertsPage pid page x.2

/-! Terms the statements use. -/

/-- Every record with this `OP` and these first operands, whatever its other fields hold, carries the command
(30_encoding.md R88, R91 to R93). -/
def carriedBy (op : BitVec 8) (args : List Word) (i : Instr) : Prop :=
  ∀ r : BitVec 200, recOp r = op → (∀ k (h : k < args.length), recArg r k = args[k]) → decode r = .ok i

/-- The unit a command belongs to, `OP[7:4]`: 0 Codec, 1 Byte Store, 2 TLB engine, 3 scheduler (30_encoding.md R88). -/
def unitOf (i : Instr) : Nat := i.opcode.toNat / 16

/-- The operands of a page command pass the checks of 43_tlb.md R150, and the store has a line. -/
def pageOperandsOk (c : Config) (pid page : Word) : Prop :=
  pid.toNat < 2 ^ c.pidW ∧ page.toNat < 2 ^ 14 ∧ 16 ≤ c.cap

/-- Way `w` of the page's line is valid, holds the page's tag, and its shadow entry is present (43_tlb.md R154). -/
def wayAnswers (s : State) (pid page : Word) (w : Nat) : Prop :=
  wayValid (wayWord s.mem (lineOf s.cfg pid.toNat page.toNat) w) = true ∧
    wayTag (wayWord s.mem (lineOf s.cfg pid.toNat page.toNat) w) = tag pid.toNat page.toNat ∧
    ptePresent (wayPte s.mem (lineOf s.cfg pid.toNat page.toNat) w) = true

/-- A read of the page hits way `w`: way 0 before way 1 (R154). -/
def readHits (s : State) (pid page : Word) (w : Nat) : Prop :=
  (w = 0 ∧ wayAnswers s pid page 0) ∨ (w = 1 ∧ ¬wayAnswers s pid page 0 ∧ wayAnswers s pid page 1)

/-- The preference order of an insert into line `i` takes way `k` (43_tlb.md R156 (a), (b)). -/
def insertTakes (m : Memory) (i k : Nat) : Prop :=
  (k = 0 ∧ wayValid (wayWord m i 0) = false) ∨
    (k = 1 ∧ wayValid (wayWord m i 0) = true ∧ wayValid (wayWord m i 1) = false) ∨
    (k = 0 ∧ wayValid (wayWord m i 0) = true ∧ wayValid (wayWord m i 1) = true ∧
      wayRecency (wayWord m i 0) = false) ∨
    (k = 1 ∧ wayValid (wayWord m i 0) = true ∧ wayValid (wayWord m i 1) = true ∧
      wayRecency (wayWord m i 0) = true ∧ wayRecency (wayWord m i 1) = false)

/-- `n` steps. -/
def steps : Nat → State → Host.Outcome State Fault Refusal
  | 0, s => .next s
  | n + 1, s =>
    match step s with
    | .next t => steps n t
    | .fault r => .fault r
    | .refused r => .refused r

/-- Commands run one after the other: their responses and the last state. -/
def execAll : List Instr → State → Option (List Response × State)
  | [], s => some ([], s)
  | i :: rest, s =>
    match exec i s with
    | .next t => (execAll rest t).map fun r => (t.response :: r.1, r.2)
    | .fault _ => none
    | .refused _ => none

/-- Everything queued, in the order of 46_scheduler.md R218: by level, within a level from the front; each item with its
level. -/
def waiting (s : State) : List (Word × Nat) :=
  (List.range s.cfg.maxPrio).flatMap fun l => (levelAt s l).items.map fun x => (x, l)

/-- What one command with this response counts for `SLOT[l]` (46_scheduler.md R230): a put or an end of that level that
passed its checks, a get from that level. -/
def quotaDelta (l : Nat) (i : Instr) (r : Response) : Word :=
  match i with
  | .ptePack .. => 0
  | .vaOff .. => 0
  | .vaPgn .. => 0
  | .pteFpn .. => 0
  | .pteSwp .. => 0
  | .sumDec .. => 0
  | .pteUnpack .. => 0
  | .stRdb .. => 0
  | .stWrb .. => 0
  | .stRdw .. => 0
  | .stWrw .. => 0
  | .stDump => 0
  | .stBdump => 0
  | .tlbRd .. => 0
  | .tlbIns .. => 0
  | .tlbInv .. => 0
  | .tlbFlush .. => 0
  | .tlbInvall .. => 0
  | .schInit => 0
  | .schGet => if r.status = .ok ∧ r.res1.toNat = l then -1 else 0
  | .schPut _ prio => if (r.status = .ok ∨ r.status = .full) ∧ prio.toNat = l then 1 else 0
  | .schEnd _ prio _ _ _ => if r.status = .ok ∧ prio.toNat = l then 1 else 0
  | .schEmpty => 0
  | .schSlot .. => 0

/-- The statuses a command produces (60_exceptions.md R241; `BAD_OP` belongs to no command). -/
def statusesOf : Instr → List Status
  | .ptePack .. => [.ok]
  | .vaOff .. => [.ok]
  | .vaPgn .. => [.ok]
  | .pteFpn .. => [.ok]
  | .pteSwp .. => [.ok]
  | .sumDec .. => [.ok]
  | .pteUnpack .. => [.ok]
  | .stRdb .. => [.ok, .devErr]
  | .stWrb .. => [.ok, .devErr]
  | .stRdw .. => [.ok, .devErr]
  | .stWrw .. => [.ok, .devErr]
  | .stDump => [.ok]
  | .stBdump => [.ok]
  | .tlbRd .. => [.ok, .miss, .devErr, .badArg]
  | .tlbIns .. => [.ok, .novict, .devErr, .badArg]
  | .tlbInv .. => [.ok, .miss, .devErr, .badArg]
  | .tlbFlush .. => [.ok, .devErr, .badArg]
  | .tlbInvall .. => [.unimpl, .badArg]
  | .schInit => [.ok]
  | .schGet => [.ok, .empty]
  | .schPut .. => [.ok, .full, .badArg]
  | .schEnd .. => [.ok, .badArg]
  | .schEmpty => [.ok]
  | .schSlot .. => [.ok, .badArg]

end Sys2Proof.Machine
end

