-- ==== Sys2Proof/Certificates/Slice0/Obligations.lean ====
section
/-! DEFINITION. The statements about the model, for the provers. Each docstring names the rule of spec/ that the statement
formalises, or says that it rests on a choice of the model and names the log entry. -/

section
open Sys2Proof Sys2Proof.Machine

/-! Encoding (30_encoding.md). -/

/-- Decoding the encoding of any command gives the command back, every operand at every value (R88, R91, R92). -/
def Obligations.DecodeInvertsEncode : Prop := ∀ i : Instr, decode (encode i) = .ok i

/-- A record carries a command exactly when its `OP` is the command's and the operands that the command's format reads
are the command's; no other bit of the record matters (R91, R92, R93). -/
def Obligations.DecodeReadsOpAndOperandsOnly : Prop :=
  ∀ (r : BitVec 200) (i : Instr),
    decode r = .ok i ↔ recOp r = i.opcode ∧ ∀ k < i.format.operands, recArg r k = recArg (encode i) k

/-- An `OP` outside the map (R94, the four ranges of it) answers `BAD_OP` with every `RES` 0 and changes no state; the
response goes to the host that sent the record. -/
def Obligations.IllegalOpAnswersBadOp : Prop :=
  (∀ op : BitVec 8, legalOp op = false ↔
      (0x07 ≤ op.toNat ∧ op.toNat ≤ 0x0F) ∨ (0x16 ≤ op.toNat ∧ op.toNat ≤ 0x1F) ∨
        (0x25 ≤ op.toNat ∧ op.toNat ≤ 0x2F) ∨ 0x36 ≤ op.toNat) ∧
    ((List.range 256).countP fun n => !legalOp (BitVec.ofNat 8 n)) = 232 ∧
    ∀ (host : Nat) (r : BitVec 200) (s : State), legalOp (recOp r) = false →
      runCommand host r s = .next (deliver host (respond { status := .badOp } s))

/-- A few records written out in 95_test_vectors.md, one or more of each unit, decode to the commands they stand for. -/
def Obligations.SampleRecordsDecode : Prop :=
  decode 0x00000000030000200100000002000000020000002100000101#200 = .ok (.ptePack 3 0x2001 2 2 0x21 0x101) ∧
    decode 0x058C00502A0000000000000000000000000000000000000000#200 = .ok (.sumDec 0x8C00502A) ∧
    decode 0x1300000004DEADBEEF00000000000000000000000000000000#200 = .ok (.stWrw 4 0xDEADBEEF) ∧
    decode 0x2100000003000000058000002A000000000000000000000000#200 = .ok (.tlbIns 3 5 0x8000002A) ∧
    decode 0x33000000A00000000100000002000000000000000200000000#200 = .ok (.schEnd 0xA0 1 2 0 2)

/-- The 196-bit response: `STATUS` in bits 195:192, `RES0` in 191:160 down to `RES5` in 31:0 (R89); the nine codes of R90,
which tell the statuses apart, and exactly the three errors have bit 3 set. -/
def Obligations.ResponseRecordLayout : Prop :=
  (∀ r : Response,
    r.toBits.extractLsb' 192 4 = r.status.code ∧ r.toBits.extractLsb' 160 32 = r.res0 ∧
      r.toBits.extractLsb' 128 32 = r.res1 ∧ r.toBits.extractLsb' 96 32 = r.res2 ∧
      r.toBits.extractLsb' 64 32 = r.res3 ∧ r.toBits.extractLsb' 32 32 = r.res4 ∧
      r.toBits.extractLsb' 0 32 = r.res5) ∧
    (Status.code .ok = 0 ∧ Status.code .miss = 1 ∧ Status.code .novict = 2 ∧ Status.code .empty = 3 ∧
      Status.code .full = 4 ∧ Status.code .unimpl = 5 ∧ Status.code .devErr = 8 ∧ Status.code .badOp = 9 ∧
      Status.code .badArg = 10) ∧
    (∀ a b : Status, a.code = b.code → a = b) ∧
    ∀ a : Status, a.isError = true ↔ a = .devErr ∨ a = .badOp ∨ a = .badArg

/-! The step. -/

/-- When the next input is a host's record that carries a command, the step is that command's meaning, in the state
without that input, with the response delivered to the host. How a program comes to run is the model's choice (log 1). -/
def Obligations.StepRunsDecodedCommand : Prop :=
  ∀ (s : State) (host : Nat) (r : BitVec 200) (rest : List Input) (i : Instr),
    s.cfg.legal = true → s.inputs = .command host r :: rest → decode r = .ok i →
      step s = delivered host (exec i { s with inputs := rest }) ∧
        ∃ t, exec i { s with inputs := rest } = .next t ∧ step s = .next (deliver host t)

/-- The response to a record belongs to the host that sent it (10_state.md R22): its own registers hold the response, and
with no other host's step waiting (log 5) no other host's registers change. -/
def Obligations.ResponseGoesToItsHost : Prop :=
  ∀ (s t : State) (host : Nat) (r : BitVec 200) (rest : List Input),
    s.wf = true → s.inputs = .command host r :: rest → step s = .next t →
      hostResponse t host = t.response ∧
        (s.gaps = [] → ∀ other, other ≠ host → hostResponse t other = hostResponse s other)

/-- No command stops the block (60_exceptions.md R242, R249; 70_reset_and_hazards.md R273): every command answers a next
state. A step stops only in a machine whose configuration breaks 00_scope.md R9 (the model's choice, log 3). -/
def Obligations.NoCommandStopsTheBlock : Prop :=
  (∀ (i : Instr) (s : State), ∃ t, exec i s = .next t) ∧
    ∀ s : State,
      (s.cfg.legal = true → ∃ t, step s = .next t) ∧ (s.cfg.legal = false → step s = .fault .illegalConfiguration)

/-- Every step keeps the invariant: a legal configuration, the store canonical and inside `[0, CAP)`, every queue within
its capacity, the model's maps in order (10_state.md R24, R32; logs 1, 6, 7 for the maps). -/
def Obligations.StepKeepsInvariant : Prop :=
  ∀ s t : State, s.wf = true → step s = .next t → t.wf = true

/-- The reset state of every legal configuration meets the invariant. -/
def Obligations.ResetHasInvariant : Prop :=
  State.reset.wf = true ∧ ∀ c : Config, c.legal = true → (State.resetOf c).wf = true

/-- A command changes neither the configuration (00_scope.md R9), nor the page directory (10_state.md R28, R39), nor the
Façade's counters (R38, 44_facade.md R186), nor what is still to arrive; no step changes the configuration. -/
def Obligations.CommandsLeaveTheOutsideAlone : Prop :=
  (∀ (i : Instr) (s t : State), exec i s = .next t →
      t.cfg = s.cfg ∧ t.pgd = s.pgd ∧ t.stats = s.stats ∧ t.freeCount = s.freeCount ∧ t.inputs = s.inputs) ∧
    ∀ s t : State, step s = .next t → t.cfg = s.cfg

/-- A write of the external layer changes one page-directory entry and nothing else (10_state.md R28, R39); a cached copy
goes stale: a read of the TLB answers as before and changes the store as before (70_reset_and_hazards.md R275). The
directory as an input is the model's form (log 7). -/
def Obligations.DirectoryWriteLeavesShadowEntriesStale : Prop :=
  ∀ (s : State) (pid : Nat) (page : BitVec 14) (pte : Word) (rest : List Input),
    s.wf = true → s.inputs = .setPte pid page pte :: rest →
      ∃ t, step s = .next t ∧ t = { s with inputs := rest, pgd := t.pgd } ∧ pgdRead t pid page.toNat = pte ∧
        (∀ (pid' : Nat) (page' : BitVec 14), (pid', page') ≠ (pid, page) →
          pgdRead t pid' page'.toNat = pgdRead s pid' page'.toNat) ∧
        ∀ (p q : Word), ∃ u v, exec (.tlbRd p q) s = .next u ∧ exec (.tlbRd p q) t = .next v ∧
          v.response = u.response ∧ v.mem = u.mem

/-! Reset (10_state.md R41, 70_reset_and_hazards.md R270, R271). -/

/-- After reset every byte is 0, every way is invalid with zero recency, tag and entry, `FLAGS` is 0, every queue is
empty with its initial quota, every counter of the Façade is 0 (R41); a read of any page answers `MISS` and the scheduler
says that it is empty (R271). In a legal configuration the default quota of an unlisted level is the number `MAX_PRIO - l`,
which fits in 32 bits signed (00_scope.md R9; that an unlisted level takes it is the model's choice, log 2). -/
def Obligations.ResetStateIsAllClear : Prop :=
  ∀ (c : Config) (s : State), s = State.resetOf c →
    (∀ a, memByte s.mem a = 0) ∧
      (∀ i w, wayValid (wayWord s.mem i w) = false ∧ wayRecency (wayWord s.mem i w) = false ∧
        wayTag (wayWord s.mem i w) = 0 ∧ wayPte s.mem i w = 0) ∧
      devErrFlag s.flags = false ∧ qFullFlag s.flags = false ∧ s.levels.length = c.maxPrio ∧
      (∀ l < c.maxPrio, (levelAt s l).items = [] ∧ (levelAt s l).slot = c.quotaInit l) ∧
      (∀ pid, statsOf s pid = { hit := 0, miss := 0 }) ∧
      (∀ pid page, pageOperandsOk c pid page → exec (.tlbRd pid page) s = .next (respond { status := .miss } s)) ∧
      exec .schEmpty s = .next (respond { status := .ok, res0 := 1 } s) ∧
      (c.legal = true → ∀ l < c.maxPrio, c.slotInit.length ≤ l → (levelAt s l).slot.toInt = c.maxPrio - l)

/-- The reset event leaves the block as after creation (R270). What it keeps is outside the block: the hosts' registers,
the events already emitted, the page directory, the inputs still to come (the model's choice, log 9). -/
def Obligations.ResetEventRestoresTheResetState : Prop :=
  ∀ (s : State) (rest : List Input), s.cfg.legal = true → s.inputs = .reset :: rest →
    step s = .next
      { State.resetOf s.cfg with
        hosts := s.hosts, events := s.events, pgd := s.pgd, freeCount := s.freeCount, inputs := rest, gaps := s.gaps }

/-! Codec (41_codec.md). -/

/-- `PTE.PACK` (R110): `present`, `swapped` and `dirty` truncated to one bit at 31, 30 and 28, below them the truncated
frame when present, else the two truncated swap fields; nothing else of the word is set and no state changes. -/
def Obligations.PtePackPlacesEachField : Prop :=
  ∀ (present frame dirty swapped swapType swapOff : Word) (s : State), s.cfg.legal = true →
    carriedBy 0x00 [present, frame, dirty, swapped, swapType, swapOff]
        (.ptePack present frame dirty swapped swapType swapOff) ∧
      ∃ pte : Word,
        exec (.ptePack present frame dirty swapped swapType swapOff) s =
            .next (respond { status := .ok, res0 := pte } s) ∧
          pte.toNat =
            present.toNat % 2 * 2 ^ 31 + swapped.toNat % 2 * 2 ^ 30 + dirty.toNat % 2 * 2 ^ 28 +
              if present.toNat % 2 = 1 then frame.toNat % 2 ^ 13
              else
                swapOff.toNat % 2 ^ s.cfg.swpOffW * 2 ^ s.cfg.swpOffLo +
                  swapType.toNat % 2 ^ s.cfg.swpTypW * 2 ^ s.cfg.swpTypLo

/-- `VA.OFF` (R111) answers the low 8 bits of the address and `VA.PGN` (R112) the 14 bits above them; bits 31:22 do not
matter and no state changes. -/
def Obligations.VirtualAddressFields : Prop :=
  ∀ (addr : Word) (s : State),
    carriedBy 0x01 [addr] (.vaOff addr) ∧ carriedBy 0x02 [addr] (.vaPgn addr) ∧
      ∃ off pgn : Word,
        exec (.vaOff addr) s = .next (respond { status := .ok, res0 := off } s) ∧ off.toNat = addr.toNat % 2 ^ 8 ∧
          exec (.vaPgn addr) s = .next (respond { status := .ok, res0 := pgn } s) ∧
          pgn.toNat = addr.toNat / 2 ^ 8 % 2 ^ 14

/-- `PTE.FPN` (R113) answers bits 12:0 and `PTE.SWP` (R114) the swap-offset field; `present` and `swapped` are not looked
at and no state changes. -/
def Obligations.PteFrameAndSwapSlot : Prop :=
  ∀ (pte : Word) (s : State), s.cfg.legal = true →
    carriedBy 0x03 [pte] (.pteFpn pte) ∧ carriedBy 0x04 [pte] (.pteSwp pte) ∧
      ∃ frame slot : Word,
        exec (.pteFpn pte) s = .next (respond { status := .ok, res0 := frame } s) ∧
          frame.toNat = pte.toNat % 2 ^ 13 ∧
          exec (.pteSwp pte) s = .next (respond { status := .ok, res0 := slot } s) ∧
          slot.toNat = pte.toNat / 2 ^ s.cfg.swpOffLo % 2 ^ s.cfg.swpOffW

/-- `SUM.DEC` (R115) cuts the 32-bit summary word into 1, 5, 14 and 12 bits, most significant first; no state changes. -/
def Obligations.SummaryWordFields : Prop :=
  ∀ (word : Word) (s : State),
    carriedBy 0x05 [word] (.sumDec word) ∧
      ∃ valid pid page frame : Word,
        exec (.sumDec word) s =
            .next (respond { status := .ok, res0 := valid, res1 := pid, res2 := page, res3 := frame } s) ∧
          valid.toNat = word.toNat / 2 ^ 31 ∧ pid.toNat = word.toNat / 2 ^ 26 % 2 ^ 5 ∧
          page.toNat = word.toNat / 2 ^ 12 % 2 ^ 14 ∧ frame.toNat = word.toNat % 2 ^ 12

/-- `PTE.UNPACK` (R116) answers the raw slices in the order of `PTE.PACK`'s operands; no state changes. -/
def Obligations.PteUnpackFields : Prop :=
  ∀ (pte : Word) (s : State), s.cfg.legal = true →
    carriedBy 0x06 [pte] (.pteUnpack pte) ∧
      ∃ r : Response,
        exec (.pteUnpack pte) s = .next (respond r s) ∧ r.status = .ok ∧ r.res0.toNat = pte.toNat / 2 ^ 31 ∧
          r.res1.toNat = pte.toNat % 2 ^ 13 ∧ r.res2.toNat = pte.toNat / 2 ^ 28 % 2 ∧
          r.res3.toNat = pte.toNat / 2 ^ 30 % 2 ∧
          r.res4.toNat = pte.toNat / 2 ^ s.cfg.swpTypLo % 2 ^ s.cfg.swpTypW ∧
          r.res5.toNat = pte.toNat / 2 ^ s.cfg.swpOffLo % 2 ^ s.cfg.swpOffW

/-- The round-trip law (R117): operands within their widths, packed and unpacked, come back, the frame when present, the
swap fields when not; the unused bits are 0; and an address is its page number and its offset. -/
def Obligations.PackThenUnpackRoundTrip : Prop :=
  (∀ (present frame dirty swapped swapType swapOff : Word) (s : State), s.cfg.legal = true →
    present.toNat < 2 → dirty.toNat < 2 → swapped.toNat < 2 → frame.toNat < 2 ^ 13 →
    swapType.toNat < 2 ^ s.cfg.swpTypW → swapOff.toNat < 2 ^ s.cfg.swpOffW →
    ∃ (x : Word) (r : Response),
      exec (.ptePack present frame dirty swapped swapType swapOff) s =
          .next (respond { status := .ok, res0 := x } s) ∧
        exec (.pteUnpack x) s = .next (respond r s) ∧ r.res0 = present ∧ r.res2 = dirty ∧ r.res3 = swapped ∧
        (present = 1 → r.res1 = frame ∧ exec (.pteFpn x) s = .next (respond { status := .ok, res0 := frame } s)) ∧
        (present = 0 → r.res4 = swapType ∧ r.res5 = swapOff ∧
          exec (.pteSwp x) s = .next (respond { status := .ok, res0 := swapOff } s)) ∧
        x.getLsbD 29 = false ∧ ∀ b, 13 ≤ b → b ≤ 27 → x.getLsbD b = false) ∧
    ∀ (addr : Word) (s : State), addr.toNat < 2 ^ 22 →
      ∃ off pgn : Word,
        exec (.vaOff addr) s = .next (respond { status := .ok, res0 := off } s) ∧
          exec (.vaPgn addr) s = .next (respond { status := .ok, res0 := pgn } s) ∧ (pgn <<< 8) ||| off = addr

/-- A Codec command answers `OK`, reads and writes no state, and so commutes with any other command: it gives the same
response before and after it, and the other command does the same before and after it (R118). -/
def Obligations.CodecTouchesNoState : Prop :=
  ∀ (i : Instr) (s : State), unitOf i = 0 →
    ∃ r : Response, r.status = .ok ∧
      (∀ s' : State, s'.cfg = s.cfg → exec i s' = .next (respond r s')) ∧
      ∀ (j : Instr) (t : State), exec j s = .next t →
        exec i t = .next (respond r t) ∧ exec j (respond r s) = .next t

/-- No command reads an earlier response (10_state.md R22). -/
def Obligations.NoCommandReadsTheResponse : Prop :=
  ∀ (i : Instr) (r : Response) (s : State), exec i (respond r s) = exec i s

/-! Byte Store (42_bytestore.md, 20_memory.md). -/

/-- `ST.RDB` (R130, R52): the byte, or `DEV_ERR` with the address when it is not below `CAP`; nothing else changes but
`FLAGS.DEVERR` on the error. -/
def Obligations.ReadByte : Prop :=
  ∀ (addr : Word) (s : State),
    carriedBy 0x10 [addr] (.stRdb addr) ∧
      (addr.toNat < s.cfg.cap →
        exec (.stRdb addr) s =
          .next { s with response := { status := .ok, res0 := (memByte s.mem addr.toNat).setWidth 32 } }) ∧
      (s.cfg.cap ≤ addr.toNat →
        exec (.stRdb addr) s =
          .next { s with flags := s.flags ||| 1, response := { status := .devErr, res0 := addr } })

/-- `ST.WRB` (R131, R53): the low byte of the value is stored at the address and no other byte changes, or `DEV_ERR`. -/
def Obligations.WriteByte : Prop :=
  ∀ (addr value : Word) (s : State), Memory.wf s.mem = true →
    carriedBy 0x11 [addr, value] (.stWrb addr value) ∧
      (addr.toNat < s.cfg.cap →
        ∃ m, exec (.stWrb addr value) s = .next { s with mem := m, response := { status := .ok } } ∧
          memByte m addr.toNat = value.extractLsb' 0 8 ∧ ∀ a, a ≠ addr.toNat → memByte m a = memByte s.mem a) ∧
      (s.cfg.cap ≤ addr.toNat →
        exec (.stWrb addr value) s =
          .next { s with flags := s.flags ||| 1, response := { status := .devErr, res0 := addr } })

/-- `ST.RDW` (R132, R54): the four bytes, the first the most significant, at any alignment; or `DEV_ERR` with the lowest
of the four addresses that is not below `CAP`, computed without wrap. -/
def Obligations.ReadWord : Prop :=
  ∀ (addr : Word) (s : State), s.cfg.legal = true →
    carriedBy 0x12 [addr] (.stRdw addr) ∧
      (addr.toNat + 3 < s.cfg.cap →
        ∃ w : Word,
          exec (.stRdw addr) s = .next { s with response := { status := .ok, res0 := w } } ∧
            w.toNat =
              (memByte s.mem addr.toNat).toNat * 2 ^ 24 + (memByte s.mem (addr.toNat + 1)).toNat * 2 ^ 16 +
                (memByte s.mem (addr.toNat + 2)).toNat * 2 ^ 8 + (memByte s.mem (addr.toNat + 3)).toNat) ∧
      (s.cfg.cap ≤ addr.toNat + 3 →
        ∃ a : Word,
          exec (.stRdw addr) s =
              .next { s with flags := s.flags ||| 1, response := { status := .devErr, res0 := a } } ∧
            addr.toNat ≤ a.toNat ∧ a.toNat ≤ addr.toNat + 3 ∧ s.cfg.cap ≤ a.toNat ∧
            ∀ b, addr.toNat ≤ b → s.cfg.cap ≤ b → a.toNat ≤ b)

/-- `ST.WRW` (R133, R55): the four bytes of the value, the most significant first, and no other byte; or `DEV_ERR` as
`ST.RDW` and no byte written. -/
def Obligations.WriteWord : Prop :=
  ∀ (addr value : Word) (s : State), s.cfg.legal = true → Memory.wf s.mem = true →
    carriedBy 0x13 [addr, value] (.stWrw addr value) ∧
      (addr.toNat + 3 < s.cfg.cap →
        ∃ m, exec (.stWrw addr value) s = .next { s with mem := m, response := { status := .ok } } ∧
          memByte m addr.toNat = value.extractLsb' 24 8 ∧ memByte m (addr.toNat + 1) = value.extractLsb' 16 8 ∧
          memByte m (addr.toNat + 2) = value.extractLsb' 8 8 ∧ memByte m (addr.toNat + 3) = value.extractLsb' 0 8 ∧
          ∀ a, a < addr.toNat ∨ addr.toNat + 4 ≤ a → memByte m a = memByte s.mem a) ∧
      (s.cfg.cap ≤ addr.toNat + 3 →
        ∃ a : Word,
          exec (.stWrw addr value) s =
              .next { s with flags := s.flags ||| 1, response := { status := .devErr, res0 := a } } ∧
            addr.toNat ≤ a.toNat ∧ a.toNat ≤ addr.toNat + 3 ∧ s.cfg.cap ≤ a.toNat ∧
            ∀ b, addr.toNat ≤ b → s.cfg.cap ≤ b → a.toNat ≤ b)

/-- `ST.DUMP` (R134) and `ST.BDUMP` (R135): `OK`, no result, no state change. -/
def Obligations.DumpsDoNothing : Prop :=
  ∀ s : State,
    carriedBy 0x14 [] .stDump ∧ exec .stDump s = .next (respond { status := .ok } s) ∧
      carriedBy 0x15 [] .stBdump ∧ exec .stBdump s = .next (respond { status := .ok } s)

/-- A word written is the word read back, its byte `k` counted from the most significant end is the byte read at
`addr + k`, and a byte read elsewhere answers as before the write (20_memory.md R51, R58). -/
def Obligations.WordWriteThenReads : Prop :=
  ∀ (addr v : Word) (s : State), s.cfg.legal = true → Memory.wf s.mem = true → addr.toNat + 3 < s.cfg.cap →
    ∃ t, exec (.stWrw addr v) s = .next t ∧
      exec (.stRdw addr) t = .next (respond { status := .ok, res0 := v } t) ∧
      (∀ k < 4, exec (.stRdb (addr + BitVec.ofNat 32 k)) t =
        .next (respond { status := .ok, res0 := (v.extractLsb' (24 - 8 * k) 8).setWidth 32 } t)) ∧
      ∀ b : Word, b.toNat < addr.toNat ∨ addr.toNat + 4 ≤ b.toNat →
        ∃ u u', exec (.stRdb b) s = .next u ∧ exec (.stRdb b) t = .next u' ∧ u'.response = u.response

/-! TLB Cache Engine (43_tlb.md). -/

/-- The operand checks (R150, R165, R170) in the order of 60_exceptions.md R247: process id, then page or page bounds, then
the line; a refused command changes nothing but, for `DEV_ERR`, `FLAGS.DEVERR`. A page that passes has its line inside the
store. -/
def Obligations.TlbChecksInOrder : Prop :=
  ∀ (pid page pte lo hi : Word) (s : State),
    (2 ^ s.cfg.pidW ≤ pid.toNat →
      ∀ i ∈ [Instr.tlbRd pid page, .tlbIns pid page pte, .tlbInv pid page, .tlbFlush pid lo hi, .tlbInvall pid],
        exec i s = .next (respond { status := .badArg, res0 := 0 } s)) ∧
      (pid.toNat < 2 ^ s.cfg.pidW → 2 ^ 14 ≤ page.toNat →
        ∀ i ∈ [Instr.tlbRd pid page, .tlbIns pid page pte, .tlbInv pid page],
          exec i s = .next (respond { status := .badArg, res0 := 1 } s)) ∧
      (pid.toNat < 2 ^ s.cfg.pidW → 2 ^ 14 < lo.toNat →
        exec (.tlbFlush pid lo hi) s = .next (respond { status := .badArg, res0 := 1 } s)) ∧
      (pid.toNat < 2 ^ s.cfg.pidW → lo.toNat ≤ 2 ^ 14 → 2 ^ 14 < hi.toNat →
        exec (.tlbFlush pid lo hi) s = .next (respond { status := .badArg, res0 := 2 } s)) ∧
      (pid.toNat < 2 ^ s.cfg.pidW → page.toNat < 2 ^ 14 → s.cfg.cap < 16 →
        ∀ i ∈ [Instr.tlbRd pid page, .tlbIns pid page pte, .tlbInv pid page],
          exec i s = .next { s with
            flags := s.flags ||| 1, response := { status := .devErr, res0 := BitVec.ofNat 32 s.cfg.cap } }) ∧
      (pid.toNat < 2 ^ s.cfg.pidW → lo.toNat ≤ 2 ^ 14 → hi.toNat ≤ 2 ^ 14 → s.cfg.cap < 16 →
        exec (.tlbFlush pid lo hi) s = .next { s with
          flags := s.flags ||| 1, response := { status := .devErr, res0 := BitVec.ofNat 32 s.cfg.cap } }) ∧
      (16 ≤ s.cfg.cap → 16 * lineOf s.cfg pid.toNat page.toNat + 15 < s.cfg.cap)

/-- `TLB.RD` (R154, R155): a hit answers the frame of the way it hits, marks that way's recency and clears the sibling's,
and changes no other bit of the store; a miss answers `MISS` and changes nothing. -/
def Obligations.TlbReadHitOrMiss : Prop :=
  ∀ (pid page : Word) (s : State), Memory.wf s.mem = true → pageOperandsOk s.cfg pid page →
    carriedBy 0x20 [pid, page] (.tlbRd pid page) ∧
      (∀ w, readHits s pid page w →
        ∃ m,
          exec (.tlbRd pid page) s =
              .next { s with
                mem := m
                response :=
                  { status := .ok
                    res0 := (pteFrame (wayPte s.mem (lineOf s.cfg pid.toNat page.toNat) w)).setWidth 32 } } ∧
            wayWord m (lineOf s.cfg pid.toNat page.toNat) w =
              wayWord s.mem (lineOf s.cfg pid.toNat page.toNat) w ||| 0x40000000 ∧
            wayWord m (lineOf s.cfg pid.toNat page.toNat) (1 - w) =
              wayWord s.mem (lineOf s.cfg pid.toNat page.toNat) (1 - w) &&& 0xBFFFFFFF ∧
            ∀ a, a ≠ 16 * lineOf s.cfg pid.toNat page.toNat → a ≠ 16 * lineOf s.cfg pid.toNat page.toNat + 8 →
              memByte m a = memByte s.mem a) ∧
      ((∀ w, ¬readHits s pid page w) → exec (.tlbRd pid page) s = .next (respond { status := .miss } s))

/-- `TLB.INS` (R156): the way that the preference order takes gets valid 1, recency 1, the tag and the entry, the
sibling's recency becomes 0, no other bit of the store changes, and the answer is the entry's frame number; with no way
to take, `NOVICT` and no change. -/
def Obligations.TlbInsertFillsTheVictim : Prop :=
  ∀ (pid page pte : Word) (s : State), Memory.wf s.mem = true → pageOperandsOk s.cfg pid page →
    carriedBy 0x21 [pid, page, pte] (.tlbIns pid page pte) ∧
      (∀ k, insertTakes s.mem (lineOf s.cfg pid.toNat page.toNat) k →
        ∃ m,
          exec (.tlbIns pid page pte) s =
              .next { s with mem := m, response := { status := .ok, res0 := (pteFrame pte).setWidth 32 } } ∧
            wayWord m (lineOf s.cfg pid.toNat page.toNat) k =
              0xC0000000 ||| (tag pid.toNat page.toNat).setWidth 32 ∧
            wayPte m (lineOf s.cfg pid.toNat page.toNat) k = pte ∧
            wayWord m (lineOf s.cfg pid.toNat page.toNat) (1 - k) =
              wayWord s.mem (lineOf s.cfg pid.toNat page.toNat) (1 - k) &&& 0xBFFFFFFF ∧
            ∀ a,
              a < wayAddr (lineOf s.cfg pid.toNat page.toNat) k ∨
                  wayAddr (lineOf s.cfg pid.toNat page.toNat) k + 8 ≤ a →
                a ≠ wayAddr (lineOf s.cfg pid.toNat page.toNat) (1 - k) → memByte m a = memByte s.mem a) ∧
      ((∀ k, ¬insertTakes s.mem (lineOf s.cfg pid.toNat page.toNat) k) →
        exec (.tlbIns pid page pte) s = .next (respond { status := .novict } s))

/-- `TLB.INV` (R160, R161): both words of every way of the line whose tag field is the page's, valid or not, become 0;
nothing else of the store changes; the answer says whether there was one. -/
def Obligations.TlbInvalidateClearsTheTag : Prop :=
  ∀ (pid page : Word) (s : State), Memory.wf s.mem = true → pageOperandsOk s.cfg pid page →
    carriedBy 0x22 [pid, page] (.tlbInv pid page) ∧
      ∃ m st,
        exec (.tlbInv pid page) s = .next { s with mem := m, response := { status := st } } ∧
          ((∃ w < 2, wayTag (wayWord s.mem (lineOf s.cfg pid.toNat page.toNat) w) = tag pid.toNat page.toNat) →
            st = .ok) ∧
          ((∀ w < 2, wayTag (wayWord s.mem (lineOf s.cfg pid.toNat page.toNat) w) ≠ tag pid.toNat page.toNat) →
            st = .miss) ∧
          (∀ w < 2, wayTag (wayWord s.mem (lineOf s.cfg pid.toNat page.toNat) w) = tag pid.toNat page.toNat →
            wayWord m (lineOf s.cfg pid.toNat page.toNat) w = 0 ∧
              wayPte m (lineOf s.cfg pid.toNat page.toNat) w = 0) ∧
          ∀ a,
            (∀ w < 2, wayTag (wayWord s.mem (lineOf s.cfg pid.toNat page.toNat) w) = tag pid.toNat page.toNat →
              a < wayAddr (lineOf s.cfg pid.toNat page.toNat) w ∨
                wayAddr (lineOf s.cfg pid.toNat page.toNat) w + 8 ≤ a) →
              memByte m a = memByte s.mem a

/-- `TLB.INVALL` (R170) does nothing and says so, in a store without a line too; only the process id is checked. -/
def Obligations.InvalidateAllIsAPlaceholder : Prop :=
  ∀ (pid : Word) (s : State),
    carriedBy 0x24 [pid] (.tlbInvall pid) ∧
      (2 ^ s.cfg.pidW ≤ pid.toNat →
        exec (.tlbInvall pid) s = .next (respond { status := .badArg, res0 := 0 } s)) ∧
      (pid.toNat < 2 ^ s.cfg.pidW → exec (.tlbInvall pid) s = .next (respond { status := .unimpl } s))

/-- `TLB.FLUSH` (R165) with no other host's step waiting: exactly the ways whose tag and line are those of a page of
`[lo, hi)` become all zero; every other way and every byte outside the lines stays. -/
def Obligations.FlushClearsExactlyItsPages : Prop :=
  ∀ (pid lo hi : Word) (s : State), Memory.wf s.mem = true → pid.toNat < 2 ^ s.cfg.pidW → lo.toNat ≤ 2 ^ 14 →
    hi.toNat ≤ 2 ^ 14 → 16 ≤ s.cfg.cap → s.gaps = [] →
    carriedBy 0x23 [pid, lo, hi] (.tlbFlush pid lo hi) ∧
      ∃ m,
        exec (.tlbFlush pid lo hi) s = .next { s with mem := m, response := { status := .ok } } ∧
          (∀ i, ∀ w < 2,
            (∃ p, lo.toNat ≤ p ∧ p < hi.toNat ∧ lineOf s.cfg pid.toNat p = i ∧
              wayTag (wayWord s.mem i w) = tag pid.toNat p) →
            wayWord m i w = 0 ∧ wayPte m i w = 0) ∧
          (∀ i, ∀ w < 2,
            (∀ p, lo.toNat ≤ p → p < hi.toNat → lineOf s.cfg pid.toNat p = i →
              wayTag (wayWord s.mem i w) ≠ tag pid.toNat p) →
            wayWord m i w = wayWord s.mem i w ∧ wayPte m i w = wayPte s.mem i w) ∧
          ∀ a, 16 * lines s.cfg ≤ a → memByte m a = memByte s.mem a

/-- `TLB.FLUSH` is one `TLB.INV` per page, ascending, with whatever other hosts do at the store unit between (R165, R167;
20_memory.md R66). That their steps are one list after each page, the last page included, is the model's choice
(log 5). -/
def Obligations.FlushIsPageByPage : Prop :=
  ∀ (pid lo hi : Word) (s : State), pid.toNat < 2 ^ s.cfg.pidW → lo.toNat ≤ 2 ^ 14 → hi.toNat ≤ 2 ^ 14 →
    16 ≤ s.cfg.cap →
    (hi.toNat ≤ lo.toNat → exec (.tlbFlush pid lo hi) s = .next (respond { status := .ok } s)) ∧
      (lo.toNat < hi.toNat →
        ∃ t, exec (.tlbInv pid lo) s = .next t ∧
          exec (.tlbFlush pid lo hi) s = exec (.tlbFlush pid (lo + 1) hi) (otherHosts t))

/-- What another host does between two pages of a flush is the command it issued, with its response (20_memory.md R62,
R66); or one page of its own flush, the store effect of `TLB.INV` when the operands pass their checks, nothing otherwise,
and no response; or that flush's end, the response `OK`. The form of the state is the model's (log 5). -/
def Obligations.OtherHostStepsAreCommands : Prop :=
  ∀ (h : Nat) (a v p q x : Word) (s : State),
    delivered h (exec (.stRdb a) s) = .next (otherHostStep s (h, .rdb a)) ∧
      delivered h (exec (.stWrb a v) s) = .next (otherHostStep s (h, .wrb a v)) ∧
      delivered h (exec (.stRdw a) s) = .next (otherHostStep s (h, .rdw a)) ∧
      delivered h (exec (.stWrw a v) s) = .next (otherHostStep s (h, .wrw a v)) ∧
      delivered h (exec .stDump s) = .next (otherHostStep s (h, .dump)) ∧
      delivered h (exec .stBdump s) = .next (otherHostStep s (h, .bdump)) ∧
      delivered h (exec (.tlbRd p q) s) = .next (otherHostStep s (h, .rd p q)) ∧
      delivered h (exec (.tlbIns p q x) s) = .next (otherHostStep s (h, .ins p q x)) ∧
      delivered h (exec (.tlbInv p q) s) = .next (otherHostStep s (h, .inv p q)) ∧
      delivered h (exec (.tlbInvall p) s) = .next (otherHostStep s (h, .invall p)) ∧
      (pageOperandsOk s.cfg p q →
        ∃ t, exec (.tlbInv p q) s = .next t ∧ otherHostStep s (h, .flushPage p q) = { s with mem := t.mem }) ∧
      (¬pageOperandsOk s.cfg p q → otherHostStep s (h, .flushPage p q) = s) ∧
      otherHostStep s (h, .flushDone) = deliver h (respond { status := .ok } s)

/-- The line of a page (R151), the tag of a page (R152; 30_encoding.md R83), and that different pages of different
processes have different tags (R171). -/
def Obligations.LinesAndTags : Prop :=
  ∀ (c : Config) (pid page : Nat), c.legal = true → pid < 2 ^ c.pidW → page < 2 ^ 14 →
    (1 ≤ lines c → lineOf c pid page = (pid * 32 + page % 32) % (c.cap / 16) ∧ lineOf c pid page < lines c) ∧
      (tag pid page).toNat = pid * 2 ^ 14 + page ∧ (tag pid page).toNat < 2 ^ (14 + c.pidW) ∧
      ∀ pid' page', pid' < 2 ^ c.pidW → page' < 2 ^ 14 → tag pid' page' = tag pid page → pid' = pid ∧ page' = page

/-- "Insert→read hit" (R172): a page that no valid way held, inserted with a present entry, is read with its frame, and
the read changes nothing but the response. -/
def Obligations.InsertThenReadHits : Prop :=
  ∀ (pid page pte : Word) (s t : State), Memory.wf s.mem = true → pageOperandsOk s.cfg pid page →
    pageAbsent s pid page = true → ptePresent pte = true → exec (.tlbIns pid page pte) s = .next t →
    t.response.status = .ok →
      exec (.tlbRd pid page) t = .next (respond { status := .ok, res0 := (pteFrame pte).setWidth 32 } t)

/-- "Invalidate→read miss" (R172, 20_memory.md R70), duplicates and invalid ways with the tag included. -/
def Obligations.InvalidateThenReadMisses : Prop :=
  ∀ (pid page : Word) (s t : State), Memory.wf s.mem = true → pageOperandsOk s.cfg pid page →
    exec (.tlbInv pid page) s = .next t → exec (.tlbRd pid page) t = .next (respond { status := .miss } t)

/-- Least recently used: a page that a read has just hit survives the next insert of any other page, and is read with the
same answer (R155, R156, R171, R172). -/
def Obligations.PageJustReadSurvivesTheNextInsert : Prop :=
  ∀ (pid page pid' page' pte : Word) (s t u : State), s.cfg.legal = true → Memory.wf s.mem = true →
    pageOperandsOk s.cfg pid page → pageOperandsOk s.cfg pid' page' → ¬(pid' = pid ∧ page' = page) →
    exec (.tlbRd pid page) s = .next t → t.response.status = .ok → exec (.tlbIns pid' page' pte) t = .next u →
      ∃ v, exec (.tlbRd pid page) u = .next v ∧ v.response = t.response

/-- No command but a raw write puts recency 1 in both ways of a line (10_state.md R27; R157, 70_reset_and_hazards.md R279),
provided the other hosts' steps inside a flush hold no raw write either; and that proviso stays. -/
def Obligations.RecencyStaysRegular : Prop :=
  ∀ (i : Instr) (s t : State), Memory.wf s.mem = true → regularLines s → gapsWithoutRawWrites s = true →
    rawWrite i = false → exec i s = .next t → regularLines t ∧ gapsWithoutRawWrites t = true

/-- From a state with regular lines, the reset state among them, an insert always finds a way: `NOVICT` arises from raw
writes only (R157). -/
def Obligations.InsertAlwaysFindsAWay : Prop :=
  (∀ c : Config, regularLines (State.resetOf c)) ∧
    ∀ (pid page pte : Word) (s : State), pageOperandsOk s.cfg pid page → regularLines s →
      ∃ t, exec (.tlbIns pid page pte) s = .next t ∧ t.response.status = .ok

/-- A page that reads `MISS` keeps reading `MISS` until an insert of that page or a raw write, by this host or by another
inside a flush (20_memory.md R70, R171). -/
def Obligations.OnlyInsertOrRawWriteMakesAPageHit : Prop :=
  ∀ (pid page : Word) (i : Instr) (s t : State), s.cfg.legal = true → Memory.wf s.mem = true →
    pageOperandsOk s.cfg pid page → gapsWithoutRawWrites s = true → gapsWithoutInsert pid page s = true →
    rawWrite i = false → insertsPage pid page i = false →
    exec (.tlbRd pid page) s = .next (respond { status := .miss } s) → exec i s = .next t →
      exec (.tlbRd pid page) t = .next (respond { status := .miss } t)

/-! MLQ Scheduler (46_scheduler.md). -/

/-- `SCH.INIT` (R216): every queue empty, every quota initial, `FLAGS.QFULL` 0, `FLAGS.DEVERR` left; nothing else
changes. -/
def Obligations.SchedulerInit : Prop :=
  ∀ s : State,
    carriedBy 0x30 [] .schInit ∧
      ∃ t, exec .schInit s = .next t ∧
        t = { s with levels := t.levels, flags := t.flags, response := { status := .ok } } ∧
        t.levels.length = s.cfg.maxPrio ∧
        (∀ l < s.cfg.maxPrio, levelAt t l = { items := [], slot := s.cfg.quotaInit l }) ∧
        qFullFlag t.flags = false ∧ devErrFlag t.flags = devErrFlag s.flags

/-- `SCH.GET` (R217): the front of the first level that has one, with that level's quota decremented whatever it is;
`EMPTY` and no change when no level has one. -/
def Obligations.SchedulerGet : Prop :=
  ∀ s : State, levelsOk s = true →
    carriedBy 0x31 [] .schGet ∧
      ((∀ l < s.cfg.maxPrio, (levelAt s l).items = []) → exec .schGet s = .next (respond { status := .empty } s)) ∧
      ∀ l x rest, l < s.cfg.maxPrio → (levelAt s l).items = x :: rest → (∀ l' < l, (levelAt s l').items = []) →
        ∃ t, exec .schGet s = .next t ∧
          t = { s with levels := t.levels, response := { status := .ok, res0 := x, res1 := BitVec.ofNat 32 l } } ∧
          levelAt t l = { items := rest, slot := (levelAt s l).slot - 1 } ∧
          ∀ l', l' ≠ l → levelAt t l' = levelAt s l'

/-- `SCH.PUT` (R219, R221): the reference joins the end of its level's queue when there is room, the quota is incremented
either way, and a full queue stays as it is with `FULL` and `FLAGS.QFULL`; a priority out of range is refused (R231). -/
def Obligations.SchedulerPut : Prop :=
  ∀ (proc prio : Word) (s : State), levelsOk s = true →
    carriedBy 0x32 [proc, prio] (.schPut proc prio) ∧
      (s.cfg.maxPrio ≤ prio.toNat →
        exec (.schPut proc prio) s = .next (respond { status := .badArg, res0 := 1 } s)) ∧
      (prio.toNat < s.cfg.maxPrio → (levelAt s prio.toNat).items.length < s.cfg.maxQueue →
        ∃ t, exec (.schPut proc prio) s = .next t ∧
          t = { s with levels := t.levels, response := { status := .ok } } ∧
          levelAt t prio.toNat =
            { items := (levelAt s prio.toNat).items ++ [proc], slot := (levelAt s prio.toNat).slot + 1 } ∧
          ∀ l, l ≠ prio.toNat → levelAt t l = levelAt s l) ∧
      (prio.toNat < s.cfg.maxPrio → (levelAt s prio.toNat).items.length = s.cfg.maxQueue →
        ∃ t, exec (.schPut proc prio) s = .next t ∧
          t = { s with levels := t.levels, flags := s.flags ||| 2, response := { status := .full } } ∧
          levelAt t prio.toNat =
            { items := (levelAt s prio.toNat).items, slot := (levelAt s prio.toNat).slot + 1 } ∧
          ∀ l, l ≠ prio.toNat → levelAt t l = levelAt s l)

/-- `SCH.END` (R222, R223): the first operand out of range is refused with no effect; else the level's quota is
incremented, the store is as after `TLB.FLUSH` of the range (untouched without a line), the reclaim events of the range's
pages follow in ascending order (a frame if present, else a slot if swapped, read in the page directory as it is), then
the release, and the answer counts both kinds. The record of events, the form of the directory and the other
hosts' steps inside the flush are the model's (logs 5, 7, 8). -/
def Obligations.SchedulerEnd : Prop :=
  ∀ (proc prio pid lo hi : Word) (s : State), levelsOk s = true →
    carriedBy 0x33 [proc, prio, pid, lo, hi] (.schEnd proc prio pid lo hi) ∧
      (s.cfg.maxPrio ≤ prio.toNat →
        exec (.schEnd proc prio pid lo hi) s = .next (respond { status := .badArg, res0 := 1 } s)) ∧
      (prio.toNat < s.cfg.maxPrio → 2 ^ s.cfg.pidW ≤ pid.toNat →
        exec (.schEnd proc prio pid lo hi) s = .next (respond { status := .badArg, res0 := 2 } s)) ∧
      (prio.toNat < s.cfg.maxPrio → pid.toNat < 2 ^ s.cfg.pidW → 2 ^ 14 < lo.toNat →
        exec (.schEnd proc prio pid lo hi) s = .next (respond { status := .badArg, res0 := 3 } s)) ∧
      (prio.toNat < s.cfg.maxPrio → pid.toNat < 2 ^ s.cfg.pidW → lo.toNat ≤ 2 ^ 14 → 2 ^ 14 < hi.toNat →
        exec (.schEnd proc prio pid lo hi) s = .next (respond { status := .badArg, res0 := 4 } s)) ∧
      (prio.toNat < s.cfg.maxPrio → pid.toNat < 2 ^ s.cfg.pidW → lo.toNat ≤ 2 ^ 14 → hi.toNat ≤ 2 ^ 14 →
        ∃ (f t : State) (es : List Event),
          (16 ≤ s.cfg.cap → exec (.tlbFlush pid lo hi) s = .next f) ∧ (s.cfg.cap < 16 → f = s) ∧
            es =
              (List.range' lo.toNat (hi.toNat - lo.toNat)).filterMap (fun p =>
                if (pgdRead s pid.toNat p).getLsbD 31 then some (.ramFree ((pgdRead s pid.toNat p).extractLsb' 0 13))
                else if (pgdRead s pid.toNat p).getLsbD 30 then some (.swapFree (pteSwapOff s.cfg (pgdRead s pid.toNat p)))
                else none) ∧
            exec (.schEnd proc prio pid lo hi) s = .next t ∧
            t =
              { f with
                levels := t.levels
                events := s.events ++ es ++ [.pcbRelease proc]
                response :=
                  { status := .ok
                    res0 := BitVec.ofNat 32 (es.countP Event.isRam)
                    res1 := BitVec.ofNat 32 (es.countP Event.isSwap) } } ∧
            levelAt t prio.toNat =
              { items := (levelAt s prio.toNat).items, slot := (levelAt s prio.toNat).slot + 1 } ∧
            ∀ l, l ≠ prio.toNat → levelAt t l = levelAt s l)

/-- `SCH.EMPTY` (R228) answers 1 exactly when every queue is empty, `SCH.SLOT` (R229) the quota of its level or a refusal
of a level out of range; neither changes any state. -/
def Obligations.SchedulerQueries : Prop :=
  ∀ (level : Word) (s : State),
    carriedBy 0x34 [] .schEmpty ∧ carriedBy 0x35 [level] (.schSlot level) ∧
      ((∀ l < s.cfg.maxPrio, (levelAt s l).items = []) →
        exec .schEmpty s = .next (respond { status := .ok, res0 := 1 } s)) ∧
      ((∃ l < s.cfg.maxPrio, (levelAt s l).items ≠ []) →
        exec .schEmpty s = .next (respond { status := .ok, res0 := 0 } s)) ∧
      (s.cfg.maxPrio ≤ level.toNat →
        exec (.schSlot level) s = .next (respond { status := .badArg, res0 := 0 } s)) ∧
      (level.toNat < s.cfg.maxPrio →
        exec (.schSlot level) s = .next (respond { status := .ok, res0 := (levelAt s level.toNat).slot } s))

/-- Strict priority and FIFO (R218, 45_queue.md R204): `n` gets in a row return the first `n` of everything queued, by
level ascending and within a level in order of arrival, each with its level, then `EMPTY`; what is left is the rest. -/
def Obligations.GetsDrainByLevelThenArrival : Prop :=
  ∀ (n : Nat) (s : State), levelsOk s = true →
    ∃ t,
      execAll (List.replicate n .schGet) s =
          some
            (((waiting s).take n).map
                (fun x => { status := .ok, res0 := x.1, res1 := BitVec.ofNat 32 x.2 : Response }) ++
              List.replicate (n - (waiting s).length) { status := .empty }, t) ∧
        waiting t = (waiting s).drop n

/-- The quota's account (R230): over any commands but `SCH.INIT`, every quota changes by the puts and ends of its level
that passed their checks less the gets from it, modulo `2^32`; `SCH.INIT` sets it to `SLOT_INIT`. -/
def Obligations.QuotaCountsPutsEndsAndGets : Prop :=
  (∀ (is : List Instr) (s t : State) (rs : List Response), levelsOk s = true → s.cfg.maxPrio ≤ 2 ^ 32 →
    Instr.schInit ∉ is → execAll is s = some (rs, t) →
    ∀ l < s.cfg.maxPrio,
      (levelAt t l).slot = (levelAt s l).slot + ((is.zip rs).map fun x => quotaDelta l x.1 x.2).sum) ∧
    ∀ s t : State, exec .schInit s = .next t → ∀ l < s.cfg.maxPrio, (levelAt t l).slot = s.cfg.quotaInit l

/-! Errors, flags, units (60_exceptions.md). -/

/-- Errors are precise (R253): `BAD_ARG`, `BAD_OP`, `MISS`, `NOVICT`, `EMPTY` and `UNIMPL` leave all state unchanged,
`DEV_ERR` all but `FLAGS.DEVERR`, and `FULL` has incremented one quota, set `FLAGS.QFULL` and left every queue. -/
def Obligations.ErrorsArePrecise : Prop :=
  (∀ (i : Instr) (s t : State), levelsOk s = true → exec i s = .next t →
    (t.response.status ∈ [Status.badArg, .badOp, .miss, .novict, .empty, .unimpl] → t = respond t.response s) ∧
      (t.response.status = .devErr → t = respond t.response { s with flags := s.flags ||| 1 }) ∧
      (t.response.status = .full →
        t = respond t.response { s with flags := s.flags ||| 2, levels := t.levels } ∧
          ∃ l < s.cfg.maxPrio, levelAt t l = { levelAt s l with slot := (levelAt s l).slot + 1 } ∧
            ∀ l', l' ≠ l → levelAt t l' = levelAt s l')) ∧
    ∀ (host : Nat) (r : BitVec 200) (s t : State), runCommand host r s = .next t → t.response.status = .badOp →
      t = deliver host (respond t.response s)

/-- `FLAGS` is sticky (R248, 10_state.md R29): `DEVERR` goes only with reset, `QFULL` only with reset and `SCH.INIT`; a
`DEV_ERR` and a `FULL` set their flag; with no other host's step waiting (log 5) nothing else does. -/
def Obligations.FlagsAreSticky : Prop :=
  (∀ (i : Instr) (s t : State), exec i s = .next t →
    (devErrFlag s.flags = true → devErrFlag t.flags = true) ∧
      (i ≠ .schInit → qFullFlag s.flags = true → qFullFlag t.flags = true) ∧
      (i = .schInit → qFullFlag t.flags = false) ∧
      (t.response.status = .devErr → devErrFlag t.flags = true) ∧
      (t.response.status = .full → qFullFlag t.flags = true) ∧
      (s.gaps = [] → t.response.status ≠ .devErr → devErrFlag t.flags = devErrFlag s.flags) ∧
      (i ≠ .schInit → t.response.status ≠ .full → qFullFlag t.flags = qFullFlag s.flags)) ∧
    ∀ (s t : State) (rest : List Input), s.inputs = .reset :: rest → step s = .next t →
      devErrFlag t.flags = false ∧ qFullFlag t.flags = false

/-- No command's result depends on `FLAGS` (10_state.md R29): with other flags a command does the same to everything
else. -/
def Obligations.NoResultDependsOnFlags : Prop :=
  ∀ (i : Instr) (f : BitVec 2) (s t : State), exec i s = .next t →
    ∃ f', exec i { s with flags := f } = .next { t with flags := f' }

/-- The status table (R241): which commands produce which status, and what the result registers hold with a status that
is not `OK`: all 0, but `RES0` with `DEV_ERR` and `BAD_ARG`. -/
def Obligations.StatusesOfEachCommand : Prop :=
  ∀ (i : Instr) (s t : State), exec i s = .next t →
    t.response.status ∈ statusesOf i ∧
      (t.response.status ≠ .ok →
        t.response.res1 = 0 ∧ t.response.res2 = 0 ∧ t.response.res3 = 0 ∧ t.response.res4 = 0 ∧ t.response.res5 = 0 ∧
          (t.response.status ≠ .devErr → t.response.status ≠ .badArg → t.response.res0 = 0))

/-- The units keep apart (46_scheduler.md R215, 60_exceptions.md R262): a command of the Codec or of the store unit leaves
the queues, the quotas, the reclaim port and `FLAGS.QFULL`; a scheduler command but `SCH.END` leaves the store,
`FLAGS.DEVERR` and the reclaim port. -/
def Obligations.UnitsKeepApart : Prop :=
  ∀ (i : Instr) (s t : State), exec i s = .next t →
    (unitOf i ≠ 3 → t.levels = s.levels ∧ t.events = s.events ∧ qFullFlag t.flags = qFullFlag s.flags) ∧
      (unitOf i = 3 → (∀ proc prio pid lo hi, i ≠ .schEnd proc prio pid lo hi) →
        t.mem = s.mem ∧ t.events = s.events ∧ t.hosts = s.hosts ∧ t.gaps = s.gaps ∧
          devErrFlag t.flags = devErrFlag s.flags)

/-- A scheduler command but `SCH.END` and a command of another unit may execute in either order (R262): each answers the
same, and the two orders leave the same state but for whose response stands in the port. -/
def Obligations.SchedulerAndStoreCommute : Prop :=
  ∀ (i j : Instr) (s a b c d : State), unitOf i = 3 → (∀ proc prio pid lo hi, i ≠ .schEnd proc prio pid lo hi) →
    unitOf j ≠ 3 → exec i s = .next a → exec j a = .next b → exec j s = .next c → exec i c = .next d →
      a.response = d.response ∧ c.response = b.response ∧ d = respond d.response b

/-! TLB Façade (44_facade.md): software around the block, as inputs (logs 1, 11). -/

/-- The statistics (R186): a counted lookup adds 1 to the process's hits when its status was `OK` and to its misses
otherwise, below the maximum that the spec leaves open (log 10); no other process's counters and nothing else of the
block changes; a created process starts at 0. -/
def Obligations.StatisticsCountLookups : Prop :=
  (∀ (s : State) (host pid : Nat) (rest : List Input), s.wf = true → s.inputs = .countLookup host pid :: rest →
    ∃ t, step s = .next t ∧ t = { s with inputs := rest, stats := t.stats, freeCount := t.freeCount } ∧
      (∀ pid', pid' ≠ pid → statsOf t pid' = statsOf s pid') ∧
      ((hostResponse s host).status = .ok → (statsOf s pid).hit ≠ 0xFFFFFFFF →
        statsOf t pid = { hit := (statsOf s pid).hit + 1, miss := (statsOf s pid).miss }) ∧
      ((hostResponse s host).status ≠ .ok → (statsOf s pid).miss ≠ 0xFFFFFFFF →
        statsOf t pid = { hit := (statsOf s pid).hit, miss := (statsOf s pid).miss + 1 })) ∧
    ∀ (s : State) (pid : Nat) (rest : List Input), s.wf = true → s.inputs = .createProcess pid :: rest →
      ∃ t, step s = .next t ∧ t = { s with inputs := rest, stats := t.stats } ∧
        statsOf t pid = { hit := 0, miss := 0 } ∧ ∀ pid', pid' ≠ pid → statsOf t pid' = statsOf s pid'

/-- "so subsequent reads hit" (R184): a Façade write of a page that the cache did not hold, then a Façade read of the same
address, with nothing in between: one miss and one hit are counted, and the read's lookup gave the frame of the page
directory. The sequences as inputs are the model's form (log 11). -/
def Obligations.WriteAfterMissMakesTheNextReadHit : Prop :=
  ∀ (s : State) (host : Nat) (pid addr : Word) (rest : List Input),
    s.wf = true → regularLines s → pid.toNat < 2 ^ s.cfg.pidW → 16 ≤ s.cfg.cap →
    pageAbsent s pid (vaPage addr) = true → ptePresent (pgdRead s pid.toNat (vaPage addr).toNat) = true →
    (statsOf s pid.toNat).hit ≠ 0xFFFFFFFF → (statsOf s pid.toNat).miss ≠ 0xFFFFFFFF →
    s.inputs = facWrite host pid addr [] true ++ facRead host pid addr [] ++ rest →
      ∃ t, steps 7 s = .next t ∧ t.inputs = rest ∧
        statsOf t pid.toNat =
          { hit := (statsOf s pid.toNat).hit + 1, miss := (statsOf s pid.toNat).miss + 1 } ∧
        hostResponse t host =
          { status := .ok, res0 := (pteFrame (pgdRead s pid.toNat (vaPage addr).toNat)).setWidth 32 }

/-- A Façade `free` is one `TLB.FLUSH` of the region's pages (R182): with nothing else in between it leaves the block as
that flush does, but for the response and the host's own registers. The pages of a byte range are `start[21:8]` to
`(stop - 1)[21:8]`, none when it is empty (R188, 43_tlb.md R166). A failed `alloc` issues nothing (R181). The sequences as
inputs are the model's form (log 11). -/
def Obligations.FreeIsOneFlush : Prop :=
  (∀ (s : State) (host : Nat) (pid start stop : Word) (rest : List Input),
    s.wf = true → s.gaps = [] → pid.toNat < 2 ^ s.cfg.pidW → 16 ≤ s.cfg.cap →
    s.inputs = facFree host pid start stop [] true ++ rest →
      ∃ t u, steps ((pageSpan start stop).2 - (pageSpan start stop).1) s = .next t ∧
        exec (.tlbFlush pid (BitVec.ofNat 32 (pageSpan start stop).1) (BitVec.ofNat 32 (pageSpan start stop).2)) s =
          .next u ∧
        t = { u with inputs := rest, response := t.response, hosts := t.hosts } ∧
        ∀ other, other ≠ host → hostResponse t other = hostResponse s other) ∧
    (∀ start stop : Word,
      (start.toNat < stop.toNat →
        pageSpan start stop = (start.toNat / 2 ^ 8 % 2 ^ 14, (stop.toNat - 1) / 2 ^ 8 % 2 ^ 14 + 1)) ∧
      (stop.toNat ≤ start.toNat → pages (pageSpan start stop).1 (pageSpan start stop).2 = [])) ∧
    ∀ (host : Nat) (pid : Word), facAlloc host pid none = []

/-- A Façade `alloc` that succeeds is one `TLB.INS` for each page of the range, ascending, with the page's directory entry
(R181, R188), its responses going to the host; `flush_of` and `invalidate_all` are one `TLB.INVALL` (R185). The sequences as
inputs are the model's form (log 11), the directory's too (log 7). -/
def Obligations.AllocInsertsEachPage : Prop :=
  (∀ (s : State) (host : Nat) (pid start stop : Word) (rest : List Input),
    s.wf = true → s.inputs = facAlloc host pid (some (start, stop)) ++ rest →
      ∃ (rs : List Response) (t u : State),
        steps ((pageSpan start stop).2 - (pageSpan start stop).1) s = .next t ∧
        execAll
            ((List.range' (pageSpan start stop).1 ((pageSpan start stop).2 - (pageSpan start stop).1)).map fun p =>
              .tlbIns pid (BitVec.ofNat 32 p) (pgdRead s pid.toNat p))
            { s with inputs := rest } =
          some (rs, u) ∧
        t = { u with hosts := t.hosts } ∧
        hostResponse t host = (rs.getLast?).getD (hostResponse s host) ∧
        ∀ other, other ≠ host → hostResponse t other = hostResponse s other) ∧
    ∀ (s : State) (host : Nat) (pid : Word) (rest : List Input),
      s.cfg.legal = true → s.inputs = facFlushOf host pid ++ rest →
        ∃ t, exec (.tlbInvall pid) { s with inputs := rest } = .next t ∧ step s = .next (deliver host t)

end
end

