-- ==== Sys2Proof/Laws/Layout.lean ====
section
/-! SUPPORT. The laws of the data-word layouts: a field as arithmetic and bit by bit, the fields of a way word after each
change the engine makes, the tag, the line. -/

namespace Sys2Proof.Machine

/-! Fields. -/

/-- A field, bit by bit. -/
theorem getLsbD_bits (v : Word) (lo w i : Nat) :
    (bits v lo w).getLsbD i = (decide (i < 32) && decide (i < w) && v.getLsbD (lo + i)) := by
  simp [bits, BitVec.getLsbD_setWidth, BitVec.getLsbD_extractLsb', Bool.and_assoc]

/-- A field as a number: `(v >> lo) mod 2^w` (00_scope.md R10). -/
theorem toNat_bits (v : Word) {lo w : Nat} (hw : w ≤ 32) : (bits v lo w).toNat = v.toNat / 2 ^ lo % 2 ^ w := by
  rw [bits, BitVec.toNat_setWidth, BitVec.extractLsb'_toNat, Nat.shiftRight_eq_div_pow]
  refine Nat.mod_eq_of_lt (lt_of_lt_of_le (Nat.mod_lt _ (Nat.two_pow_pos w)) (Nat.pow_le_pow_right (by decide) hw))

theorem bits_eq_ofNat (v : Word) {lo w : Nat} (hw : w ≤ 32) :
    bits v lo w = BitVec.ofNat 32 (v.toNat / 2 ^ lo % 2 ^ w) := by
  rw [← toNat_bits v hw, BitVec.ofNat_toNat, BitVec.setWidth_eq]

theorem pteFrame_zext (pte : Word) : (pteFrame pte).setWidth 32 = bits pte 0 13 := rfl

/-! Way words. -/

@[simp] theorem wayValid_zero : wayValid 0#32 = false := rfl
@[simp] theorem wayRecency_zero : wayRecency 0#32 = false := rfl
@[simp] theorem wayTag_zero : wayTag 0#32 = 0#30 := rfl
@[simp] theorem ptePresent_zero : ptePresent 0#32 = false := rfl

@[simp] theorem wayValid_markRecent (x : Word) : wayValid (markRecent x) = wayValid x := by
  simp [wayValid, markRecent]

@[simp] theorem wayRecency_markRecent (x : Word) : wayRecency (markRecent x) = true := by
  simp [wayRecency, markRecent]

@[simp] theorem wayTag_markRecent (x : Word) : wayTag (markRecent x) = wayTag x := by
  rw [wayTag, wayTag, markRecent, BitVec.extractLsb'_or]
  rw [show BitVec.extractLsb' 0 30 (0x40000000 : Word) = 0#30 from by decide, BitVec.or_zero]

@[simp] theorem wayValid_clearRecent (x : Word) : wayValid (clearRecent x) = wayValid x := by
  simp [wayValid, clearRecent]

@[simp] theorem wayRecency_clearRecent (x : Word) : wayRecency (clearRecent x) = false := by
  simp [wayRecency, clearRecent]

@[simp] theorem wayTag_clearRecent (x : Word) : wayTag (clearRecent x) = wayTag x := by
  rw [wayTag, wayTag, clearRecent, BitVec.extractLsb'_and]
  rw [show BitVec.extractLsb' 0 30 (0xBFFFFFFF : Word) = BitVec.allOnes 30 from by decide, BitVec.and_allOnes]

@[simp] theorem wayValid_filledWay (t : BitVec 30) : wayValid (filledWay t) = true := by
  simp [wayValid, filledWay]

@[simp] theorem wayRecency_filledWay (t : BitVec 30) : wayRecency (filledWay t) = true := by
  simp [wayRecency, filledWay]

@[simp] theorem wayTag_filledWay (t : BitVec 30) : wayTag (filledWay t) = t := by
  rw [wayTag, filledWay, BitVec.extractLsb'_or]
  rw [show BitVec.extractLsb' 0 30 (0xC0000000 : Word) = 0#30 from by decide, BitVec.zero_or]
  refine BitVec.eq_of_getLsbD_eq fun i hi => ?_
  simp [hi, show i < 32 by omega]

/-! The tag and the line. -/

/-- The tag of a page in range, as a number. -/
theorem toNat_tag {pid page : Nat} (hp : pid < 2 ^ 16) (hg : page < 2 ^ 14) :
    (tag pid page).toNat = pid * 2 ^ 14 + page := by
  rw [tag, BitVec.toNat_ofNat, ← Nat.shiftLeft_add_eq_or_of_lt hg, Nat.shiftLeft_eq, Nat.mod_eq_of_lt]
  omega

/-- Pages of processes in range have different tags (43_tlb.md R171). -/
theorem tag_inj {pid page pid' page' : Nat} (hp : pid < 2 ^ 16) (hg : page < 2 ^ 14) (hp' : pid' < 2 ^ 16)
    (hg' : page' < 2 ^ 14) (h : tag pid page = tag pid' page') : pid = pid' ∧ page = page' := by
  have e := congrArg BitVec.toNat h
  rw [toNat_tag hp hg, toNat_tag hp' hg'] at e
  omega

theorem lineOf_lt {c : Config} (h : 1 ≤ lines c) (pid page : Nat) : lineOf c pid page < lines c := Nat.mod_lt _ h

/-- The 16 bytes of a line lie in the store (43_tlb.md R150). -/
theorem line_inside {c : Config} {i : Nat} (h : i < lines c) : 16 * i + 16 ≤ c.cap := by
  simp only [lines] at h
  omega

/-- The pages of a half-open range. -/
theorem mem_pages {lo hi p : Nat} : p ∈ pages lo hi ↔ lo ≤ p ∧ p < hi := by
  simp only [pages, List.mem_range'_1]
  omega

theorem pages_cons {lo hi : Nat} (h : lo < hi) : pages lo hi = lo :: pages (lo + 1) hi := by
  simp only [pages]
  rw [show hi - lo = (hi - (lo + 1)) + 1 by omega, List.range'_succ]

theorem pages_nil {lo hi : Nat} (h : hi ≤ lo) : pages lo hi = [] := by
  simp [pages, Nat.sub_eq_zero_of_le h]

end Sys2Proof.Machine
end

