-- ==== Sys2Proof/Laws/State.lean ====
section
/-! SUPPORT. What each update of the state leaves and sets, one lemma for each field, so that no proof unfolds a record
update. -/

namespace Sys2Proof.Machine

section respond
variable (r : Response) (s : State)
@[simp] theorem respond_cfg : (respond r s).cfg = s.cfg := rfl
@[simp] theorem respond_mem : (respond r s).mem = s.mem := rfl
@[simp] theorem respond_flags : (respond r s).flags = s.flags := rfl
@[simp] theorem respond_levels : (respond r s).levels = s.levels := rfl
@[simp] theorem respond_response : (respond r s).response = r := rfl
@[simp] theorem respond_hosts : (respond r s).hosts = s.hosts := rfl
@[simp] theorem respond_events : (respond r s).events = s.events := rfl
@[simp] theorem respond_pgd : (respond r s).pgd = s.pgd := rfl
@[simp] theorem respond_stats : (respond r s).stats = s.stats := rfl
@[simp] theorem respond_freeCount : (respond r s).freeCount = s.freeCount := rfl
@[simp] theorem respond_inputs : (respond r s).inputs = s.inputs := rfl
@[simp] theorem respond_gaps : (respond r s).gaps = s.gaps := rfl
end respond

section raise
variable (e : CmdError) (s : State)
@[simp] theorem raise_cfg : (raise e s).cfg = s.cfg := by cases e <;> rfl
@[simp] theorem raise_mem : (raise e s).mem = s.mem := by cases e <;> rfl
@[simp] theorem raise_levels : (raise e s).levels = s.levels := by cases e <;> rfl
@[simp] theorem raise_hosts : (raise e s).hosts = s.hosts := by cases e <;> rfl
@[simp] theorem raise_events : (raise e s).events = s.events := by cases e <;> rfl
@[simp] theorem raise_pgd : (raise e s).pgd = s.pgd := by cases e <;> rfl
@[simp] theorem raise_stats : (raise e s).stats = s.stats := by cases e <;> rfl
@[simp] theorem raise_freeCount : (raise e s).freeCount = s.freeCount := by cases e <;> rfl
@[simp] theorem raise_inputs : (raise e s).inputs = s.inputs := by cases e <;> rfl
@[simp] theorem raise_gaps : (raise e s).gaps = s.gaps := by cases e <;> rfl
end raise

section deliver
variable (h : Nat) (s : State)
@[simp] theorem deliver_cfg : (deliver h s).cfg = s.cfg := rfl
@[simp] theorem deliver_mem : (deliver h s).mem = s.mem := rfl
@[simp] theorem deliver_flags : (deliver h s).flags = s.flags := rfl
@[simp] theorem deliver_levels : (deliver h s).levels = s.levels := rfl
@[simp] theorem deliver_response : (deliver h s).response = s.response := rfl
@[simp] theorem deliver_hosts : (deliver h s).hosts = update s.hosts h (some s.response) := rfl
@[simp] theorem deliver_events : (deliver h s).events = s.events := rfl
@[simp] theorem deliver_pgd : (deliver h s).pgd = s.pgd := rfl
@[simp] theorem deliver_stats : (deliver h s).stats = s.stats := rfl
@[simp] theorem deliver_freeCount : (deliver h s).freeCount = s.freeCount := rfl
@[simp] theorem deliver_inputs : (deliver h s).inputs = s.inputs := rfl
@[simp] theorem deliver_gaps : (deliver h s).gaps = s.gaps := rfl
end deliver

section emit
variable (es : List Event) (s : State)
@[simp] theorem emit_cfg : (emit es s).cfg = s.cfg := rfl
@[simp] theorem emit_mem : (emit es s).mem = s.mem := rfl
@[simp] theorem emit_flags : (emit es s).flags = s.flags := rfl
@[simp] theorem emit_levels : (emit es s).levels = s.levels := rfl
@[simp] theorem emit_response : (emit es s).response = s.response := rfl
@[simp] theorem emit_hosts : (emit es s).hosts = s.hosts := rfl
@[simp] theorem emit_events : (emit es s).events = s.events ++ es := rfl
@[simp] theorem emit_pgd : (emit es s).pgd = s.pgd := rfl
@[simp] theorem emit_stats : (emit es s).stats = s.stats := rfl
@[simp] theorem emit_freeCount : (emit es s).freeCount = s.freeCount := rfl
@[simp] theorem emit_inputs : (emit es s).inputs = s.inputs := rfl
@[simp] theorem emit_gaps : (emit es s).gaps = s.gaps := rfl
end emit

section setLevel
variable (l : Nat) (lv : Level) (s : State)
@[simp] theorem setLevel_cfg : (setLevel l lv s).cfg = s.cfg := rfl
@[simp] theorem setLevel_mem : (setLevel l lv s).mem = s.mem := rfl
@[simp] theorem setLevel_flags : (setLevel l lv s).flags = s.flags := rfl
@[simp] theorem setLevel_levels : (setLevel l lv s).levels = s.levels.set l lv := rfl
@[simp] theorem setLevel_response : (setLevel l lv s).response = s.response := rfl
@[simp] theorem setLevel_hosts : (setLevel l lv s).hosts = s.hosts := rfl
@[simp] theorem setLevel_events : (setLevel l lv s).events = s.events := rfl
@[simp] theorem setLevel_pgd : (setLevel l lv s).pgd = s.pgd := rfl
@[simp] theorem setLevel_stats : (setLevel l lv s).stats = s.stats := rfl
@[simp] theorem setLevel_freeCount : (setLevel l lv s).freeCount = s.freeCount := rfl
@[simp] theorem setLevel_inputs : (setLevel l lv s).inputs = s.inputs := rfl
@[simp] theorem setLevel_gaps : (setLevel l lv s).gaps = s.gaps := rfl
end setLevel

section addQuota
variable (l : Nat) (d : Word) (s : State)
@[simp] theorem addQuota_cfg : (addQuota l d s).cfg = s.cfg := rfl
@[simp] theorem addQuota_mem : (addQuota l d s).mem = s.mem := rfl
@[simp] theorem addQuota_flags : (addQuota l d s).flags = s.flags := rfl
@[simp] theorem addQuota_response : (addQuota l d s).response = s.response := rfl
@[simp] theorem addQuota_hosts : (addQuota l d s).hosts = s.hosts := rfl
@[simp] theorem addQuota_events : (addQuota l d s).events = s.events := rfl
@[simp] theorem addQuota_pgd : (addQuota l d s).pgd = s.pgd := rfl
@[simp] theorem addQuota_stats : (addQuota l d s).stats = s.stats := rfl
@[simp] theorem addQuota_freeCount : (addQuota l d s).freeCount = s.freeCount := rfl
@[simp] theorem addQuota_inputs : (addQuota l d s).inputs = s.inputs := rfl
@[simp] theorem addQuota_gaps : (addQuota l d s).gaps = s.gaps := rfl
end addQuota

section writePte
variable (pid : Nat) (page : BitVec 14) (pte : Word) (s : State)
@[simp] theorem writePte_cfg : (writePte pid page pte s).cfg = s.cfg := rfl
@[simp] theorem writePte_mem : (writePte pid page pte s).mem = s.mem := rfl
@[simp] theorem writePte_flags : (writePte pid page pte s).flags = s.flags := rfl
@[simp] theorem writePte_levels : (writePte pid page pte s).levels = s.levels := rfl
@[simp] theorem writePte_response : (writePte pid page pte s).response = s.response := rfl
@[simp] theorem writePte_hosts : (writePte pid page pte s).hosts = s.hosts := rfl
@[simp] theorem writePte_events : (writePte pid page pte s).events = s.events := rfl
@[simp] theorem writePte_pgd :
    (writePte pid page pte s).pgd = update s.pgd (pgdKey pid page.toNat) (some pte) := rfl
@[simp] theorem writePte_stats : (writePte pid page pte s).stats = s.stats := rfl
@[simp] theorem writePte_freeCount : (writePte pid page pte s).freeCount = s.freeCount := rfl
@[simp] theorem writePte_inputs : (writePte pid page pte s).inputs = s.inputs := rfl
@[simp] theorem writePte_gaps : (writePte pid page pte s).gaps = s.gaps := rfl
end writePte

section resetBlock
variable (s : State)
@[simp] theorem resetBlock_cfg : (resetBlock s).cfg = s.cfg := rfl
@[simp] theorem resetBlock_mem : (resetBlock s).mem = [] := rfl
@[simp] theorem resetBlock_flags : (resetBlock s).flags = 0 := rfl
@[simp] theorem resetBlock_levels : (resetBlock s).levels = initialLevels s.cfg := rfl
@[simp] theorem resetBlock_response : (resetBlock s).response = Response.initial := rfl
@[simp] theorem resetBlock_hosts : (resetBlock s).hosts = s.hosts := rfl
@[simp] theorem resetBlock_events : (resetBlock s).events = s.events := rfl
@[simp] theorem resetBlock_pgd : (resetBlock s).pgd = s.pgd := rfl
@[simp] theorem resetBlock_stats : (resetBlock s).stats = [] := rfl
@[simp] theorem resetBlock_freeCount : (resetBlock s).freeCount = s.freeCount := rfl
@[simp] theorem resetBlock_inputs : (resetBlock s).inputs = s.inputs := rfl
@[simp] theorem resetBlock_gaps : (resetBlock s).gaps = s.gaps := rfl
end resetBlock

end Sys2Proof.Machine
end

