-- ==== Sys2Proof/Laws/Memory.lean ====
section
/-! SUPPORT. The laws of the sparse maps and of the store: what a read gives after a write, that a write leaves every
other place alone, and that every operation keeps the canonical form. -/

namespace Sys2Proof.Machine

/-! Maps. -/

theorem rising_mono {α : Type} {lo lo' : Nat} {m : List (Nat × α)} (hl : lo' ≤ lo) (h : rising lo m = true) :
    rising lo' m = true := by
  cases m with
  | nil => rfl
  | cons c rest =>
    simp only [rising, Bool.and_eq_true, decide_eq_true_eq] at *
    exact ⟨by omega, h.2⟩

theorem lookup_none_below {α : Type} {lo a : Nat} {m : List (Nat × α)} (h : rising lo m = true) (ha : a < lo) :
    lookup m a = none := by
  induction m generalizing lo with
  | nil => rfl
  | cons c rest ih =>
    simp only [rising, Bool.and_eq_true, decide_eq_true_eq] at h
    simp only [lookup]
    rw [if_neg (by omega), ih h.2 (by omega)]

/-- After an update a key reads as what was put there. -/
theorem lookup_update_same {α : Type} {lo : Nat} {m : List (Nat × α)} (h : rising lo m = true) (a : Nat)
    (o : Option α) : lookup (update m a o) a = o := by
  induction m generalizing lo with
  | nil => cases o <;> simp [update, lookup]
  | cons c rest ih =>
    obtain ⟨k, w⟩ := c
    simp only [rising, Bool.and_eq_true, decide_eq_true_eq] at h
    simp only [update]
    split
    · cases o with
      | none =>
        simp only [lookup]
        rw [if_neg (by omega), lookup_none_below h.2 (by omega)]
      | some v => simp [lookup]
    · split
      · subst_vars
        cases o with
        | none => exact lookup_none_below h.2 (by omega)
        | some v => simp [lookup]
      · simp only [lookup]
        rw [if_neg ‹_›, ih h.2]

/-- An update leaves every other key as it was. -/
theorem lookup_update_ne {α : Type} (m : List (Nat × α)) {a b : Nat} (hab : b ≠ a) (o : Option α) :
    lookup (update m a o) b = lookup m b := by
  induction m with
  | nil => cases o <;> simp [update, lookup, hab]
  | cons c rest ih =>
    obtain ⟨k, w⟩ := c
    simp only [update]
    split
    · cases o <;> simp [lookup, hab]
    · split
      · subst_vars
        cases o <;> simp [lookup, hab]
      · simp [lookup, ih]

/-- An update keeps the keys rising. -/
theorem rising_update {α : Type} {lo : Nat} {m : List (Nat × α)} (h : rising lo m = true) {a : Nat} (ha : lo ≤ a)
    (o : Option α) : rising lo (update m a o) = true := by
  induction m generalizing lo with
  | nil => cases o <;> simp [update, rising, ha]
  | cons c rest ih =>
    obtain ⟨k, w⟩ := c
    simp only [rising, Bool.and_eq_true, decide_eq_true_eq] at h
    simp only [update]
    split
    · cases o with
      | none => simp [rising, h]
      | some v => simp only [rising, Bool.and_eq_true, decide_eq_true_eq]; exact ⟨ha, by omega, h.2⟩
    · split
      · subst_vars
        cases o with
        | none => exact rising_mono (by omega) h.2
        | some v => simp [rising, h]
      · simp only [rising, Bool.and_eq_true, decide_eq_true_eq]
        exact ⟨h.1, ih h.2 (by omega)⟩

/-- An updated map lists old entries and the new one. -/
theorem mem_update {α : Type} {m : List (Nat × α)} {a : Nat} {o : Option α} {c : Nat × α} (h : c ∈ update m a o) :
    c ∈ m ∨ ∃ v, o = some v ∧ c = (a, v) := by
  induction m with
  | nil => cases o <;> simp_all [update]
  | cons d rest ih =>
    obtain ⟨k, w⟩ := d
    simp only [update] at h
    split at h
    · cases o <;> simp_all
      grind
    · split at h
      · cases o <;> simp_all
        grind
      · simp only [List.mem_cons] at h ⊢
        rcases h with h | h
        · exact .inl (.inl h)
        · rcases ih h with h | h
          · exact .inl (.inr h)
          · exact .inr h

/-! Bytes. -/

theorem Memory.wf_rising {m : Memory} (h : Memory.wf m = true) : rising 0 m = true := by
  simp only [Memory.wf, Bool.and_eq_true] at h
  exact h.1

@[simp] theorem Memory.wf_nil : Memory.wf [] = true := rfl

@[simp] theorem memByte_nil (a : Nat) : memByte [] a = 0 := rfl

@[simp] theorem memWord_nil (a : Nat) : memWord [] a = 0 := by
  simp only [memWord, memByte_nil]
  decide

/-- A byte reads as what was written there. -/
theorem memByte_setByte_same {m : Memory} (h : Memory.wf m = true) (a : Nat) (b : Byte) :
    memByte (setByte m a b) a = b := by
  rw [memByte, setByte, lookup_update_same (Memory.wf_rising h)]
  split <;> simp_all

/-- A byte write leaves every other byte as it was. -/
theorem memByte_setByte_ne (m : Memory) {a c : Nat} (hc : c ≠ a) (b : Byte) :
    memByte (setByte m a b) c = memByte m c := by
  rw [memByte, setByte, lookup_update_ne _ hc, memByte]

/-- A byte write keeps the canonical form. -/
theorem Memory.wf_setByte {m : Memory} (h : Memory.wf m = true) (a : Nat) (b : Byte) :
    Memory.wf (setByte m a b) = true := by
  simp only [Memory.wf, Bool.and_eq_true, List.all_eq_true] at h ⊢
  refine ⟨rising_update h.1 (by omega) _, fun c hc => ?_⟩
  rcases mem_update hc with hc | ⟨v, hv, rfl⟩
  · exact h.2 c hc
  · split at hv
    · cases hv
    · simp_all

/-- Two stores in canonical form that read alike everywhere are one list. -/
theorem Memory.ext {m n : Memory} (hm : Memory.wf m = true) (hn : Memory.wf n = true)
    (h : ∀ a, memByte m a = memByte n a) : m = n := by
  have key : ∀ (lo : Nat) (m n : Memory), rising lo m = true → rising lo n = true →
      (∀ c ∈ m, c.2 ≠ 0) → (∀ c ∈ n, c.2 ≠ 0) → (∀ a, memByte m a = memByte n a) → m = n := by
    intro lo m
    induction m generalizing lo with
    | nil =>
      intro n _ hn _ hz h
      cases n with
      | nil => rfl
      | cons c rest =>
        have := h c.1
        have := hz c (by simp)
        simp_all [memByte, lookup]
    | cons c rest ih =>
      intro n hm hn hzm hzn h
      cases n with
      | nil =>
        have := h c.1
        have := hzm c (by simp)
        simp_all [memByte, lookup]
      | cons d rest' =>
        obtain ⟨k, v⟩ := c
        obtain ⟨k', v'⟩ := d
        simp only [rising, Bool.and_eq_true, decide_eq_true_eq] at hm hn
        have hv : v ≠ 0 := hzm (k, v) (by simp)
        have hv' : v' ≠ 0 := hzn (k', v') (by simp)
        have hk : k = k' := by
          by_contra hne
          rcases Nat.lt_or_gt_of_ne hne with hlt | hgt
          · have e := h k
            simp only [memByte, lookup, if_true, if_neg hne, lookup_none_below hn.2 (by omega : k < k' + 1)] at e
            exact hv (by simpa using e)
          · have e := h k'
            simp only [memByte, lookup, if_true, if_neg (Ne.symm hne), lookup_none_below hm.2 (by omega : k' < k + 1)] at e
            exact hv' (by simpa using e.symm)
        subst hk
        have hvv : v = v' := by simpa [memByte, lookup] using h k
        subst hvv
        rw [ih (k + 1) rest' hm.2 hn.2 (fun c hc => hzm c (by simp [hc])) (fun c hc => hzn c (by simp [hc]))]
        intro a
        by_cases ha : a = k
        · subst ha
          simp [memByte, lookup_none_below hm.2 (by omega : a < a + 1), lookup_none_below hn.2 (by omega : a < a + 1)]
        · simpa [memByte, lookup, ha] using h a
  simp only [Memory.wf, Bool.and_eq_true, List.all_eq_true, bne_iff_ne] at hm hn
  exact key 0 m n hm.1 hn.1 hm.2 hn.2 h

/-! Words. -/

/-- A word write leaves every byte outside its four as it was. -/
theorem memByte_setWord_outside (m : Memory) {a c : Nat} (hc : c < a ∨ a + 4 ≤ c) (v : Word) :
    memByte (setWord m a v) c = memByte m c := by
  simp only [setWord]
  rw [memByte_setByte_ne _ (by omega), memByte_setByte_ne _ (by omega), memByte_setByte_ne _ (by omega),
    memByte_setByte_ne _ (by omega)]

/-- A word write keeps the canonical form. -/
theorem Memory.wf_setWord {m : Memory} (h : Memory.wf m = true) (a : Nat) (v : Word) :
    Memory.wf (setWord m a v) = true := by
  simp only [setWord]
  exact Memory.wf_setByte (Memory.wf_setByte (Memory.wf_setByte (Memory.wf_setByte h ..) ..) ..) ..

/-- The four bytes of a stored word, most significant at the lowest address (20_memory.md R51). -/
theorem memByte_setWord {m : Memory} (h : Memory.wf m = true) (a : Nat) (v : Word) :
    memByte (setWord m a v) a = v.extractLsb' 24 8 ∧ memByte (setWord m a v) (a + 1) = v.extractLsb' 16 8 ∧
      memByte (setWord m a v) (a + 2) = v.extractLsb' 8 8 ∧ memByte (setWord m a v) (a + 3) = v.extractLsb' 0 8 := by
  have h1 := Memory.wf_setByte h a (v.extractLsb' 24 8)
  have h2 := Memory.wf_setByte h1 (a + 1) (v.extractLsb' 16 8)
  have h3 := Memory.wf_setByte h2 (a + 2) (v.extractLsb' 8 8)
  simp only [setWord]
  refine ⟨?_, ?_, ?_, memByte_setByte_same h3 _ _⟩
  · rw [memByte_setByte_ne _ (by omega), memByte_setByte_ne _ (by omega), memByte_setByte_ne _ (by omega),
      memByte_setByte_same h]
  · rw [memByte_setByte_ne _ (by omega), memByte_setByte_ne _ (by omega), memByte_setByte_same h1]
  · rw [memByte_setByte_ne _ (by omega), memByte_setByte_same h2]

/-- The bits of a word made of four bytes, by byte. -/
theorem getLsbD_bytes (a b c d : Byte) (i : Nat) (hi : i < 8) :
    BitVec.getLsbD (w := 32) (a ++ b ++ c ++ d) i = d.getLsbD i ∧
      BitVec.getLsbD (w := 32) (a ++ b ++ c ++ d) (8 + i) = c.getLsbD i ∧
      BitVec.getLsbD (w := 32) (a ++ b ++ c ++ d) (16 + i) = b.getLsbD i ∧
      BitVec.getLsbD (w := 32) (a ++ b ++ c ++ d) (24 + i) = a.getLsbD i := by
  have h (j : Nat) : BitVec.getLsbD (w := 8 + 8 + 8 + 8) (a ++ b ++ c ++ d) j =
      if j < 8 then d.getLsbD j
      else if j - 8 < 8 then c.getLsbD (j - 8)
      else if j - 8 - 8 < 8 then b.getLsbD (j - 8 - 8) else a.getLsbD (j - 8 - 8 - 8) := by
    simp only [BitVec.getLsbD_append]
  refine ⟨(h i).trans ?_, (h (8 + i)).trans ?_, (h (16 + i)).trans ?_, (h (24 + i)).trans ?_⟩
  · rw [if_pos hi]
  · rw [if_neg (by omega), if_pos (by omega), show 8 + i - 8 = i by omega]
  · rw [if_neg (by omega), if_neg (by omega), if_pos (by omega), show 16 + i - 8 - 8 = i by omega]
  · rw [if_neg (by omega), if_neg (by omega), if_neg (by omega), show 24 + i - 8 - 8 - 8 = i by omega]

/-- A word is its four bytes. -/
theorem word_of_bytes (v : Word) :
    v.extractLsb' 24 8 ++ v.extractLsb' 16 8 ++ v.extractLsb' 8 8 ++ v.extractLsb' 0 8 = v := by
  refine BitVec.eq_of_getLsbD_eq fun i hi => ?_
  have h (j : Nat) (hj : j < 8) :=
    getLsbD_bytes (v.extractLsb' 24 8) (v.extractLsb' 16 8) (v.extractLsb' 8 8) (v.extractLsb' 0 8) j hj
  simp only [BitVec.getLsbD_extractLsb', Nat.zero_add] at h
  have : i < 8 ∨ i = 8 + (i - 8) ∧ i - 8 < 8 ∨ i = 16 + (i - 16) ∧ i - 16 < 8 ∨ i = 24 + (i - 24) ∧ i - 24 < 8 := by
    omega
  rcases this with hj | ⟨e, hj⟩ | ⟨e, hj⟩ | ⟨e, hj⟩
  · simpa [hj] using (h i hj).1
  · rw [e]; simpa [hj] using (h _ hj).2.1
  · rw [e]; simpa [hj] using (h _ hj).2.2.1
  · rw [e]; simpa [hj] using (h _ hj).2.2.2

/-- The bytes of a word are those it is made of. -/
theorem bytes_of_memWord (m : Memory) (a : Nat) :
    (memWord m a).extractLsb' 24 8 = memByte m a ∧ (memWord m a).extractLsb' 16 8 = memByte m (a + 1) ∧
      (memWord m a).extractLsb' 8 8 = memByte m (a + 2) ∧ (memWord m a).extractLsb' 0 8 = memByte m (a + 3) := by
  have h (j : Nat) (hj : j < 8) := getLsbD_bytes (memByte m a) (memByte m (a + 1)) (memByte m (a + 2)) (memByte m (a + 3)) j hj
  refine ⟨BitVec.eq_of_getLsbD_eq fun i hi => ?_, BitVec.eq_of_getLsbD_eq fun i hi => ?_,
    BitVec.eq_of_getLsbD_eq fun i hi => ?_, BitVec.eq_of_getLsbD_eq fun i hi => ?_⟩ <;>
  rw [BitVec.getLsbD_extractLsb', decide_eq_true hi, Bool.true_and, memWord]
  · exact (h i hi).2.2.2
  · exact (h i hi).2.2.1
  · exact (h i hi).2.1
  · rw [Nat.zero_add]; exact (h i hi).1

/-- A word reads as what was written there. -/
theorem memWord_setWord_same {m : Memory} (h : Memory.wf m = true) (a : Nat) (v : Word) :
    memWord (setWord m a v) a = v := by
  obtain ⟨h0, h1, h2, h3⟩ := memByte_setWord h a v
  rw [memWord, h0, h1, h2, h3, word_of_bytes]

/-- A word write leaves a word that shares no byte with it as it was. -/
theorem memWord_setWord_disjoint (m : Memory) {a c : Nat} (hc : c + 4 ≤ a ∨ a + 4 ≤ c) (v : Word) :
    memWord (setWord m a v) c = memWord m c := by
  simp only [memWord]
  rw [memByte_setWord_outside _ (by omega), memByte_setWord_outside _ (by omega), memByte_setWord_outside _ (by omega),
    memByte_setWord_outside _ (by omega)]

/-- Writing back the word that is there changes nothing. -/
theorem setWord_memWord {m : Memory} (h : Memory.wf m = true) (a : Nat) : setWord m a (memWord m a) = m := by
  refine Memory.ext (Memory.wf_setWord h _ _) h fun c => ?_
  obtain ⟨h0, h1, h2, h3⟩ := memByte_setWord h a (memWord m a)
  obtain ⟨b0, b1, b2, b3⟩ := bytes_of_memWord m a
  by_cases hc : c < a ∨ a + 4 ≤ c
  · exact memByte_setWord_outside _ hc _
  · have : c = a ∨ c = a + 1 ∨ c = a + 2 ∨ c = a + 3 := by omega
    rcases this with rfl | rfl | rfl | rfl
    · rw [h0, b0]
    · rw [h1, b1]
    · rw [h2, b2]
    · rw [h3, b3]

/-- The addresses of a word write are listed only there. -/
theorem mem_setWord {m : Memory} {a : Nat} {v : Word} {c : Host.Cell} (h : c ∈ setWord m a v) :
    c ∈ m ∨ a ≤ c.1 ∧ c.1 < a + 4 := by
  simp only [setWord, setByte] at h
  rcases mem_update h with h | ⟨_, _, rfl⟩
  · rcases mem_update h with h | ⟨_, _, rfl⟩
    · rcases mem_update h with h | ⟨_, _, rfl⟩
      · rcases mem_update h with h | ⟨_, _, rfl⟩
        · exact .inl h
        · exact .inr ⟨by simp, by simp⟩
      · exact .inr ⟨by simp, by simp⟩
    · exact .inr ⟨by simp, by simp⟩
  · exact .inr ⟨by simp, by simp⟩

end Sys2Proof.Machine
end

