-- ==== Sys2Proof/Laws/Tlb.lean ====
section
/-! SUPPORT. What each change the TLB engine makes to the store does to every way of every line, once for each change:
mark and clear recency, touch, fill, invalidate. The ways of a line are 0 and 1. -/

namespace Sys2Proof.Machine

/-! A word written at a way. -/

theorem wayWord_setWord_way {m : Memory} (h : Memory.wf m = true) {w w' : Nat} (hw : w < 2) (hw' : w' < 2) (i j : Nat)
    (v : Word) :
    wayWord (setWord m (wayAddr i w) v) j w' = if j = i ∧ w' = w then v else wayWord m j w' := by
  split
  · obtain ⟨rfl, rfl⟩ := ‹_›
    exact memWord_setWord_same h _ _
  · refine memWord_setWord_disjoint _ ?_ _
    simp only [wayAddr]
    omega

theorem wayPte_setWord_way (m : Memory) (w w' i j : Nat) (v : Word) :
    wayPte (setWord m (wayAddr i w) v) j w' = wayPte m j w' := by
  refine memWord_setWord_disjoint _ ?_ _
  simp only [wayAddr]
  omega

theorem wayWord_setWord_pte (m : Memory) (w w' i j : Nat) (v : Word) :
    wayWord (setWord m (wayAddr i w + 4) v) j w' = wayWord m j w' := by
  refine memWord_setWord_disjoint _ ?_ _
  simp only [wayAddr]
  omega

theorem wayPte_setWord_pte {m : Memory} (h : Memory.wf m = true) {w w' : Nat} (hw : w < 2) (hw' : w' < 2) (i j : Nat)
    (v : Word) :
    wayPte (setWord m (wayAddr i w + 4) v) j w' = if j = i ∧ w' = w then v else wayPte m j w' := by
  split
  · obtain ⟨rfl, rfl⟩ := ‹_›
    exact memWord_setWord_same h _ _
  · refine memWord_setWord_disjoint _ ?_ _
    simp only [wayAddr]
    omega

/-! Clearing recency, touch (43_tlb.md R155). -/

theorem Memory.wf_clearRecency {m : Memory} (h : Memory.wf m = true) (i w : Nat) :
    Memory.wf (clearRecency m i w) = true := Memory.wf_setWord h _ _

theorem Memory.wf_touch {m : Memory} (h : Memory.wf m = true) (i w : Nat) : Memory.wf (touch m i w) = true :=
  Memory.wf_clearRecency (Memory.wf_setWord h _ _) _ _

theorem wayWord_clearRecency {m : Memory} (h : Memory.wf m = true) {w w' : Nat} (hw : w < 2) (hw' : w' < 2) (i j : Nat) :
    wayWord (clearRecency m i w) j w' = if j = i ∧ w' = w then clearRecent (wayWord m i w) else wayWord m j w' :=
  wayWord_setWord_way h hw hw' i j _

theorem wayPte_clearRecency (m : Memory) (w w' i j : Nat) :
    wayPte (clearRecency m i w) j w' = wayPte m j w' := wayPte_setWord_way m w w' i j _

/-- `touch` marks its way, clears the sibling's recency and leaves every other way word. -/
theorem wayWord_touch {m : Memory} (h : Memory.wf m = true) {w w' : Nat} (hw : w < 2) (hw' : w' < 2) (i j : Nat) :
    wayWord (touch m i w) j w' =
      if j = i then if w' = w then markRecent (wayWord m i w) else clearRecent (wayWord m i w') else wayWord m j w' := by
  rw [touch, wayWord_clearRecency (Memory.wf_setWord h _ _) (by omega) hw', wayWord_setWord_way h hw (by omega),
    wayWord_setWord_way h hw hw']
  by_cases hj : j = i
  · by_cases he : w' = w
    · subst he hj
      have hne : w' ≠ 1 - w' := by omega
      simp [hne]
    · have he' : 1 - w = w' := by omega
      simp [hj, he', he]
  · simp [hj]

/-- `touch` leaves every shadow entry. -/
theorem wayPte_touch (m : Memory) (w w' i j : Nat) :
    wayPte (touch m i w) j w' = wayPte m j w' := by
  rw [touch, wayPte_clearRecency, wayPte_setWord_way m]

/-- `touch` leaves every byte outside its line. -/
theorem memByte_touch (m : Memory) {w : Nat} (hw : w < 2) (i : Nat) {a : Nat} (ha : a < 16 * i ∨ 16 * i + 16 ≤ a) :
    memByte (touch m i w) a = memByte m a := by
  simp only [touch, clearRecency, wayAddr]
  rw [memByte_setWord_outside _ (by omega), memByte_setWord_outside _ (by omega)]

/-! Filling a way (R156). -/

theorem Memory.wf_fillWay {m : Memory} (h : Memory.wf m = true) (i k : Nat) (t : BitVec 30) (pte : Word) :
    Memory.wf (fillWay m i k t pte) = true :=
  Memory.wf_clearRecency (Memory.wf_setWord (Memory.wf_setWord h _ _) _ _) _ _

/-- A fill writes its way word, clears the sibling's recency and leaves every other way word. -/
theorem wayWord_fillWay {m : Memory} (h : Memory.wf m = true) {k w' : Nat} (hk : k < 2) (hw' : w' < 2) (i j : Nat)
    (t : BitVec 30) (pte : Word) :
    wayWord (fillWay m i k t pte) j w' =
      if j = i then if w' = k then filledWay t else clearRecent (wayWord m i w') else wayWord m j w' := by
  rw [fillWay, wayWord_clearRecency (Memory.wf_setWord (Memory.wf_setWord h _ _) _ _) (by omega) hw',
    wayWord_setWord_pte, wayWord_setWord_way h hk (by omega), wayWord_setWord_pte,
    wayWord_setWord_way h hk hw']
  by_cases hj : j = i
  · by_cases he : w' = k
    · subst he hj
      have hne : w' ≠ 1 - w' := by omega
      simp [hne]
    · have he' : 1 - k = w' := by omega
      simp [hj, he', he]
  · simp [hj]

/-- A fill writes its way's shadow entry and leaves every other. -/
theorem wayPte_fillWay {m : Memory} (h : Memory.wf m = true) {k w' : Nat} (hk : k < 2) (hw' : w' < 2) (i j : Nat)
    (t : BitVec 30) (pte : Word) :
    wayPte (fillWay m i k t pte) j w' = if j = i ∧ w' = k then pte else wayPte m j w' := by
  rw [fillWay, wayPte_clearRecency, wayPte_setWord_pte (Memory.wf_setWord h _ _) hk hw',
    wayPte_setWord_way m]

/-- A fill leaves every byte outside its line. -/
theorem memByte_fillWay (m : Memory) {k : Nat} (hk : k < 2) (i : Nat) (t : BitVec 30) (pte : Word) {a : Nat}
    (ha : a < 16 * i ∨ 16 * i + 16 ≤ a) : memByte (fillWay m i k t pte) a = memByte m a := by
  simp only [fillWay, clearRecency, wayAddr]
  rw [memByte_setWord_outside _ (by omega), memByte_setWord_outside _ (by omega), memByte_setWord_outside _ (by omega)]

/-! Invalidating (R160, R161). -/

theorem Memory.wf_invalidateWay {m : Memory} (h : Memory.wf m = true) (i w : Nat) (t : BitVec 30) :
    Memory.wf (invalidateWay m i w t).1 = true := by
  simp only [invalidateWay]
  split
  · exact Memory.wf_setWord (Memory.wf_setWord h _ _) _ _
  · exact h

theorem Memory.wf_invalidateLine {m : Memory} (h : Memory.wf m = true) (i : Nat) (t : BitVec 30) :
    Memory.wf (invalidateLine m i t).1 = true := Memory.wf_invalidateWay (Memory.wf_invalidateWay h ..) ..

theorem wayWord_invalidateWay {m : Memory} (h : Memory.wf m = true) {w w' : Nat} (hw : w < 2) (hw' : w' < 2) (i j : Nat)
    (t : BitVec 30) :
    wayWord (invalidateWay m i w t).1 j w' =
      if j = i ∧ w' = w ∧ wayTag (wayWord m j w') = t then 0 else wayWord m j w' := by
  simp only [invalidateWay]
  by_cases ht : wayTag (wayWord m i w) = t
  · simp only [ht, beq_self_eq_true, if_true]
    rw [wayWord_setWord_pte, wayWord_setWord_way h hw hw']
    by_cases hj : j = i ∧ w' = w
    · obtain ⟨rfl, rfl⟩ := hj
      simp [ht]
    · rw [if_neg hj, if_neg (fun e => hj ⟨e.1, e.2.1⟩)]
  · simp only [beq_iff_eq, ht, if_false]
    split
    · obtain ⟨rfl, rfl, ht'⟩ := ‹_›
      exact absurd ht' ht
    · rfl

theorem wayPte_invalidateWay {m : Memory} (h : Memory.wf m = true) {w w' : Nat} (hw : w < 2) (hw' : w' < 2) (i j : Nat)
    (t : BitVec 30) :
    wayPte (invalidateWay m i w t).1 j w' =
      if j = i ∧ w' = w ∧ wayTag (wayWord m j w') = t then 0 else wayPte m j w' := by
  simp only [invalidateWay]
  by_cases ht : wayTag (wayWord m i w) = t
  · simp only [ht, beq_self_eq_true, if_true]
    rw [wayPte_setWord_pte (Memory.wf_setWord h _ _) hw hw', wayPte_setWord_way]
    by_cases hj : j = i ∧ w' = w
    · obtain ⟨rfl, rfl⟩ := hj
      simp [ht]
    · rw [if_neg hj, if_neg (fun e => hj ⟨e.1, e.2.1⟩)]
  · simp only [beq_iff_eq, ht, if_false]
    split
    · obtain ⟨rfl, rfl, ht'⟩ := ‹_›
      exact absurd ht' ht
    · rfl

/-- Invalidating a line zeroes the word of every way of it that has the tag, and leaves every other way word. -/
theorem wayWord_invalidateLine {m : Memory} (h : Memory.wf m = true) {w' : Nat} (hw' : w' < 2) (i j : Nat)
    (t : BitVec 30) :
    wayWord (invalidateLine m i t).1 j w' =
      if j = i ∧ wayTag (wayWord m j w') = t then 0 else wayWord m j w' := by
  simp only [invalidateLine]
  rw [wayWord_invalidateWay (Memory.wf_invalidateWay h ..) (by omega) hw', wayWord_invalidateWay h (by omega) hw']
  have : w' = 0 ∨ w' = 1 := by omega
  rcases this with rfl | rfl
  · simp
  · simp

/-- Invalidating a line zeroes the shadow entry of every way of it that has the tag, and leaves every other. -/
theorem wayPte_invalidateLine {m : Memory} (h : Memory.wf m = true) {w' : Nat} (hw' : w' < 2) (i j : Nat)
    (t : BitVec 30) :
    wayPte (invalidateLine m i t).1 j w' =
      if j = i ∧ wayTag (wayWord m j w') = t then 0 else wayPte m j w' := by
  simp only [invalidateLine]
  rw [wayPte_invalidateWay (Memory.wf_invalidateWay h ..) (by omega) hw', wayPte_invalidateWay h (by omega) hw',
    wayWord_invalidateWay h (by omega) hw']
  have : w' = 0 ∨ w' = 1 := by omega
  rcases this with rfl | rfl
  · simp
  · simp

/-- Whether an invalidation found its tag. -/
theorem invalidateLine_found {m : Memory} (h : Memory.wf m = true) (i : Nat) (t : BitVec 30) :
    (invalidateLine m i t).2 = (wayTag (wayWord m i 0) == t || wayTag (wayWord m i 1) == t) := by
  have h0 : ∀ m w, (invalidateWay m i w t).2 = (wayTag (wayWord m i w) == t) := by
    intro m w
    simp only [invalidateWay]
    split <;> simp_all
  simp only [invalidateLine, h0]
  rw [wayWord_invalidateWay h (by omega) (by omega)]
  simp

/-- An invalidation that does not find its tag changes nothing. -/
theorem invalidateLine_absent {m : Memory} {i : Nat} {t : BitVec 30} (h : (invalidateLine m i t).2 = false) :
    (invalidateLine m i t).1 = m := by
  have h0 : ∀ m w, (invalidateWay m i w t).2 = false → (invalidateWay m i w t).1 = m := by
    intro m w
    simp only [invalidateWay]
    split <;> simp
  simp only [invalidateLine, Bool.or_eq_false_iff] at h ⊢
  rw [h0 _ _ h.2, h0 _ _ h.1]

/-- Invalidating a line leaves every byte outside it. -/
theorem memByte_invalidateLine (m : Memory) (i : Nat) (t : BitVec 30) {a : Nat} (ha : a < 16 * i ∨ 16 * i + 16 ≤ a) :
    memByte (invalidateLine m i t).1 a = memByte m a := by
  have h0 : ∀ m w, w < 2 → memByte (invalidateWay m i w t).1 a = memByte m a := by
    intro m w hw
    simp only [invalidateWay]
    split
    · simp only [wayAddr]
      rw [memByte_setWord_outside _ (by omega), memByte_setWord_outside _ (by omega)]
    · rfl
  simp only [invalidateLine]
  rw [h0 _ _ (by omega), h0 _ _ (by omega)]

/-! Where a change of recency shows: in the first byte of the way word. -/

theorem getLsbD_markRecent (x : Word) {i : Nat} (h : i ≠ 30) : (markRecent x).getLsbD i = x.getLsbD i := by
  have : (0x40000000 : Word).getLsbD i = false := by
    by_cases hi : i < 32
    · interval_cases i <;> first | rfl | omega
    · exact BitVec.getLsbD_of_ge _ _ (by omega)
  rw [markRecent, BitVec.getLsbD_or, this, Bool.or_false]

theorem getLsbD_clearRecent (x : Word) {i : Nat} (h : i ≠ 30) : (clearRecent x).getLsbD i = x.getLsbD i := by
  rw [clearRecent, BitVec.getLsbD_and]
  by_cases hi : i < 32
  · have : (0xBFFFFFFF : Word).getLsbD i = true := by interval_cases i <;> first | rfl | omega
    rw [this, Bool.and_true]
  · rw [BitVec.getLsbD_of_ge _ _ (by omega), Bool.false_and]

/-- A word written that differs from the word there in its top byte alone changes that byte alone. -/
theorem memByte_setWord_top {m : Memory} (h : Memory.wf m = true) (a : Nat) {b : Nat} (hb : b ≠ a) {x : Word}
    (hx : ∀ i < 24, x.getLsbD i = (memWord m a).getLsbD i) : memByte (setWord m a x) b = memByte m b := by
  by_cases ho : b < a ∨ a + 4 ≤ b
  · exact memByte_setWord_outside _ ho _
  · have hs := memByte_setWord h a x
    have hw := bytes_of_memWord m a
    have : b = a + 1 ∨ b = a + 2 ∨ b = a + 3 := by omega
    rcases this with rfl | rfl | rfl
    · rw [hs.2.1, ← hw.2.1]
      ext i hi
      simp [hx (16 + i) (by omega)]
    · rw [hs.2.2.1, ← hw.2.2.1]
      ext i hi
      simp [hx (8 + i) (by omega)]
    · rw [hs.2.2.2, ← hw.2.2.2]
      ext i hi
      simp [hx i (by omega)]

/-- Clearing recency changes the first byte of the way alone. -/
theorem memByte_clearRecency {m : Memory} (h : Memory.wf m = true) (i w : Nat) {a : Nat} (ha : a ≠ wayAddr i w) :
    memByte (clearRecency m i w) a = memByte m a :=
  memByte_setWord_top h _ ha fun j hj => getLsbD_clearRecent _ (by omega)

/-- `touch` changes the first bytes of the two ways alone. -/
theorem memByte_touch_of_ne {m : Memory} (h : Memory.wf m = true) {w : Nat} (hw : w < 2) (i : Nat) {a : Nat}
    (h0 : a ≠ 16 * i) (h8 : a ≠ 16 * i + 8) : memByte (touch m i w) a = memByte m a := by
  have h1 : a ≠ wayAddr i w := by simp only [wayAddr]; omega
  have h2 : a ≠ wayAddr i (1 - w) := by simp only [wayAddr]; omega
  rw [touch, memByte_clearRecency (Memory.wf_setWord h _ _) i _ h2]
  exact memByte_setWord_top h _ h1 fun j hj => getLsbD_markRecent _ (by omega)

/-- A fill changes its way's eight bytes and the first byte of the sibling alone. -/
theorem memByte_fillWay_of_ne {m : Memory} (h : Memory.wf m = true) (i k : Nat) (t : BitVec 30) (pte : Word) {a : Nat}
    (h1 : a < wayAddr i k ∨ wayAddr i k + 8 ≤ a) (h2 : a ≠ wayAddr i (1 - k)) :
    memByte (fillWay m i k t pte) a = memByte m a := by
  rw [fillWay, memByte_clearRecency (Memory.wf_setWord (Memory.wf_setWord h _ _) _ _) i _ h2,
    memByte_setWord_outside _ (by omega), memByte_setWord_outside _ (by omega)]

/-- Invalidating one way changes the bytes of a way with the tag alone. -/
theorem memByte_invalidateWay (m : Memory) (i w : Nat) (t : BitVec 30) {a : Nat}
    (h : wayTag (wayWord m i w) = t → a < wayAddr i w ∨ wayAddr i w + 8 ≤ a) :
    memByte (invalidateWay m i w t).1 a = memByte m a := by
  simp only [invalidateWay]
  split
  · have := h (by simpa using ‹(wayTag (wayWord m i w) == t) = true›)
    rw [memByte_setWord_outside _ (by omega), memByte_setWord_outside _ (by omega)]
  · rfl

/-- Invalidating a line changes the bytes of its ways with the tag alone. -/
theorem memByte_invalidateLine_of_tag {m : Memory} (hm : Memory.wf m = true) (i : Nat) (t : BitVec 30) {a : Nat}
    (h : ∀ w < 2, wayTag (wayWord m i w) = t → a < wayAddr i w ∨ wayAddr i w + 8 ≤ a) :
    memByte (invalidateLine m i t).1 a = memByte m a := by
  simp only [invalidateLine]
  rw [memByte_invalidateWay _ _ _ _ (by
      rw [wayWord_invalidateWay hm (by omega) (by omega)]
      simpa using h 1 (by omega)),
    memByte_invalidateWay _ _ _ _ (h 0 (by omega))]

/-! Where the changes list bytes: inside the store. -/

/-- All listed bytes lie below `n`. -/
def listedBelow (m : Memory) (n : Nat) : Bool := m.all fun c => decide (c.1 < n)

theorem listedBelow_setWord {m : Memory} {n a : Nat} (h : listedBelow m n = true) (ha : a + 4 ≤ n) (v : Word) :
    listedBelow (setWord m a v) n = true := by
  simp only [listedBelow, List.all_eq_true, decide_eq_true_eq] at h ⊢
  intro c hc
  rcases mem_setWord hc with hc | ⟨_, hc⟩
  · exact h c hc
  · omega

theorem listedBelow_setByte {m : Memory} {n a : Nat} (h : listedBelow m n = true) (ha : a < n) (b : Byte) :
    listedBelow (setByte m a b) n = true := by
  simp only [listedBelow, List.all_eq_true, decide_eq_true_eq] at h ⊢
  intro c hc
  rcases mem_update hc with hc | ⟨_, _, rfl⟩
  · exact h c hc
  · exact ha

theorem listedBelow_touch {m : Memory} {n i w : Nat} (h : listedBelow m n = true) (hi : 16 * i + 16 ≤ n) (hw : w < 2) :
    listedBelow (touch m i w) n = true := by
  simp only [touch, clearRecency, wayAddr]
  exact listedBelow_setWord (listedBelow_setWord h (by omega) _) (by omega) _

theorem listedBelow_fillWay {m : Memory} {n i k : Nat} (h : listedBelow m n = true) (hi : 16 * i + 16 ≤ n) (hk : k < 2)
    (t : BitVec 30) (pte : Word) : listedBelow (fillWay m i k t pte) n = true := by
  simp only [fillWay, clearRecency, wayAddr]
  exact listedBelow_setWord (listedBelow_setWord (listedBelow_setWord h (by omega) _) (by omega) _) (by omega) _

theorem listedBelow_invalidateLine {m : Memory} {n i : Nat} (h : listedBelow m n = true) (hi : 16 * i + 16 ≤ n)
    (t : BitVec 30) : listedBelow (invalidateLine m i t).1 n = true := by
  have h0 : ∀ m w, w < 2 → listedBelow m n = true → listedBelow (invalidateWay m i w t).1 n = true := by
    intro m w hw h
    simp only [invalidateWay]
    split
    · simp only [wayAddr]
      exact listedBelow_setWord (listedBelow_setWord h (by omega) _) (by omega) _
    · exact h
  exact h0 _ _ (by omega) (h0 _ _ (by omega) h)

/-! Which way a read hits and an insert fills. -/

theorem hitWay_cases (m : Memory) (i : Nat) (t : BitVec 30) :
    (hitWay m i t = some 0 ∧ wayHits m i 0 t = true) ∨
      (hitWay m i t = some 1 ∧ wayHits m i 0 t = false ∧ wayHits m i 1 t = true) ∨
      (hitWay m i t = none ∧ wayHits m i 0 t = false ∧ wayHits m i 1 t = false) := by
  simp only [hitWay]
  split
  · simp_all
  · split <;> simp_all

theorem hitWay_eq_none {m : Memory} {i : Nat} {t : BitVec 30} :
    hitWay m i t = none ↔ wayHits m i 0 t = false ∧ wayHits m i 1 t = false := by
  rcases hitWay_cases m i t with h | h | h <;> simp_all

theorem hitWay_some {m : Memory} {i w : Nat} {t : BitVec 30} (h : hitWay m i t = some w) :
    w < 2 ∧ wayHits m i w t = true := by
  rcases hitWay_cases m i t with ⟨e, h0⟩ | ⟨e, -, h1⟩ | ⟨e, -⟩ <;> rw [e] at h <;> cases h
  · exact ⟨by decide, h0⟩
  · exact ⟨by decide, h1⟩

theorem victimWay_some {m : Memory} {i k : Nat} (h : victimWay m i = some k) :
    k < 2 ∧ (wayValid (wayWord m i k) = false ∨ wayRecency (wayWord m i k) = false) := by
  simp only [victimWay, Bool.not_eq_true'] at h
  split at h
  · cases h
    exact ⟨by decide, .inl ‹_›⟩
  split at h
  · cases h
    exact ⟨by decide, .inl ‹_›⟩
  split at h
  · cases h
    exact ⟨by decide, .inr ‹_›⟩
  split at h
  · cases h
    exact ⟨by decide, .inr ‹_›⟩
  · cases h

/-- An insert finds no way exactly when both are valid and recent (43_tlb.md R156 (c)). -/
theorem victimWay_eq_none {m : Memory} {i : Nat} :
    victimWay m i = none ↔ wayValid (wayWord m i 0) = true ∧ wayValid (wayWord m i 1) = true ∧
      wayRecency (wayWord m i 0) = true ∧ wayRecency (wayWord m i 1) = true := by
  simp only [victimWay]
  cases wayValid (wayWord m i 0) <;> cases wayValid (wayWord m i 1) <;> cases wayRecency (wayWord m i 0) <;>
    cases wayRecency (wayWord m i 1) <;> simp

end Sys2Proof.Machine
end

