-- ==== Sys2Proof/Laws/Steps.lean ====
section
/-! SUPPORT. What one step of the store unit can do, said once for each step, and what other hosts' steps and a whole
flush keep. -/

namespace Sys2Proof.Machine

/-! Operand checks. -/

theorem checkPage_eq_none {c : Config} {pid page : Word} :
    checkPage c pid page = none ↔ pid.toNat < 2 ^ c.pidW ∧ page.toNat < 2 ^ 14 ∧ 1 ≤ lines c := by
  simp only [checkPage, pidOk, pageOk, hasLine, Bool.not_eq_true', decide_eq_false_iff_not]
  split
  · simp_all
  · split
    · simp_all
    · split <;> (simp_all; try omega)

theorem checkFlush_eq_none {c : Config} {pid lo hi : Word} :
    checkFlush c pid lo hi = none ↔
      pid.toNat < 2 ^ c.pidW ∧ lo.toNat ≤ 2 ^ 14 ∧ hi.toNat ≤ 2 ^ 14 ∧ 1 ≤ lines c := by
  simp only [checkFlush, pidOk, boundOk, hasLine, Bool.not_eq_true', decide_eq_false_iff_not]
  split
  · simp_all
  · split
    · simp_all
    · split
      · simp_all
      · split <;> (simp_all; try omega)

theorem checkEnd_eq_none {c : Config} {prio pid lo hi : Word} :
    checkEnd c prio pid lo hi = none ↔
      prio.toNat < c.maxPrio ∧ pid.toNat < 2 ^ c.pidW ∧ lo.toNat ≤ 2 ^ 14 ∧ hi.toNat ≤ 2 ^ 14 := by
  simp only [checkEnd, pidOk, boundOk, prioOk, Bool.not_eq_true', decide_eq_false_iff_not]
  split
  · simp_all
  · split
    · simp_all
    · split
      · simp_all
      · split <;> simp_all

/-! What each step of the store unit can do. -/

theorem stRdb_cases (addr : Word) (s : State) :
    (s.cfg.cap ≤ addr.toNat ∧ stRdb addr s = raise (.devErr addr.toNat) s) ∨
      (addr.toNat < s.cfg.cap ∧
        stRdb addr s = respond { status := .ok, res0 := (memByte s.mem addr.toNat).setWidth 32 } s) := by
  by_cases h : s.cfg.cap ≤ addr.toNat
  · exact .inl ⟨h, by simp [stRdb, memRead1, h]⟩
  · exact .inr ⟨by omega, by simp [stRdb, memRead1, h]⟩

theorem stWrb_cases (addr value : Word) (s : State) :
    (s.cfg.cap ≤ addr.toNat ∧ stWrb addr value s = raise (.devErr addr.toNat) s) ∨
      (addr.toNat < s.cfg.cap ∧
        stWrb addr value s =
          respond { status := .ok } { s with mem := setByte s.mem addr.toNat (byteOperand value) }) := by
  by_cases h : s.cfg.cap ≤ addr.toNat
  · exact .inl ⟨h, by simp [stWrb, memWrite1, h]⟩
  · exact .inr ⟨by omega, by simp [stWrb, memWrite1, h]⟩

theorem stRdw_cases (addr : Word) (s : State) :
    (s.cfg.cap ≤ addr.toNat + 3 ∧ stRdw addr s = raise (.devErr (lowestOutside s.cfg.cap addr.toNat)) s) ∨
      (addr.toNat + 3 < s.cfg.cap ∧
        stRdw addr s = respond { status := .ok, res0 := memWord s.mem addr.toNat } s) := by
  by_cases h : s.cfg.cap ≤ addr.toNat + 3
  · exact .inl ⟨h, by simp [stRdw, memRead4, h]⟩
  · exact .inr ⟨by omega, by simp [stRdw, memRead4, h]⟩

theorem stWrw_cases (addr value : Word) (s : State) :
    (s.cfg.cap ≤ addr.toNat + 3 ∧ stWrw addr value s = raise (.devErr (lowestOutside s.cfg.cap addr.toNat)) s) ∨
      (addr.toNat + 3 < s.cfg.cap ∧
        stWrw addr value s = respond { status := .ok } { s with mem := setWord s.mem addr.toNat value }) := by
  by_cases h : s.cfg.cap ≤ addr.toNat + 3
  · exact .inl ⟨h, by simp [stWrw, memWrite4, h]⟩
  · exact .inr ⟨by omega, by simp [stWrw, memWrite4, h]⟩

theorem tlbRd_cases (pid page : Word) (s : State) :
    (∃ e, checkPage s.cfg pid page = some e ∧ tlbRd pid page s = raise e s) ∨
      (checkPage s.cfg pid page = none ∧
        ∃ w, hitWay s.mem (lineOf s.cfg pid.toNat page.toNat) (tag pid.toNat page.toNat) = some w ∧
          tlbRd pid page s =
            respond
              { status := .ok,
                res0 := (pteFrame (wayPte s.mem (lineOf s.cfg pid.toNat page.toNat) w)).setWidth 32 }
              { s with mem := touch s.mem (lineOf s.cfg pid.toNat page.toNat) w }) ∨
      (checkPage s.cfg pid page = none ∧
        hitWay s.mem (lineOf s.cfg pid.toNat page.toNat) (tag pid.toNat page.toNat) = none ∧
        tlbRd pid page s = respond { status := .miss } s) := by
  cases hc : checkPage s.cfg pid page with
  | some e => exact .inl ⟨e, rfl, by simp [tlbRd, hc]⟩
  | none =>
    cases hh : hitWay s.mem (lineOf s.cfg pid.toNat page.toNat) (tag pid.toNat page.toNat) with
    | some w => exact .inr (.inl ⟨rfl, w, rfl, by simp [tlbRd, hc, hh]⟩)
    | none => exact .inr (.inr ⟨rfl, rfl, by simp [tlbRd, hc, hh]⟩)

theorem tlbIns_cases (pid page pte : Word) (s : State) :
    (∃ e, checkPage s.cfg pid page = some e ∧ tlbIns pid page pte s = raise e s) ∨
      (checkPage s.cfg pid page = none ∧
        ∃ k, victimWay s.mem (lineOf s.cfg pid.toNat page.toNat) = some k ∧
          tlbIns pid page pte s =
            respond { status := .ok, res0 := (pteFrame pte).setWidth 32 }
              { s with
                mem := fillWay s.mem (lineOf s.cfg pid.toNat page.toNat) k (tag pid.toNat page.toNat) pte }) ∨
      (checkPage s.cfg pid page = none ∧ victimWay s.mem (lineOf s.cfg pid.toNat page.toNat) = none ∧
        tlbIns pid page pte s = respond { status := .novict } s) := by
  cases hc : checkPage s.cfg pid page with
  | some e => exact .inl ⟨e, rfl, by simp [tlbIns, hc]⟩
  | none =>
    cases hv : victimWay s.mem (lineOf s.cfg pid.toNat page.toNat) with
    | some k => exact .inr (.inl ⟨rfl, k, rfl, by simp [tlbIns, hc, hv]⟩)
    | none => exact .inr (.inr ⟨rfl, rfl, by simp [tlbIns, hc, hv]⟩)

theorem tlbInv_cases (pid page : Word) (s : State) :
    (∃ e, checkPage s.cfg pid page = some e ∧ tlbInv pid page s = raise e s) ∨
      (checkPage s.cfg pid page = none ∧
        tlbInv pid page s =
          respond
            { status :=
                if (invalidateLine s.mem (lineOf s.cfg pid.toNat page.toNat) (tag pid.toNat page.toNat)).2 then .ok
                else .miss }
            (invalidatePage pid.toNat page.toNat s)) := by
  cases hc : checkPage s.cfg pid page with
  | some e => exact .inl ⟨e, rfl, by simp [tlbInv, hc]⟩
  | none => exact .inr ⟨rfl, by simp [tlbInv, hc, invalidatePage]⟩

theorem tlbInvall_cases (pid : Word) (s : State) :
    (∃ e, checkInvall s.cfg pid = some e ∧ tlbInvall pid s = raise e s) ∨
      (checkInvall s.cfg pid = none ∧ tlbInvall pid s = respond { status := .unimpl } s) := by
  cases hc : checkInvall s.cfg pid with
  | some e => exact .inl ⟨e, rfl, by simp [tlbInvall, hc]⟩
  | none => exact .inr ⟨rfl, by simp [tlbInvall, hc]⟩

theorem flushPage_cases (pid page : Word) (s : State) :
    flushPage pid page s = s ∨
      (checkPage s.cfg pid page = none ∧ flushPage pid page s = invalidatePage pid.toNat page.toNat s) := by
  cases hc : checkPage s.cfg pid page with
  | some e => exact .inl (by simp [flushPage, hc])
  | none => exact .inr ⟨rfl, by simp [flushPage, hc]⟩

theorem tlbFlush_cases (pid lo hi : Word) (s : State) :
    (∃ e, checkFlush s.cfg pid lo hi = some e ∧ tlbFlush pid lo hi s = raise e s) ∨
      (checkFlush s.cfg pid lo hi = none ∧
        tlbFlush pid lo hi s =
          respond { status := .ok } (flushPages pid.toNat lo.toNat (hi.toNat - lo.toNat) s)) := by
  cases hc : checkFlush s.cfg pid lo hi with
  | some e => exact .inl ⟨e, rfl, by simp [tlbFlush, hc]⟩
  | none => exact .inr ⟨rfl, by simp [tlbFlush, hc]⟩

/-! Reasoning over other hosts' steps and over a flush: what every step keeps, the whole keeps. -/

/-- A property that does not look at the response, the hosts' registers and the gaps, and that every change of the store
keeps, is kept by every step of another host. -/
theorem otherHostStep_keeps {P : State → Prop}
    (hrespond : ∀ r s, P s → P (respond r s)) (hraise : ∀ e s, P s → P (raise e s))
    (hdeliver : ∀ h s, P s → P (deliver h s))
    (hwrb : ∀ addr value s, P s → P (stWrb addr value s)) (hwrw : ∀ addr value s, P s → P (stWrw addr value s))
    (hrd : ∀ pid page s, P s → P (tlbRd pid page s)) (hins : ∀ pid page pte s, P s → P (tlbIns pid page pte s))
    (hinv : ∀ (pid page : Word) s, checkPage s.cfg pid page = none → P s → P (invalidatePage pid.toNat page.toNat s))
    (x : Nat × StoreStep) (s : State) (h : P s) : P (otherHostStep s x) := by
  obtain ⟨n, st⟩ := x
  cases st with
  | rdb addr =>
    refine hdeliver _ _ ?_
    rcases stRdb_cases addr s with ⟨-, e⟩ | ⟨-, e⟩ <;> rw [e]
    · exact hraise _ _ h
    · exact hrespond _ _ h
  | wrb addr value => exact hdeliver _ _ (hwrb _ _ _ h)
  | rdw addr =>
    refine hdeliver _ _ ?_
    rcases stRdw_cases addr s with ⟨-, e⟩ | ⟨-, e⟩ <;> rw [e]
    · exact hraise _ _ h
    · exact hrespond _ _ h
  | wrw addr value => exact hdeliver _ _ (hwrw _ _ _ h)
  | dump => exact hdeliver _ _ (hrespond _ _ h)
  | bdump => exact hdeliver _ _ (hrespond _ _ h)
  | rd pid page => exact hdeliver _ _ (hrd _ _ _ h)
  | ins pid page pte => exact hdeliver _ _ (hins _ _ _ _ h)
  | inv pid page =>
    refine hdeliver _ _ ?_
    rcases tlbInv_cases pid page s with ⟨_, -, e⟩ | ⟨hc, e⟩ <;> rw [e]
    · exact hraise _ _ h
    · exact hrespond _ _ (hinv _ _ _ hc h)
  | invall pid =>
    refine hdeliver _ _ ?_
    rcases tlbInvall_cases pid s with ⟨_, -, e⟩ | ⟨-, e⟩ <;> rw [e]
    · exact hraise _ _ h
    · exact hrespond _ _ h
  | flushPage pid page =>
    show P (flushPage pid page s)
    rcases flushPage_cases pid page s with e | ⟨hc, e⟩ <;> rw [e]
    · exact h
    · exact hinv _ _ _ hc h
  | flushDone => exact hdeliver _ _ (hrespond _ _ h)

/-- What every other host's step keeps, and does not look at the gaps, a whole gap keeps. -/
theorem otherHosts_keeps {P : State → Prop} (hgaps : ∀ g s, P s → P { s with gaps := g })
    (hstep : ∀ x s, P s → P (otherHostStep s x)) (s : State) (h : P s) : P (otherHosts s) := by
  simp only [otherHosts]
  split
  · exact h
  · rename_i g rest _
    have : ∀ (l : List (Nat × StoreStep)) s, P s → P (l.foldl otherHostStep s) := by
      intro l
      induction l with
      | nil => exact fun s h => h
      | cons x l ih => exact fun s h => ih _ (hstep x s h)
    exact this g _ (hgaps _ _ h)

/-- What every page's invalidation and every gap keep, a flush keeps. -/
theorem flushPages_keeps {P : State → Prop} (pid : Nat) (hinv : ∀ p s, P s → P (invalidatePage pid p s))
    (hoth : ∀ s, P s → P (otherHosts s)) (n p : Nat) (s : State) (h : P s) : P (flushPages pid p n s) := by
  induction n generalizing p s with
  | zero => exact h
  | succ n ih => exact ih _ _ (hoth _ (hinv _ _ h))

/-- With no other host's step waiting, a gap does nothing. -/
theorem otherHosts_nil {s : State} (h : s.gaps = []) : otherHosts s = s := by simp [otherHosts, h]

theorem flushPages_zero (pid p : Nat) (s : State) : flushPages pid p 0 s = s := rfl

theorem flushPages_succ (pid p n : Nat) (s : State) :
    flushPages pid p (n + 1) s = flushPages pid (p + 1) n (otherHosts (invalidatePage pid p s)) := rfl

/-! What the store unit leaves alone. -/

/-- `t` is `s` but for the store, `FLAGS.DEVERR` (set or left), the response, the hosts' registers and the gaps. -/
structure StoreOnly (s t : State) : Prop where
  cfg : t.cfg = s.cfg
  levels : t.levels = s.levels
  events : t.events = s.events
  pgd : t.pgd = s.pgd
  stats : t.stats = s.stats
  freeCount : t.freeCount = s.freeCount
  inputs : t.inputs = s.inputs
  qFull : qFullFlag t.flags = qFullFlag s.flags
  devErr : devErrFlag s.flags = true → devErrFlag t.flags = true

theorem StoreOnly.refl (s : State) : StoreOnly s s := ⟨rfl, rfl, rfl, rfl, rfl, rfl, rfl, rfl, id⟩

theorem StoreOnly.trans {s t u : State} (h : StoreOnly s t) (h' : StoreOnly t u) : StoreOnly s u :=
  ⟨h'.cfg.trans h.cfg, h'.levels.trans h.levels, h'.events.trans h.events, h'.pgd.trans h.pgd,
    h'.stats.trans h.stats, h'.freeCount.trans h.freeCount, h'.inputs.trans h.inputs, h'.qFull.trans h.qFull,
    fun e => h'.devErr (h.devErr e)⟩

theorem StoreOnly.mem (s : State) (m : Memory) : StoreOnly s { s with mem := m } :=
  ⟨rfl, rfl, rfl, rfl, rfl, rfl, rfl, rfl, id⟩

theorem StoreOnly.respond (r : Response) (s : State) : StoreOnly s (respond r s) :=
  ⟨rfl, rfl, rfl, rfl, rfl, rfl, rfl, rfl, id⟩

theorem StoreOnly.deliver (h : Nat) (s : State) : StoreOnly s (deliver h s) :=
  ⟨rfl, rfl, rfl, rfl, rfl, rfl, rfl, rfl, id⟩

theorem StoreOnly.gaps (s : State) (g : List (List (Nat × StoreStep))) : StoreOnly s { s with gaps := g } :=
  ⟨rfl, rfl, rfl, rfl, rfl, rfl, rfl, rfl, id⟩

theorem qFullFlag_setDevErr (f : BitVec 2) : qFullFlag (setDevErr f) = qFullFlag f := by
  simp [qFullFlag, setDevErr]

theorem devErrFlag_setDevErr (f : BitVec 2) : devErrFlag (setDevErr f) = true := by
  simp [devErrFlag, setDevErr]

theorem StoreOnly.raise (e : CmdError) (s : State) : StoreOnly s (raise e s) := by
  cases e with
  | badOp => exact .respond _ _
  | badArg k => exact .respond _ _
  | devErr a =>
    exact ⟨rfl, rfl, rfl, rfl, rfl, rfl, rfl, qFullFlag_setDevErr _, fun _ => devErrFlag_setDevErr _⟩

theorem StoreOnly.stRdb (addr : Word) (s : State) : StoreOnly s (stRdb addr s) := by
  rcases stRdb_cases addr s with ⟨-, e⟩ | ⟨-, e⟩ <;> rw [e]
  · exact .raise _ _
  · exact .respond _ _

theorem StoreOnly.stWrb (addr value : Word) (s : State) : StoreOnly s (stWrb addr value s) := by
  rcases stWrb_cases addr value s with ⟨-, e⟩ | ⟨-, e⟩ <;> rw [e]
  · exact .raise _ _
  · exact (StoreOnly.mem s _).trans (.respond _ _)

theorem StoreOnly.stRdw (addr : Word) (s : State) : StoreOnly s (stRdw addr s) := by
  rcases stRdw_cases addr s with ⟨-, e⟩ | ⟨-, e⟩ <;> rw [e]
  · exact .raise _ _
  · exact .respond _ _

theorem StoreOnly.stWrw (addr value : Word) (s : State) : StoreOnly s (stWrw addr value s) := by
  rcases stWrw_cases addr value s with ⟨-, e⟩ | ⟨-, e⟩ <;> rw [e]
  · exact .raise _ _
  · exact (StoreOnly.mem s _).trans (.respond _ _)

theorem StoreOnly.tlbRd (pid page : Word) (s : State) : StoreOnly s (tlbRd pid page s) := by
  rcases tlbRd_cases pid page s with ⟨_, -, e⟩ | ⟨-, _, -, e⟩ | ⟨-, -, e⟩ <;> rw [e]
  · exact .raise _ _
  · exact (StoreOnly.mem s _).trans (.respond _ _)
  · exact .respond _ _

theorem StoreOnly.tlbIns (pid page pte : Word) (s : State) : StoreOnly s (tlbIns pid page pte s) := by
  rcases tlbIns_cases pid page pte s with ⟨_, -, e⟩ | ⟨-, _, -, e⟩ | ⟨-, -, e⟩ <;> rw [e]
  · exact .raise _ _
  · exact (StoreOnly.mem s _).trans (.respond _ _)
  · exact .respond _ _

theorem StoreOnly.invalidatePage (pid page : Nat) (s : State) : StoreOnly s (invalidatePage pid page s) := .mem s _

theorem StoreOnly.tlbInv (pid page : Word) (s : State) : StoreOnly s (tlbInv pid page s) := by
  rcases tlbInv_cases pid page s with ⟨_, -, e⟩ | ⟨-, e⟩ <;> rw [e]
  · exact .raise _ _
  · exact (StoreOnly.mem s _).trans (.respond _ _)

theorem StoreOnly.tlbInvall (pid : Word) (s : State) : StoreOnly s (tlbInvall pid s) := by
  rcases tlbInvall_cases pid s with ⟨_, -, e⟩ | ⟨-, e⟩ <;> rw [e]
  · exact .raise _ _
  · exact .respond _ _

theorem StoreOnly.otherHostStep (s : State) (x : Nat × StoreStep) : StoreOnly s (otherHostStep s x) :=
  otherHostStep_keeps (P := StoreOnly s) (fun _ _ h => h.trans (.respond _ _)) (fun _ _ h => h.trans (.raise _ _))
    (fun _ _ h => h.trans (.deliver _ _)) (fun _ _ _ h => h.trans (.stWrb _ _ _)) (fun _ _ _ h => h.trans (.stWrw _ _ _))
    (fun _ _ _ h => h.trans (.tlbRd _ _ _)) (fun _ _ _ _ h => h.trans (.tlbIns _ _ _ _))
    (fun _ _ _ _ h => h.trans (.invalidatePage _ _ _)) x s (.refl s)

theorem StoreOnly.otherHosts (s : State) : StoreOnly s (otherHosts s) :=
  otherHosts_keeps (P := StoreOnly s) (fun _ _ h => h.trans (.gaps _ _)) (fun _ _ h => h.trans (.otherHostStep _ _)) s
    (.refl s)

theorem StoreOnly.flushPages (pid p n : Nat) (s : State) : StoreOnly s (flushPages pid p n s) :=
  flushPages_keeps (P := StoreOnly s) pid (fun _ _ h => h.trans (.invalidatePage _ _ _))
    (fun _ h => h.trans (.otherHosts _)) n p s (.refl s)

theorem StoreOnly.tlbFlush (pid lo hi : Word) (s : State) : StoreOnly s (tlbFlush pid lo hi s) := by
  rcases tlbFlush_cases pid lo hi s with ⟨_, -, e⟩ | ⟨-, e⟩ <;> rw [e]
  · exact .raise _ _
  · exact (StoreOnly.flushPages _ _ _ s).trans (.respond _ _)

/-! The store stays in its canonical form and inside `[0, CAP)`. -/

/-- The store is canonical and inside, the hosts' registers are a map, and a line's 16 bytes are there. -/
structure StoreGood (s : State) : Prop where
  wf : Memory.wf s.mem = true
  inside : listedBelow s.mem s.cfg.cap = true
  hosts : rising 0 s.hosts = true

theorem StoreGood.respond {s : State} (h : StoreGood s) (r : Response) : StoreGood (respond r s) :=
  ⟨h.wf, h.inside, h.hosts⟩

theorem StoreGood.raise {s : State} (h : StoreGood s) (e : CmdError) : StoreGood (raise e s) := by
  cases e <;> exact ⟨h.wf, h.inside, h.hosts⟩

theorem StoreGood.deliver {s : State} (h : StoreGood s) (n : Nat) : StoreGood (deliver n s) :=
  ⟨h.wf, h.inside, rising_update h.hosts (Nat.zero_le _) _⟩

theorem StoreGood.gaps {s : State} (h : StoreGood s) (g : List (List (Nat × StoreStep))) :
    StoreGood { s with gaps := g } := ⟨h.wf, h.inside, h.hosts⟩

theorem StoreGood.stWrb {s : State} (h : StoreGood s) (addr value : Word) : StoreGood (stWrb addr value s) := by
  rcases stWrb_cases addr value s with ⟨-, e⟩ | ⟨ha, e⟩ <;> rw [e]
  · exact h.raise _
  · exact ⟨Memory.wf_setByte h.wf _ _, listedBelow_setByte h.inside ha _, h.hosts⟩

theorem StoreGood.stWrw {s : State} (h : StoreGood s) (addr value : Word) : StoreGood (stWrw addr value s) := by
  rcases stWrw_cases addr value s with ⟨-, e⟩ | ⟨ha, e⟩ <;> rw [e]
  · exact h.raise _
  · exact ⟨Memory.wf_setWord h.wf _ _, listedBelow_setWord h.inside (by omega) _, h.hosts⟩

theorem StoreGood.tlbRd {s : State} (h : StoreGood s) (pid page : Word) : StoreGood (tlbRd pid page s) := by
  rcases tlbRd_cases pid page s with ⟨_, -, e⟩ | ⟨hc, w, hw, e⟩ | ⟨-, -, e⟩ <;> rw [e]
  · exact h.raise _
  · exact ⟨Memory.wf_touch h.wf _ _,
      listedBelow_touch h.inside (line_inside (lineOf_lt (checkPage_eq_none.1 hc).2.2 _ _)) (hitWay_some hw).1, h.hosts⟩
  · exact h.respond _

theorem StoreGood.tlbIns {s : State} (h : StoreGood s) (pid page pte : Word) : StoreGood (tlbIns pid page pte s) := by
  rcases tlbIns_cases pid page pte s with ⟨_, -, e⟩ | ⟨hc, k, hk, e⟩ | ⟨-, -, e⟩ <;> rw [e]
  · exact h.raise _
  · exact ⟨Memory.wf_fillWay h.wf _ _ _ _,
      listedBelow_fillWay h.inside (line_inside (lineOf_lt (checkPage_eq_none.1 hc).2.2 _ _)) (victimWay_some hk).1 _ _,
      h.hosts⟩
  · exact h.respond _

theorem StoreGood.invalidatePage {s : State} (h : StoreGood s) (hN : 1 ≤ lines s.cfg) (pid page : Nat) :
    StoreGood (invalidatePage pid page s) :=
  ⟨Memory.wf_invalidateLine h.wf _ _, listedBelow_invalidateLine h.inside (line_inside (lineOf_lt hN _ _)) _, h.hosts⟩

theorem StoreGood.tlbInv {s : State} (h : StoreGood s) (pid page : Word) : StoreGood (tlbInv pid page s) := by
  rcases tlbInv_cases pid page s with ⟨_, -, e⟩ | ⟨hc, e⟩ <;> rw [e]
  · exact h.raise _
  · exact (h.invalidatePage (checkPage_eq_none.1 hc).2.2 _ _).respond _

theorem StoreGood.otherHostStep {s : State} (h : StoreGood s) (x : Nat × StoreStep) : StoreGood (otherHostStep s x) :=
  otherHostStep_keeps (P := StoreGood) (fun _ _ h => h.respond _) (fun _ _ h => h.raise _) (fun _ _ h => h.deliver _)
    (fun _ _ _ h => h.stWrb _ _) (fun _ _ _ h => h.stWrw _ _) (fun _ _ _ h => h.tlbRd _ _)
    (fun _ _ _ _ h => h.tlbIns _ _ _) (fun _ _ _ hc h => h.invalidatePage (checkPage_eq_none.1 hc).2.2 _ _) x s h

theorem StoreGood.flushPages {s : State} (h : StoreGood s) (hN : 1 ≤ lines s.cfg) (pid p n : Nat) :
    StoreGood (flushPages pid p n s) := by
  refine (flushPages_keeps (P := fun t => StoreGood t ∧ t.cfg = s.cfg) pid ?_ ?_ n p s ⟨h, rfl⟩).1
  · rintro p t ⟨ht, e⟩
    exact ⟨ht.invalidatePage (by rw [e]; exact hN) _ _, e⟩
  · rintro t ⟨ht, e⟩
    exact ⟨otherHosts_keeps (P := StoreGood) (fun _ _ h => h.gaps _) (fun _ _ h => h.otherHostStep _) t ht,
      (StoreOnly.otherHosts t).cfg.trans e⟩

theorem StoreGood.tlbFlush {s : State} (h : StoreGood s) (pid lo hi : Word) : StoreGood (tlbFlush pid lo hi s) := by
  rcases tlbFlush_cases pid lo hi s with ⟨_, -, e⟩ | ⟨hc, e⟩ <;> rw [e]
  · exact h.raise _
  · exact (h.flushPages (checkFlush_eq_none.1 hc).2.2.2 _ _ _).respond _

end Sys2Proof.Machine
end

