-- ==== Sys2Proof/Laws/Scheduler.lean ====
section
/-! SUPPORT. The laws of the scheduler's levels: a level after each change, the queue primitives, the first ready level,
the reset levels. -/

namespace Sys2Proof.Machine

theorem levelAt_setLevel (l l' : Nat) (lv : Level) (s : State) :
    levelAt (setLevel l lv s) l' = if l' = l ∧ l < s.levels.length then lv else levelAt s l' := by
  simp only [levelAt, setLevel_levels, List.getD_eq_getElem?_getD, List.getElem?_set]
  by_cases h : l = l'
  · subst h
    by_cases hl : l < s.levels.length
    · simp [hl]
    · simp [hl]
  · simp [h, Ne.symm h]

/-- A quota change changes one quota and nothing else of any level. -/
theorem levelAt_addQuota (l l' : Nat) (d : Word) (s : State) :
    levelAt (addQuota l d s) l' =
      if l' = l ∧ l < s.levels.length then { levelAt s l with slot := (levelAt s l).slot + d } else levelAt s l' :=
  levelAt_setLevel ..

@[simp] theorem length_levels_setLevel (l : Nat) (lv : Level) (s : State) :
    (setLevel l lv s).levels.length = s.levels.length := by simp

@[simp] theorem length_levels_addQuota (l : Nat) (d : Word) (s : State) :
    (addQuota l d s).levels.length = s.levels.length := length_levels_setLevel ..

/-- `enqueue` (45_queue.md R201). -/
theorem enqueue_cases (l : Nat) (item : Word) (s : State) :
    ((levelAt s l).items.length = s.cfg.maxQueue ∧ enqueue l item s = (s, false)) ∨
      ((levelAt s l).items.length ≠ s.cfg.maxQueue ∧
        enqueue l item s = (setLevel l { levelAt s l with items := (levelAt s l).items ++ [item] } s, true)) := by
  simp only [enqueue]
  split
  · exact .inl ⟨‹_›, rfl⟩
  · exact .inr ⟨‹_›, rfl⟩

/-- `dequeue` (R202). -/
theorem dequeue_cases (l : Nat) (s : State) :
    ((levelAt s l).items = [] ∧ dequeue l s = none) ∨
      ∃ item rest, (levelAt s l).items = item :: rest ∧
        dequeue l s = some (item, setLevel l { levelAt s l with items := rest } s) := by
  simp only [dequeue]
  split
  · exact .inl ⟨‹_›, rfl⟩
  · exact .inr ⟨_, _, ‹_›, rfl⟩

theorem queueEmpty_eq_false {l : Nat} {s : State} :
    queueEmpty l s = false ↔ l < s.cfg.maxPrio ∧ (levelAt s l).items ≠ [] := by
  simp [queueEmpty]

theorem queueEmpty_eq_true {l : Nat} {s : State} :
    queueEmpty l s = true ↔ s.cfg.maxPrio ≤ l ∨ (levelAt s l).items = [] := by
  simp [queueEmpty]

/-- No level is ready exactly when every queue is empty. -/
theorem firstReady_eq_none {s : State} :
    firstReady s = none ↔ ∀ l < s.cfg.maxPrio, (levelAt s l).items = [] := by
  simp only [firstReady, List.find?_eq_none, List.mem_range, Bool.not_eq_true', Bool.not_eq_false]
  refine forall₂_congr fun l hl => ?_
  rw [queueEmpty_eq_true]
  exact ⟨fun h => h.resolve_left (by omega), .inr⟩

/-- The first ready level is not empty, and every level before it is. -/
theorem firstReady_eq_some {s : State} {l : Nat} :
    firstReady s = some l ↔
      l < s.cfg.maxPrio ∧ (levelAt s l).items ≠ [] ∧ ∀ l' < l, (levelAt s l').items = [] := by
  simp only [firstReady, List.find?_range_eq_some, Bool.not_eq_true', Bool.not_not]
  rw [queueEmpty_eq_false]
  constructor
  · rintro ⟨⟨h1, h2⟩, h3, h4⟩
    refine ⟨h1, h2, fun l' hl' => ?_⟩
    have := h4 l' hl'
    rw [queueEmpty_eq_true] at this
    exact this.resolve_left (by omega)
  · rintro ⟨h1, h2, h3⟩
    refine ⟨⟨h1, h2⟩, List.mem_range.2 h1, fun l' hl' => ?_⟩
    simp [queueEmpty_eq_true, h3 l' hl']

/-- The levels after reset or `SCH.INIT` (46_scheduler.md R216). -/
theorem getD_initialLevels (c : Config) {l : Nat} (h : l < c.maxPrio) (d : Level) :
    (initialLevels c).getD l d = { items := [], slot := c.quotaInit l } := by
  simp [initialLevels, List.getD_eq_getElem?_getD, h]

@[simp] theorem length_initialLevels (c : Config) : (initialLevels c).length = c.maxPrio := by simp [initialLevels]

theorem levelsOk_iff {s : State} :
    levelsOk s = true ↔ s.levels.length = s.cfg.maxPrio ∧ ∀ lv ∈ s.levels, lv.items.length ≤ s.cfg.maxQueue := by
  simp [levelsOk]

/-- Within the invariant every level's queue is within its capacity (10_state.md R32). -/
theorem levelAt_items_le {s : State} (h : levelsOk s = true) (l : Nat) :
    (levelAt s l).items.length ≤ s.cfg.maxQueue := by
  rw [levelsOk_iff] at h
  simp only [levelAt, List.getD_eq_getElem?_getD]
  cases e : s.levels[l]? with
  | none => simp
  | some lv => exact h.2 lv (List.mem_of_getElem? e)

theorem levelsOk_initial {s : State} (h : s.levels = initialLevels s.cfg) : levelsOk s = true := by
  rw [levelsOk_iff, h]
  refine ⟨length_initialLevels _, fun lv hlv => ?_⟩
  simp only [initialLevels, List.mem_map] at hlv
  obtain ⟨l, -, rfl⟩ := hlv
  exact Nat.zero_le _

theorem levelsOk_setLevel {s : State} (h : levelsOk s = true) (l : Nat) {lv : Level}
    (hlv : lv.items.length ≤ s.cfg.maxQueue) : levelsOk (setLevel l lv s) = true := by
  rw [levelsOk_iff] at h ⊢
  refine ⟨by simpa using h.1, fun x hx => ?_⟩
  rcases List.mem_or_eq_of_mem_set hx with hx | rfl
  · exact h.2 x hx
  · exact hlv

theorem levelsOk_addQuota {s : State} (h : levelsOk s = true) (l : Nat) (d : Word) :
    levelsOk (addQuota l d s) = true := levelsOk_setLevel h l (levelAt_items_le h l)

end Sys2Proof.Machine
end

