-- ==== Sys2Proof/Laws/Parallel.lean ====
section
/-! SUPPORT. The store unit runs on the configuration, the store, the hosts' registers and the gaps alone: two states
that agree on these answer alike, and `FLAGS` only gains the same mark in both. -/

namespace Sys2Proof.Machine

/-- Two states are equal when every field is. -/
theorem State.eq_of_fields {s t : State} (cfg : s.cfg = t.cfg) (mem : s.mem = t.mem) (flags : s.flags = t.flags)
    (levels : s.levels = t.levels) (response : s.response = t.response) (hosts : s.hosts = t.hosts)
    (events : s.events = t.events) (pgd : s.pgd = t.pgd) (stats : s.stats = t.stats)
    (freeCount : s.freeCount = t.freeCount) (inputs : s.inputs = t.inputs) (gaps : s.gaps = t.gaps) : s = t := by
  cases s
  cases t
  simp_all

/-- The two states agree on what the store unit runs on. -/
structure SameStore (s s' : State) : Prop where
  cfg : s.cfg = s'.cfg
  mem : s.mem = s'.mem
  hosts : s.hosts = s'.hosts
  gaps : s.gaps = s'.gaps

theorem SameStore.refl (s : State) : SameStore s s := ⟨rfl, rfl, rfl, rfl⟩

/-- From `s` to `t` and from `s'` to `t'` the store unit did the same. -/
structure Parallel (s t s' t' : State) : Prop where
  same : SameStore t t'
  marks : ∃ d : BitVec 2, (d = 0 ∨ d = 1) ∧ t.flags = s.flags ||| d ∧ t'.flags = s'.flags ||| d
  port : s.response = s'.response → t.response = t'.response

theorem Parallel.refl {s s' : State} (h : SameStore s s') : Parallel s s s' s' :=
  ⟨h, ⟨0, .inl rfl, by simp, by simp⟩, id⟩

theorem Parallel.trans {s t u s' t' u' : State} (h : Parallel s t s' t') (h' : Parallel t u t' u') :
    Parallel s u s' u' := by
  obtain ⟨-, ⟨d, hd, h1, h2⟩, hp⟩ := h
  obtain ⟨hs, ⟨d', hd', h1', h2'⟩, hp'⟩ := h'
  refine ⟨hs, ⟨d ||| d', ?_, ?_, ?_⟩, hp' ∘ hp⟩
  · rcases hd with rfl | rfl <;> rcases hd' with rfl | rfl <;> decide
  · rw [h1', h1, BitVec.or_assoc]
  · rw [h2', h2, BitVec.or_assoc]

/-- A step of the store unit that answers: in both states it does the same and answers the same. -/
structure Answers (s t s' t' : State) : Prop extends Parallel s t s' t' where
  response : t.response = t'.response

theorem Answers.respond {s s' : State} (h : SameStore s s') (r : Response) :
    Answers s (respond r s) s' (respond r s') :=
  { same := ⟨h.cfg, h.mem, h.hosts, h.gaps⟩, marks := ⟨0, .inl rfl, by simp, by simp⟩, port := fun _ => rfl, response := rfl }

theorem Answers.raise {s s' : State} (h : SameStore s s') (e : CmdError) : Answers s (raise e s) s' (raise e s') := by
  cases e with
  | badOp => exact .respond h _
  | badArg k => exact .respond h _
  | devErr a =>
    exact
      { same := ⟨h.cfg, h.mem, h.hosts, h.gaps⟩, marks := ⟨1, .inr rfl, rfl, rfl⟩, port := fun _ => rfl, response := rfl }

/-- The same change of the store, then the same response. -/
theorem Answers.write {s s' : State} (h : SameStore s s') (m : Memory) (r : Response) :
    Answers s (Machine.respond r { s with mem := m }) s' (Machine.respond r { s' with mem := m }) :=
  { same := ⟨h.cfg, rfl, h.hosts, h.gaps⟩, marks := ⟨0, .inl rfl, by simp, by simp⟩, port := fun _ => rfl, response := rfl }

/-- The same, where the second state's configuration has been rewritten to the first's. -/
theorem Answers.write_cfg {s s' : State} (h : SameStore s s') (m : Memory) (r : Response) :
    Answers s (Machine.respond r { s with mem := m }) s' (Machine.respond r { s' with cfg := s.cfg, mem := m }) :=
  { same := ⟨rfl, rfl, h.hosts, h.gaps⟩, marks := ⟨0, .inl rfl, by simp, by simp⟩, port := fun _ => rfl, response := rfl }

theorem Answers.stRdb {s s' : State} (h : SameStore s s') (addr : Word) :
    Answers s (stRdb addr s) s' (stRdb addr s') := by
  simp only [Machine.stRdb, memRead1, ← h.cfg, ← h.mem]
  split
  · exact .raise h _
  · exact .respond h _

theorem Answers.stWrb {s s' : State} (h : SameStore s s') (addr value : Word) :
    Answers s (stWrb addr value s) s' (stWrb addr value s') := by
  rcases stWrb_cases addr value s with ⟨hc, e⟩ | ⟨hc, e⟩ <;> rcases stWrb_cases addr value s' with ⟨hc', e'⟩ | ⟨hc', e'⟩
  · rw [e, e']
    exact .raise h _
  · rw [h.cfg] at hc
    omega
  · rw [h.cfg] at hc
    omega
  · rw [e, e', ← h.mem]
    exact .write h _ _

theorem Answers.stRdw {s s' : State} (h : SameStore s s') (addr : Word) :
    Answers s (stRdw addr s) s' (stRdw addr s') := by
  simp only [Machine.stRdw, memRead4, ← h.cfg, ← h.mem]
  split
  · exact .raise h _
  · exact .respond h _

theorem Answers.stWrw {s s' : State} (h : SameStore s s') (addr value : Word) :
    Answers s (stWrw addr value s) s' (stWrw addr value s') := by
  rcases stWrw_cases addr value s with ⟨hc, e⟩ | ⟨hc, e⟩ <;> rcases stWrw_cases addr value s' with ⟨hc', e'⟩ | ⟨hc', e'⟩
  · rw [e, e', ← h.cfg]
    exact .raise h _
  · rw [h.cfg] at hc
    omega
  · rw [h.cfg] at hc
    omega
  · rw [e, e', ← h.mem]
    exact .write h _ _

theorem Answers.tlbRd {s s' : State} (h : SameStore s s') (pid page : Word) :
    Answers s (tlbRd pid page s) s' (tlbRd pid page s') := by
  simp only [Machine.tlbRd, ← h.cfg, ← h.mem]
  split
  · exact .raise h _
  · split
    · exact (.write_cfg h _ _)
    · exact .respond h _

theorem Answers.tlbIns {s s' : State} (h : SameStore s s') (pid page pte : Word) :
    Answers s (tlbIns pid page pte s) s' (tlbIns pid page pte s') := by
  simp only [Machine.tlbIns, ← h.cfg, ← h.mem]
  split
  · exact .raise h _
  · split
    · exact (.write_cfg h _ _)
    · exact .respond h _

theorem Answers.tlbInv {s s' : State} (h : SameStore s s') (pid page : Word) :
    Answers s (tlbInv pid page s) s' (tlbInv pid page s') := by
  simp only [Machine.tlbInv, ← h.cfg, ← h.mem]
  split
  · exact .raise h _
  · exact (.write_cfg h _ _)

theorem Answers.tlbInvall {s s' : State} (h : SameStore s s') (pid : Word) :
    Answers s (tlbInvall pid s) s' (tlbInvall pid s') := by
  simp only [Machine.tlbInvall, ← h.cfg]
  split
  · exact .raise h _
  · exact .respond h _

theorem Parallel.invalidatePage {s s' : State} (h : SameStore s s') (pid page : Nat) :
    Parallel s (invalidatePage pid page s) s' (invalidatePage pid page s') :=
  ⟨⟨h.cfg, by simp [Machine.invalidatePage, h.cfg, h.mem], h.hosts, h.gaps⟩,
    ⟨0, .inl rfl, by simp [Machine.invalidatePage], by simp [Machine.invalidatePage]⟩, id⟩

/-- A response goes to its host alike. -/
theorem Answers.deliver {s t s' t' : State} (h : Answers s t s' t') (n : Nat) :
    Parallel s (deliver n t) s' (deliver n t') :=
  ⟨⟨h.same.cfg, h.same.mem, by simp [h.same.hosts, h.response], h.same.gaps⟩, h.marks, fun _ => h.response⟩

theorem Parallel.otherHostStep {s s' : State} (h : SameStore s s') (x : Nat × StoreStep) :
    Parallel s (otherHostStep s x) s' (otherHostStep s' x) := by
  obtain ⟨n, st⟩ := x
  cases st with
  | rdb addr => exact (Answers.stRdb h _).deliver n
  | wrb addr value => exact (Answers.stWrb h _ _).deliver n
  | rdw addr => exact (Answers.stRdw h _).deliver n
  | wrw addr value => exact (Answers.stWrw h _ _).deliver n
  | dump => exact (Answers.respond h _).deliver n
  | bdump => exact (Answers.respond h _).deliver n
  | rd pid page => exact (Answers.tlbRd h _ _).deliver n
  | ins pid page pte => exact (Answers.tlbIns h _ _ _).deliver n
  | inv pid page => exact (Answers.tlbInv h _ _).deliver n
  | invall pid => exact (Answers.tlbInvall h _).deliver n
  | flushPage pid page =>
    show Parallel s (flushPage pid page s) s' (flushPage pid page s')
    simp only [flushPage, ← h.cfg]
    split
    · exact .refl h
    · exact .invalidatePage h _ _
  | flushDone => exact (Answers.respond h _).deliver n

theorem Parallel.otherHosts {s s' : State} (h : SameStore s s') :
    Parallel s (otherHosts s) s' (otherHosts s') := by
  have hfold : ∀ (l : List (Nat × StoreStep)) (s s' : State), SameStore s s' →
      Parallel s (l.foldl Machine.otherHostStep s) s' (l.foldl Machine.otherHostStep s') := by
    intro l
    induction l with
    | nil => exact fun s s' h => .refl h
    | cons x l ih => exact fun s s' h => (Parallel.otherHostStep h x).trans (ih _ _ (Parallel.otherHostStep h x).same)
  simp only [Machine.otherHosts, ← h.gaps]
  split
  · exact .refl h
  · rename_i g rest _
    have h0 : SameStore { s with gaps := rest } { s' with gaps := rest } := ⟨h.cfg, h.mem, h.hosts, rfl⟩
    have := hfold g _ _ h0
    exact ⟨this.same, this.marks, this.port⟩

theorem Parallel.flushPages {s s' : State} (h : SameStore s s') (pid p n : Nat) :
    Parallel s (flushPages pid p n s) s' (flushPages pid p n s') := by
  induction n generalizing p s s' with
  | zero => exact .refl h
  | succ n ih =>
    have h1 := Parallel.invalidatePage h pid p
    have h2 := Parallel.otherHosts h1.same
    exact (h1.trans h2).trans (ih h2.same _)

theorem Answers.tlbFlush {s s' : State} (h : SameStore s s') (pid lo hi : Word) :
    Answers s (tlbFlush pid lo hi s) s' (tlbFlush pid lo hi s') := by
  simp only [Machine.tlbFlush, ← h.cfg]
  split
  · exact .raise h _
  · have h1 := Parallel.flushPages h pid.toNat lo.toNat (hi.toNat - lo.toNat)
    exact { same := ⟨h1.same.cfg, h1.same.mem, h1.same.hosts, h1.same.gaps⟩, marks := h1.marks, port := fun _ => rfl,
            response := rfl }

/-- The command of the Codec or of the store unit in two states that agree on the store: both complete, and they do the
same and answer the same. -/
theorem exec_answers {i : Instr} (hi : unitOf i ≠ 3) {s s' : State} (h : SameStore s s') :
    ∃ t t', exec i s = .next t ∧ exec i s' = .next t' ∧ Answers s t s' t' ∧ StoreOnly s t ∧ StoreOnly s' t' := by
  have codec : ∀ r : Response, ∃ t t', (Host.Outcome.next (respond r s) : Host.Outcome State Fault Refusal) = .next t ∧
      (Host.Outcome.next (respond r s') : Host.Outcome State Fault Refusal) = .next t' ∧
      Answers s t s' t' ∧ StoreOnly s t ∧ StoreOnly s' t' :=
    fun r => ⟨_, _, rfl, rfl, .respond h r, .respond _ _, .respond _ _⟩
  cases i with
  | ptePack present frame dirty swapped swapType swapOff =>
    simp only [exec, execPtePack, ← h.cfg]
    exact codec _
  | vaOff addr => exact codec _
  | vaPgn addr => exact codec _
  | pteFpn pte => exact codec _
  | pteSwp pte =>
    simp only [exec, execPteSwp, ← h.cfg]
    exact codec _
  | sumDec word => exact codec _
  | pteUnpack pte =>
    simp only [exec, execPteUnpack, ← h.cfg]
    exact codec _
  | stRdb addr => exact ⟨_, _, rfl, rfl, .stRdb h _, .stRdb _ _, .stRdb _ _⟩
  | stWrb addr value => exact ⟨_, _, rfl, rfl, .stWrb h _ _, .stWrb _ _ _, .stWrb _ _ _⟩
  | stRdw addr => exact ⟨_, _, rfl, rfl, .stRdw h _, .stRdw _ _, .stRdw _ _⟩
  | stWrw addr value => exact ⟨_, _, rfl, rfl, .stWrw h _ _, .stWrw _ _ _, .stWrw _ _ _⟩
  | stDump => exact codec _
  | stBdump => exact codec _
  | tlbRd pid page => exact ⟨_, _, rfl, rfl, .tlbRd h _ _, .tlbRd _ _ _, .tlbRd _ _ _⟩
  | tlbIns pid page pte => exact ⟨_, _, rfl, rfl, .tlbIns h _ _ _, .tlbIns _ _ _ _, .tlbIns _ _ _ _⟩
  | tlbInv pid page => exact ⟨_, _, rfl, rfl, .tlbInv h _ _, .tlbInv _ _ _, .tlbInv _ _ _⟩
  | tlbFlush pid lo hi => exact ⟨_, _, rfl, rfl, .tlbFlush h _ _ _, .tlbFlush _ _ _ _, .tlbFlush _ _ _ _⟩
  | tlbInvall pid => exact ⟨_, _, rfl, rfl, .tlbInvall h _, .tlbInvall _ _, .tlbInvall _ _⟩
  | schInit => exact (hi (by simp [unitOf, Instr.opcode])).elim
  | schGet => exact (hi (by simp [unitOf, Instr.opcode])).elim
  | schPut proc prio => exact (hi (by simp [unitOf, Instr.opcode])).elim
  | schEnd proc prio pid lo hi' => exact (hi (by simp [unitOf, Instr.opcode])).elim
  | schEmpty => exact (hi (by simp [unitOf, Instr.opcode])).elim
  | schSlot level => exact (hi (by simp [unitOf, Instr.opcode])).elim

end Sys2Proof.Machine
end

