-- ==== Sys2Proof/Laws/Exec.lean ====
section
/-! SUPPORT. What the scheduler's commands can do, `SCH.END` among them, and what holds of every command: it completes,
and what it leaves alone. -/

namespace Sys2Proof.Machine

/-- A scheduler command but `SCH.END` runs on the configuration and the levels alone: it writes the levels, one mark and
the response. -/
theorem exec_scheduler {i : Instr} (hi : unitOf i = 3) (he : ∀ proc prio pid lo hi, i ≠ .schEnd proc prio pid lo hi)
    (s : State) :
    ∃ (L : List Level) (r : Response) (g : BitVec 2 → BitVec 2), (g = id ∨ g = setQFull ∨ g = clearQFull) ∧
      ∀ s' : State, s'.cfg = s.cfg → s'.levels = s.levels →
        exec i s' = .next (respond r { s' with levels := L, flags := g s'.flags }) := by
  obtain ⟨c, m, f, L, rsp, hs, es, pg, st, fc, inp, gp⟩ := s
  cases i with
  | schInit =>
    refine ⟨initialLevels c, { status := .ok }, clearQFull, .inr (.inr rfl), ?_⟩
    rintro ⟨⟩ rfl rfl
    rfl
  | schGet =>
    cases hr : firstReady ⟨c, m, f, L, rsp, hs, es, pg, st, fc, inp, gp⟩ with
    | none =>
      refine ⟨L, { status := .empty }, id, .inl rfl, ?_⟩
      rintro ⟨⟩ rfl rfl
      simp only [firstReady, queueEmpty, levelAt] at hr
      simp only [exec, execSchGet, firstReady, queueEmpty, levelAt, hr, id]
    | some l =>
      rcases dequeue_cases l ⟨c, m, f, L, rsp, hs, es, pg, st, fc, inp, gp⟩ with ⟨hi, hd⟩ | ⟨x, rest, hi, hd⟩
      · exact absurd hi (firstReady_eq_some.1 hr).2.1
      · refine ⟨(addQuota l (-1) (setLevel l
            { levelAt ⟨c, m, f, L, rsp, hs, es, pg, st, fc, inp, gp⟩ l with items := rest }
            ⟨c, m, f, L, rsp, hs, es, pg, st, fc, inp, gp⟩)).levels,
          { status := .ok, res0 := x, res1 := BitVec.ofNat 32 l }, id, .inl rfl, ?_⟩
        rintro ⟨⟩ rfl rfl
        simp only [firstReady, queueEmpty, levelAt] at hr hi
        simp only [exec, execSchGet, firstReady, queueEmpty, dequeue, addQuota, setLevel, levelAt, hr, hi, id]
  | schPut proc prio =>
    cases hcheck : checkPut c prio with
    | some e =>
      refine ⟨L, (raise e ⟨c, m, f, L, rsp, hs, es, pg, st, fc, inp, gp⟩).response, id, .inl rfl, ?_⟩
      rintro ⟨⟩ rfl rfl
      have he' : e = .badArg 1 := by
        simp only [checkPut] at hcheck
        split at hcheck <;> cases hcheck
        rfl
      subst he'
      simp only [exec, execSchPut, hcheck]
      rfl
    | none =>
      rcases enqueue_cases prio.toNat proc ⟨c, m, f, L, rsp, hs, es, pg, st, fc, inp, gp⟩ with ⟨hq, -⟩ | ⟨hq, -⟩
      · refine ⟨(addQuota prio.toNat 1 ⟨c, m, f, L, rsp, hs, es, pg, st, fc, inp, gp⟩).levels, { status := .full },
          setQFull, .inr (.inl rfl), ?_⟩
        rintro ⟨⟩ rfl rfl
        simp only [levelAt] at hq
        simp only [exec, execSchPut, hcheck, enqueue, levelAt, hq, addQuota, setLevel]
        rfl
      · refine ⟨(addQuota prio.toNat 1 (setLevel prio.toNat
            { levelAt ⟨c, m, f, L, rsp, hs, es, pg, st, fc, inp, gp⟩ prio.toNat with
              items := (levelAt ⟨c, m, f, L, rsp, hs, es, pg, st, fc, inp, gp⟩ prio.toNat).items ++ [proc] }
            ⟨c, m, f, L, rsp, hs, es, pg, st, fc, inp, gp⟩)).levels, { status := .ok }, id, .inl rfl, ?_⟩
        rintro ⟨⟩ rfl rfl
        simp only [levelAt] at hq
        simp only [exec, execSchPut, hcheck, enqueue, levelAt, hq, addQuota, setLevel, id]
        rfl
  | schEnd proc prio pid lo hi' => exact absurd rfl (he _ _ _ _ _)
  | schEmpty =>
    refine ⟨L, { status := .ok, res0 := if ((List.range c.maxPrio).all fun l =>
        queueEmpty l ⟨c, m, f, L, rsp, hs, es, pg, st, fc, inp, gp⟩) then 1 else 0 }, id, .inl rfl, ?_⟩
    rintro ⟨⟩ rfl rfl
    rfl
  | schSlot level =>
    cases hcheck : checkSlot c level with
    | some e =>
      refine ⟨L, (raise e ⟨c, m, f, L, rsp, hs, es, pg, st, fc, inp, gp⟩).response, id, .inl rfl, ?_⟩
      rintro ⟨⟩ rfl rfl
      have he' : e = .badArg 0 := by
        simp only [checkSlot] at hcheck
        split at hcheck <;> cases hcheck
        rfl
      subst he'
      simp only [exec, execSchSlot, hcheck]
      rfl
    | none =>
      refine ⟨L, Response.mk .ok (levelAt ⟨c, m, f, L, rsp, hs, es, pg, st, fc, inp, gp⟩ level.toNat).slot 0 0 0 0 0, id,
        .inl rfl, ?_⟩
      rintro ⟨⟩ rfl rfl
      simp only [exec, execSchSlot, hcheck]
      rfl
  | _ => simp [unitOf, Instr.opcode] at hi

/-- A flush does not look at the levels. -/
theorem flushPages_addQuota (l : Nat) (d : Word) (pid p n : Nat) (s : State) :
    flushPages pid p n (addQuota l d s) = addQuota l d (flushPages pid p n s) := by
  have h : SameStore (addQuota l d s) s := ⟨rfl, rfl, rfl, rfl⟩
  have hp := Parallel.flushPages h pid p n
  have h1 := StoreOnly.flushPages pid p n (addQuota l d s)
  have h2 := StoreOnly.flushPages pid p n s
  obtain ⟨e, -, hf, hf'⟩ := hp.marks
  refine State.eq_of_fields hp.same.cfg hp.same.mem ?_ ?_ (hp.port rfl) hp.same.hosts ?_ ?_ ?_ ?_ ?_ hp.same.gaps
  · simp only [hf, addQuota_flags, hf']
  · rw [h1.levels]
    simp only [addQuota, setLevel, levelAt, h2.levels]
  · simp only [h1.events, addQuota_events, h2.events]
  · simp only [h1.pgd, addQuota_pgd, h2.pgd]
  · simp only [h1.stats, addQuota_stats, h2.stats]
  · simp only [h1.freeCount, addQuota_freeCount, h2.freeCount]
  · simp only [h1.inputs, addQuota_inputs, h2.inputs]

/-- The state after the flush step of `SCH.END` (46_scheduler.md R222 step 2). -/
def afterFlush (pid lo hi : Word) (s : State) : State :=
  if hasLine s.cfg then flushPages pid.toNat lo.toNat (hi.toNat - lo.toNat) s else s

theorem StoreOnly.afterFlush (pid lo hi : Word) (s : State) : StoreOnly s (afterFlush pid lo hi s) := by
  simp only [Machine.afterFlush]
  split
  · exact .flushPages _ _ _ s
  · exact .refl s

/-- The walk reads the configuration and the page directory alone. -/
theorem walk_congr {s t : State} (hc : t.cfg = s.cfg) (hp : t.pgd = s.pgd) (pid lo hi : Nat) :
    walk t pid lo hi = walk s pid lo hi := by
  have : reclaimOf t pid = reclaimOf s pid := by
    funext p
    simp only [reclaimOf, pgdRead, hc, hp]
    rfl
  simp only [walk, this]

/-- What `SCH.END` can do. -/
theorem execSchEnd_cases (proc prio pid lo hi : Word) (s : State) :
    (∃ e, checkEnd s.cfg prio pid lo hi = some e ∧ exec (.schEnd proc prio pid lo hi) s = .next (raise e s)) ∨
      (checkEnd s.cfg prio pid lo hi = none ∧
        exec (.schEnd proc prio pid lo hi) s =
          .next (respond
            { status := .ok,
              res0 := BitVec.ofNat 32 ((walk s pid.toNat lo.toNat hi.toNat).countP Event.isRam),
              res1 := BitVec.ofNat 32 ((walk s pid.toNat lo.toNat hi.toNat).countP Event.isSwap) }
            (emit (walk s pid.toNat lo.toNat hi.toNat ++ [.pcbRelease proc])
              (addQuota prio.toNat 1 (afterFlush pid lo hi s))))) := by
  cases hc : checkEnd s.cfg prio pid lo hi with
  | some e => exact .inl ⟨e, rfl, by simp [exec, execSchEnd, hc]⟩
  | none =>
    refine .inr ⟨rfl, ?_⟩
    have h2 : (if hasLine (addQuota prio.toNat 1 s).cfg then
          flushPages pid.toNat lo.toNat (hi.toNat - lo.toNat) (addQuota prio.toNat 1 s)
        else addQuota prio.toNat 1 s) = addQuota prio.toNat 1 (afterFlush pid lo hi s) := by
      simp only [afterFlush, addQuota_cfg, flushPages_addQuota]
      split <;> rfl
    have h3 := StoreOnly.afterFlush pid lo hi s
    have hw : walk (addQuota prio.toNat 1 (afterFlush pid lo hi s)) pid.toNat lo.toNat hi.toNat =
        walk s pid.toNat lo.toNat hi.toNat := walk_congr h3.cfg h3.pgd _ _ _
    simp only [exec, execSchEnd, hc, h2, hw]

/-- Every command answers a next state. -/
theorem exec_next (i : Instr) (s : State) : ∃ t, exec i s = .next t := by
  by_cases hi : unitOf i = 3
  · by_cases he : ∃ proc prio pid lo hi, i = .schEnd proc prio pid lo hi
    · obtain ⟨proc, prio, pid, lo, hi', rfl⟩ := he
      rcases execSchEnd_cases proc prio pid lo hi' s with ⟨_, -, h⟩ | ⟨-, h⟩ <;> exact ⟨_, h⟩
    · obtain ⟨L, r, g, -, h⟩ := exec_scheduler hi (fun _ _ _ _ _ e => he ⟨_, _, _, _, _, e⟩) s
      exact ⟨_, h s rfl rfl⟩
  · obtain ⟨t, -, h, -⟩ := exec_answers hi (SameStore.refl s)
    exact ⟨t, h⟩

/-- What every command leaves alone. -/
theorem exec_keeps {i : Instr} {s t : State} (h : exec i s = .next t) :
    t.cfg = s.cfg ∧ t.pgd = s.pgd ∧ t.stats = s.stats ∧ t.freeCount = s.freeCount ∧ t.inputs = s.inputs := by
  by_cases hi : unitOf i = 3
  · by_cases he : ∃ proc prio pid lo hi, i = .schEnd proc prio pid lo hi
    · obtain ⟨proc, prio, pid, lo, hi', rfl⟩ := he
      rcases execSchEnd_cases proc prio pid lo hi' s with ⟨_, -, e⟩ | ⟨-, e⟩ <;> rw [e] at h <;> cases h
      · simp
      · have h3 := StoreOnly.afterFlush pid lo hi' s
        simp [h3.cfg, h3.pgd, h3.stats, h3.freeCount, h3.inputs]
    · obtain ⟨L, r, g, -, e⟩ := exec_scheduler hi (fun _ _ _ _ _ e => he ⟨_, _, _, _, _, e⟩) s
      rw [e s rfl rfl] at h
      cases h
      simp
  · obtain ⟨t', -, e, -, -, hs, -⟩ := exec_answers hi (SameStore.refl s)
    rw [e] at h
    cases h
    exact ⟨hs.cfg, hs.pgd, hs.stats, hs.freeCount, hs.inputs⟩

end Sys2Proof.Machine
end

