-- ==== Sys2Proof/Laws/Record.lean ====
section
/-! SUPPORT. The fields of a command record (30_encoding.md R88): what `recOp` and `recArg` read from a record that was
put together. -/

namespace Sys2Proof

/-- Bit `i` of a record: its field and the bit there. -/
theorem getLsbD_record (op : BitVec 8) (a0 a1 a2 a3 a4 a5 : Word) (i : Nat) :
    (record op a0 a1 a2 a3 a4 a5).getLsbD i =
      if i < 32 then a5.getLsbD i
      else if i < 64 then a4.getLsbD (i - 32)
      else if i < 96 then a3.getLsbD (i - 64)
      else if i < 128 then a2.getLsbD (i - 96)
      else if i < 160 then a1.getLsbD (i - 128)
      else if i < 192 then a0.getLsbD (i - 160)
      else op.getLsbD (i - 192) := by
  have h : BitVec.getLsbD (w := 8 + 32 + 32 + 32 + 32 + 32 + 32) (op ++ a0 ++ a1 ++ a2 ++ a3 ++ a4 ++ a5) i =
      if i < 32 then a5.getLsbD i
      else if i - 32 < 32 then a4.getLsbD (i - 32)
      else if i - 32 - 32 < 32 then a3.getLsbD (i - 32 - 32)
      else if i - 32 - 32 - 32 < 32 then a2.getLsbD (i - 32 - 32 - 32)
      else if i - 32 - 32 - 32 - 32 < 32 then a1.getLsbD (i - 32 - 32 - 32 - 32)
      else if i - 32 - 32 - 32 - 32 - 32 < 32 then a0.getLsbD (i - 32 - 32 - 32 - 32 - 32)
      else op.getLsbD (i - 32 - 32 - 32 - 32 - 32 - 32) := by
    simp only [BitVec.getLsbD_append]
  refine Eq.trans h ?_
  by_cases h0 : i < 32
  · simp [h0]
  by_cases h1 : i < 64
  · simp only [h0, h1, if_false, if_true]
    rw [if_pos (by omega)]
  by_cases h2 : i < 96
  · simp only [h0, h1, h2, Nat.sub_sub, if_false, if_true]
    rw [if_neg (by omega), if_pos (by omega)]
  by_cases h3 : i < 128
  · simp only [h0, h1, h2, h3, Nat.sub_sub, if_false, if_true]
    rw [if_neg (by omega), if_neg (by omega), if_pos (by omega)]
  by_cases h4 : i < 160
  · simp only [h0, h1, h2, h3, h4, Nat.sub_sub, if_false, if_true]
    rw [if_neg (by omega), if_neg (by omega), if_neg (by omega), if_pos (by omega)]
  by_cases h5 : i < 192
  · simp only [h0, h1, h2, h3, h4, h5, Nat.sub_sub, if_false, if_true]
    rw [if_neg (by omega), if_neg (by omega), if_neg (by omega), if_neg (by omega), if_pos (by omega)]
  · simp only [h0, h1, h2, h3, h4, h5, Nat.sub_sub, if_false]
    rw [if_neg (by omega), if_neg (by omega), if_neg (by omega), if_neg (by omega), if_neg (by omega)]

@[simp] theorem recOp_record (op : BitVec 8) (a0 a1 a2 a3 a4 a5 : Word) : recOp (record op a0 a1 a2 a3 a4 a5) = op := by
  refine BitVec.eq_of_getLsbD_eq fun i hi => ?_
  rw [recOp, BitVec.getLsbD_extractLsb', getLsbD_record, decide_eq_true hi, Bool.true_and]
  rw [if_neg (by omega), if_neg (by omega), if_neg (by omega), if_neg (by omega), if_neg (by omega), if_neg (by omega),
    show 192 + i - 192 = i by omega]

/-- The operands of a record, in order. -/
theorem recArg_record (op : BitVec 8) (a0 a1 a2 a3 a4 a5 : Word) :
    recArg (record op a0 a1 a2 a3 a4 a5) 0 = a0 ∧ recArg (record op a0 a1 a2 a3 a4 a5) 1 = a1 ∧
      recArg (record op a0 a1 a2 a3 a4 a5) 2 = a2 ∧ recArg (record op a0 a1 a2 a3 a4 a5) 3 = a3 ∧
      recArg (record op a0 a1 a2 a3 a4 a5) 4 = a4 ∧ recArg (record op a0 a1 a2 a3 a4 a5) 5 = a5 := by
  have h (k : Nat) (v : Word) (hv : ∀ i < 32, (record op a0 a1 a2 a3 a4 a5).getLsbD (160 - 32 * k + i) = v.getLsbD i) :
      recArg (record op a0 a1 a2 a3 a4 a5) k = v := by
    refine BitVec.eq_of_getLsbD_eq fun i hi => ?_
    rw [recArg, BitVec.getLsbD_extractLsb', hv i hi, decide_eq_true hi, Bool.true_and]
  refine ⟨h 0 a0 fun i hi => ?_, h 1 a1 fun i hi => ?_, h 2 a2 fun i hi => ?_, h 3 a3 fun i hi => ?_,
    h 4 a4 fun i hi => ?_, h 5 a5 fun i hi => ?_⟩ <;> rw [getLsbD_record]
  · rw [if_neg (by omega), if_neg (by omega), if_neg (by omega), if_neg (by omega), if_neg (by omega), if_pos (by omega),
      show 160 - 32 * 0 + i - 160 = i by omega]
  · rw [if_neg (by omega), if_neg (by omega), if_neg (by omega), if_neg (by omega), if_pos (by omega),
      show 160 - 32 * 1 + i - 128 = i by omega]
  · rw [if_neg (by omega), if_neg (by omega), if_neg (by omega), if_pos (by omega),
      show 160 - 32 * 2 + i - 96 = i by omega]
  · rw [if_neg (by omega), if_neg (by omega), if_pos (by omega), show 160 - 32 * 3 + i - 64 = i by omega]
  · rw [if_neg (by omega), if_pos (by omega), show 160 - 32 * 4 + i - 32 = i by omega]
  · rw [if_pos (by omega), show 160 - 32 * 5 + i = i by omega]

/-- The operation code of an encoded command is the one of the opcode map. -/
theorem recOp_encode (i : Instr) : recOp (encode i) = i.opcode := by cases i <;> exact recOp_record ..

/-- The legal operation codes, one by one. -/
theorem legalOp_cases {op : BitVec 8} (h : legalOp op = true) :
    op = 0x00 ∨ op = 0x01 ∨ op = 0x02 ∨ op = 0x03 ∨ op = 0x04 ∨ op = 0x05 ∨ op = 0x06 ∨ op = 0x10 ∨ op = 0x11 ∨
      op = 0x12 ∨ op = 0x13 ∨ op = 0x14 ∨ op = 0x15 ∨ op = 0x20 ∨ op = 0x21 ∨ op = 0x22 ∨ op = 0x23 ∨ op = 0x24 ∨
      op = 0x30 ∨ op = 0x31 ∨ op = 0x32 ∨ op = 0x33 ∨ op = 0x34 ∨ op = 0x35 := by
  simpa only [legalOp, legalOps, List.contains_eq_mem, List.mem_cons, List.not_mem_nil, or_false,
    decide_eq_true_eq] using h

/-- A record with an illegal operation code is rejected by name. -/
theorem decode_illegal {r : BitVec 200} (h : legalOp (recOp r) = false) : decode r = .error (.illegalOp (recOp r)) := by
  have hn : ∀ op ∈ legalOps, recOp r ≠ op := by
    intro op ho e
    rw [e] at h
    simp only [legalOp, List.contains_eq_mem, decide_eq_false_iff_not] at h
    exact h ho
  simp only [legalOps, List.mem_cons, List.not_mem_nil, or_false, forall_eq_or_imp, forall_eq] at hn
  obtain ⟨h0, h1, h2, h3, h4, h5, h6, h7, h8, h9, h10, h11, h12, h13, h14, h15, h16, h17, h18, h19, h20, h21, h22,
    h23⟩ := hn
  simp only [decode, if_neg h0, if_neg h1, if_neg h2, if_neg h3, if_neg h4, if_neg h5, if_neg h6, if_neg h7, if_neg h8,
    if_neg h9, if_neg h10, if_neg h11, if_neg h12, if_neg h13, if_neg h14, if_neg h15, if_neg h16, if_neg h17,
    if_neg h18, if_neg h19, if_neg h20, if_neg h21, if_neg h22, if_neg h23]

end Sys2Proof
end

