-- ==== Sys2Proof/Laws/PerInstr.lean ====
section
/-! SUPPORT. Per instruction, about its syntax: the family `Encoding` says that a command's record carries a legal
operation code, the one of the opcode map (30_encoding.md R88, R91). -/

namespace Sys2Proof.Laws.Encoding

/-- The record of a command carries its operation code, and the code is one of the 24 legal ones. -/
def Statement (i : Instr) : Prop := recOp (encode i) = i.opcode ∧ legalOp (recOp (encode i)) = true

/-- A record whose code is known and legal meets the statement. -/
theorem of_opcode {i : Instr} (h : legalOp i.opcode = true) : Statement i := by
  rw [Statement, recOp_encode]
  exact ⟨rfl, h⟩

theorem ptePack (present frame dirty swapped swapType swapOff : Word) : Statement (.ptePack present frame dirty swapped swapType swapOff) := of_opcode rfl

theorem vaOff (addr : Word) : Statement (.vaOff addr) := of_opcode rfl

theorem vaPgn (addr : Word) : Statement (.vaPgn addr) := of_opcode rfl

theorem pteFpn (pte : Word) : Statement (.pteFpn pte) := of_opcode rfl

theorem pteSwp (pte : Word) : Statement (.pteSwp pte) := of_opcode rfl

theorem sumDec (word : Word) : Statement (.sumDec word) := of_opcode rfl

theorem pteUnpack (pte : Word) : Statement (.pteUnpack pte) := of_opcode rfl

theorem stRdb (addr : Word) : Statement (.stRdb addr) := of_opcode rfl

theorem stWrb (addr value : Word) : Statement (.stWrb addr value) := of_opcode rfl

theorem stRdw (addr : Word) : Statement (.stRdw addr) := of_opcode rfl

theorem stWrw (addr value : Word) : Statement (.stWrw addr value) := of_opcode rfl

theorem stDump : Statement .stDump := of_opcode rfl

theorem stBdump : Statement .stBdump := of_opcode rfl

theorem tlbRd (pid page : Word) : Statement (.tlbRd pid page) := of_opcode rfl

theorem tlbIns (pid page pte : Word) : Statement (.tlbIns pid page pte) := of_opcode rfl

theorem tlbInv (pid page : Word) : Statement (.tlbInv pid page) := of_opcode rfl

theorem tlbFlush (pid pgLo pgHi : Word) : Statement (.tlbFlush pid pgLo pgHi) := of_opcode rfl

theorem tlbInvall (pid : Word) : Statement (.tlbInvall pid) := of_opcode rfl

theorem schInit : Statement .schInit := of_opcode rfl

theorem schGet : Statement .schGet := of_opcode rfl

theorem schPut (proc prio : Word) : Statement (.schPut proc prio) := of_opcode rfl

theorem schEnd (proc prio pid pgLo pgHi : Word) : Statement (.schEnd proc prio pid pgLo pgHi) := of_opcode rfl

theorem schEmpty : Statement .schEmpty := of_opcode rfl

theorem schSlot (level : Word) : Statement (.schSlot level) := of_opcode rfl

end Sys2Proof.Laws.Encoding
end

