-- ==== Sys2Proof/Laws/Safety.lean ====
section
/-! SUPPORT. The terms of Sys2Proof/Safety.lean beside the machine's own functions, the invariant's parts, and what every
command does to them. -/

namespace Sys2Proof.Machine

theorem hasLine_iff {c : Config} : hasLine c = true ↔ 1 ≤ lines c := by simp [hasLine]

theorem one_le_lines {c : Config} (h : 16 ≤ c.cap) : 1 ≤ lines c := (Nat.one_le_div_iff (by decide)).2 h

theorem lines_eq_zero {c : Config} (h : c.cap < 16) : lines c = 0 := Nat.div_eq_of_lt h

theorem checkPage_of_ok {c : Config} {pid page : Word} (h : pageOperandsOk c pid page) : checkPage c pid page = none :=
  checkPage_eq_none.2 ⟨h.1, h.2.1, one_le_lines h.2.2⟩

theorem wayHits_iff {s : State} {pid page : Word} {w : Nat} :
    wayHits s.mem (lineOf s.cfg pid.toNat page.toNat) w (tag pid.toNat page.toNat) = true ↔
      wayAnswers s pid page w := by
  simp [wayHits, wayAnswers, and_assoc]

/-- The way a read hits is the one the order of 43_tlb.md R154 gives. -/
theorem hitWay_eq_some_iff {s : State} {pid page : Word} {w : Nat} :
    hitWay s.mem (lineOf s.cfg pid.toNat page.toNat) (tag pid.toNat page.toNat) = some w ↔ readHits s pid page w := by
  rw [readHits, ← wayHits_iff, ← wayHits_iff]
  rcases hitWay_cases s.mem (lineOf s.cfg pid.toNat page.toNat) (tag pid.toNat page.toNat) with h | h | h
  · rw [h.1]
    constructor
    · intro e
      cases e
      exact .inl ⟨rfl, h.2⟩
    · rintro (e | e)
      · rw [e.1]
      · exact absurd h.2 e.2.1
  · rw [h.1]
    constructor
    · intro e
      cases e
      exact .inr ⟨rfl, by simp [h.2.1], h.2.2⟩
    · rintro (e | e)
      · rw [h.2.1] at e
        exact absurd e.2 (by simp)
      · rw [e.1]
  · rw [h.1]
    constructor
    · intro e
      cases e
    · rintro (e | e)
      · rw [h.2.1] at e
        exact absurd e.2 (by simp)
      · rw [h.2.2] at e
        exact absurd e.2.2 (by simp)

/-- The way an insert takes is the one the preference order of R156 gives. -/
theorem victimWay_eq_some_iff {m : Memory} {i k : Nat} : victimWay m i = some k ↔ insertTakes m i k := by
  simp only [victimWay, insertTakes]
  cases wayValid (wayWord m i 0) <;> cases wayValid (wayWord m i 1) <;> cases wayRecency (wayWord m i 0) <;>
    cases wayRecency (wayWord m i 1) <;> simp [eq_comm]

/-! The invariant. -/

theorem wf_iff {s : State} :
    s.wf = true ↔
      s.cfg.legal = true ∧ StoreGood s ∧ levelsOk s = true ∧ rising 0 s.pgd = true ∧ rising 0 s.stats = true := by
  simp only [State.wf, memInside, Bool.and_eq_true]
  constructor
  · rintro ⟨⟨⟨⟨⟨⟨h1, h2⟩, h3⟩, h4⟩, h5⟩, h6⟩, h7⟩
    exact ⟨h1, ⟨h2, h3, h5⟩, h4, h6, h7⟩
  · rintro ⟨h1, ⟨h2, h3, h5⟩, h4, h6, h7⟩
    exact ⟨⟨⟨⟨⟨⟨h1, h2⟩, h3⟩, h4⟩, h5⟩, h6⟩, h7⟩

theorem StoreGood.otherHosts {s : State} (h : StoreGood s) : StoreGood (otherHosts s) :=
  otherHosts_keeps (P := StoreGood) (fun _ _ h => h.gaps _) (fun _ _ h => h.otherHostStep _) s h

theorem StoreGood.afterFlush {s : State} (h : StoreGood s) (pid lo hi : Word) : StoreGood (afterFlush pid lo hi s) := by
  simp only [Machine.afterFlush]
  split
  · exact h.flushPages (hasLine_iff.1 ‹_›) _ _ _
  · exact h

/-- Every command keeps the store canonical and inside. -/
theorem exec_storeGood {i : Instr} {s t : State} (h : StoreGood s) (e : exec i s = .next t) : StoreGood t := by
  by_cases hi : unitOf i = 3
  · by_cases he : ∃ proc prio pid lo hi, i = .schEnd proc prio pid lo hi
    · obtain ⟨proc, prio, pid, lo, hi', rfl⟩ := he
      rcases execSchEnd_cases proc prio pid lo hi' s with ⟨_, -, e'⟩ | ⟨-, e'⟩ <;> rw [e'] at e <;> cases e
      · exact h.raise _
      · have := h.afterFlush pid lo hi'
        exact ⟨this.wf, this.inside, this.hosts⟩
    · obtain ⟨L, r, g, -, e'⟩ := exec_scheduler hi (fun _ _ _ _ _ e => he ⟨_, _, _, _, _, e⟩) s
      rw [e' s rfl rfl] at e
      cases e
      exact ⟨h.wf, h.inside, h.hosts⟩
  · cases i with
    | stWrb addr value => cases e; exact h.stWrb _ _
    | stWrw addr value => cases e; exact h.stWrw _ _
    | stRdb addr =>
      cases e
      rcases stRdb_cases addr s with ⟨-, e⟩ | ⟨-, e⟩ <;> rw [e]
      · exact h.raise _
      · exact h.respond _
    | stRdw addr =>
      cases e
      rcases stRdw_cases addr s with ⟨-, e⟩ | ⟨-, e⟩ <;> rw [e]
      · exact h.raise _
      · exact h.respond _
    | tlbRd pid page => cases e; exact h.tlbRd _ _
    | tlbIns pid page pte => cases e; exact h.tlbIns _ _ _
    | tlbInv pid page => cases e; exact h.tlbInv _ _
    | tlbFlush pid lo hi => cases e; exact h.tlbFlush _ _ _
    | tlbInvall pid =>
      cases e
      rcases tlbInvall_cases pid s with ⟨_, -, e⟩ | ⟨-, e⟩ <;> rw [e]
      · exact h.raise _
      · exact h.respond _
    | _ => first | (cases e; exact h.respond _) | simp [unitOf, Instr.opcode] at hi

/-- Every command keeps the queues within their capacity. -/
theorem exec_levelsOk {i : Instr} {s t : State} (h : levelsOk s = true) (e : exec i s = .next t) :
    levelsOk t = true := by
  have key : ∀ u : State, u.cfg = s.cfg → u.levels = s.levels → levelsOk u = true := by
    intro u h1 h2
    simpa [levelsOk, h1, h2] using h
  by_cases hi : unitOf i = 3
  · cases i with
    | schInit => cases e; exact levelsOk_initial rfl
    | schGet =>
      simp only [exec, execSchGet] at e
      split at e
      · cases e
        exact key _ rfl rfl
      · rename_i l hl
        rcases dequeue_cases l s with ⟨h1, h2⟩ | ⟨x, rest, h1, h2⟩ <;> rw [h2] at e <;> cases e
        · exact key _ rfl rfl
        · have := levelAt_items_le h l
          exact levelsOk_addQuota (levelsOk_setLevel h l (by rw [h1] at this; simp at this ⊢; omega)) l (-1)
    | schPut proc prio =>
      simp only [exec, execSchPut] at e
      split at e
      · cases e
        refine key _ ?_ ?_ <;> simp
      · rcases enqueue_cases prio.toNat proc s with ⟨h1, h2⟩ | ⟨h1, h2⟩ <;> rw [h2] at e <;> cases e
        · exact levelsOk_addQuota h prio.toNat 1
        · have := levelAt_items_le h prio.toNat
          exact levelsOk_addQuota (levelsOk_setLevel h prio.toNat (by simp; omega)) prio.toNat 1
    | schEnd proc prio pid lo hi' =>
      rcases execSchEnd_cases proc prio pid lo hi' s with ⟨_, -, e'⟩ | ⟨-, e'⟩ <;> rw [e'] at e <;> cases e
      · refine key _ ?_ ?_ <;> simp
      · have h3 := StoreOnly.afterFlush pid lo hi' s
        exact levelsOk_addQuota (key _ h3.cfg h3.levels) prio.toNat 1
    | schEmpty => cases e; exact key _ rfl rfl
    | schSlot level =>
      simp only [exec, execSchSlot] at e
      split at e <;> cases e
      · refine key _ ?_ ?_ <;> simp
      · exact key _ rfl rfl
    | _ => simp [unitOf, Instr.opcode] at hi
  · obtain ⟨t', -, e', -, -, hs, -⟩ := exec_answers hi (SameStore.refl s)
    rw [e'] at e
    cases e
    exact key _ hs.cfg hs.levels

/-! With no other host's step waiting. -/

theorem flushPages_nil {s : State} (h : s.gaps = []) (pid p n : Nat) :
    flushPages pid p n s = { s with mem := (flushPages pid p n s).mem } := by
  induction n generalizing p s with
  | zero => rfl
  | succ n ih =>
    rw [flushPages_succ, otherHosts_nil (by simpa [invalidatePage] using h),
      ih (by simpa [invalidatePage] using h)]
    simp [invalidatePage]

theorem afterFlush_nil {s : State} (h : s.gaps = []) (pid lo hi : Word) :
    afterFlush pid lo hi s = { s with mem := (afterFlush pid lo hi s).mem } := by
  simp only [afterFlush]
  split
  · exact flushPages_nil h _ _ _
  · rfl

/-- With no other host's step waiting a command leaves the hosts' registers and the gaps. -/
theorem exec_nil {i : Instr} {s t : State} (h : s.gaps = []) (e : exec i s = .next t) :
    t.hosts = s.hosts ∧ t.gaps = [] := by
  by_cases hi : unitOf i = 3
  · by_cases he : ∃ proc prio pid lo hi, i = .schEnd proc prio pid lo hi
    · obtain ⟨proc, prio, pid, lo, hi', rfl⟩ := he
      rcases execSchEnd_cases proc prio pid lo hi' s with ⟨_, -, e'⟩ | ⟨-, e'⟩ <;> rw [e'] at e <;> cases e
      · simp [h]
      · rw [afterFlush_nil h]
        simp [h]
    · obtain ⟨L, r, g, -, e'⟩ := exec_scheduler hi (fun _ _ _ _ _ e => he ⟨_, _, _, _, _, e⟩) s
      rw [e' s rfl rfl] at e
      cases e
      simp [h]
  · cases i with
    | tlbFlush pid lo hi' =>
      cases e
      rcases tlbFlush_cases pid lo hi' s with ⟨_, -, e⟩ | ⟨-, e⟩ <;> rw [e]
      · simp [h]
      · rw [flushPages_nil h]
        simp [h]
    | stRdb addr => cases e; rcases stRdb_cases addr s with ⟨-, e⟩ | ⟨-, e⟩ <;> rw [e] <;> simp [h]
    | stWrb addr value => cases e; rcases stWrb_cases addr value s with ⟨-, e⟩ | ⟨-, e⟩ <;> rw [e] <;> simp [h]
    | stRdw addr => cases e; rcases stRdw_cases addr s with ⟨-, e⟩ | ⟨-, e⟩ <;> rw [e] <;> simp [h]
    | stWrw addr value => cases e; rcases stWrw_cases addr value s with ⟨-, e⟩ | ⟨-, e⟩ <;> rw [e] <;> simp [h]
    | tlbRd pid page =>
      cases e
      rcases tlbRd_cases pid page s with ⟨_, -, e⟩ | ⟨-, _, -, e⟩ | ⟨-, -, e⟩ <;> rw [e] <;> simp [h]
    | tlbIns pid page pte =>
      cases e
      rcases tlbIns_cases pid page pte s with ⟨_, -, e⟩ | ⟨-, _, -, e⟩ | ⟨-, -, e⟩ <;> rw [e] <;> simp [h]
    | tlbInv pid page =>
      cases e
      rcases tlbInv_cases pid page s with ⟨_, -, e⟩ | ⟨-, e⟩ <;> rw [e] <;> simp [h, invalidatePage]
    | tlbInvall pid => cases e; rcases tlbInvall_cases pid s with ⟨_, -, e⟩ | ⟨-, e⟩ <;> rw [e] <;> simp [h]
    | _ => first | (cases e; exact ⟨rfl, h⟩) | simp [unitOf, Instr.opcode] at hi

/-! The hosts' registers and the page directory. -/

theorem hostResponse_deliver_same {s : State} (h : rising 0 s.hosts = true) (n : Nat) :
    hostResponse (deliver n s) n = s.response := by simp [hostResponse, lookup_update_same h]

theorem hostResponse_deliver_ne {n m : Nat} (h : m ≠ n) (s : State) :
    hostResponse (deliver n s) m = hostResponse s m := by simp [hostResponse, lookup_update_ne _ h]

theorem pgdKey_inj {a b : Nat} {x y : BitVec 14} (h : pgdKey a x.toNat = pgdKey b y.toNat) : a = b ∧ x = y := by
  simp only [pgdKey] at h
  have := x.isLt
  have := y.isLt
  exact ⟨by omega, BitVec.eq_of_toNat_eq (by omega)⟩

end Sys2Proof.Machine
end

