-- ==== Sys2Proof/Tests/Slice0.lean ====
section
/-! SUPPORT. Tests: the well-formedness checks on ill-formed terms, one written-out record for each command, at most two
one-step tests for each command, and for each obligation with hypotheses a witness that meets them all. Expected
results are those of spec/95_test_vectors.md (its ids are named) or follow by hand from the rule named. -/

namespace Sys2Proof.Tests
open Sys2Proof Sys2Proof.Machine

/-! Small states. -/

/-- The parameters of the vectors with another capacity. -/
def sized (cap : Nat) : Config := { Config.vectors with cap := cap }

/-- A reset machine of a given capacity and store. -/
def storing (cap : Nat) (m : Memory) : State := { State.resetOf (sized cap) with mem := m }

/-- The state after one command. -/
def after (i : Instr) (s : State) : State :=
  match exec i s with
  | .next t => t
  | .fault _ => s
  | .refused _ => s

/-- The response to one command. -/
def answer (i : Instr) (s : State) : Response := (after i s).response

/-- Line 37 with page (3, 5), frame 42, in way 0 (vector V-S8-3). -/
def oneEntry : State :=
  storing 1024 [(592, 0xC0), (594, 0xC0), (595, 0x05), (596, 0x80), (599, 0x2A)]

/-- Line 37 with page (3, 5) in way 0 and (3, 37), recent, in way 1 (vector V-S8-5, after step 2). -/
def twoEntries : State :=
  storing 1024 [(592, 0x80), (594, 0xC0), (595, 0x05), (596, 0x80), (599, 0x2A),
    (600, 0xC0), (602, 0xC0), (603, 0x25), (604, 0x80), (607, 0x2B)]

/-- Line 0 as raw writes left it, both ways valid and recent (vector V-T34). -/
def noVictim : State := storing 1024 [(0, 0xC0), (3, 0x01), (8, 0xC0), (11, 0x02)]

/-- Level 1 with two processes (vector V-S8-7). -/
def queued : State :=
  { State.reset with levels :=
      [{ items := [], slot := 4 }, { items := [0xA, 0xB], slot := 5 }, { items := [], slot := 2 }, { items := [], slot := 1 }] }

/-- Level 2 full (vector V-S8-9). -/
def fullLevel : State :=
  { State.reset with levels :=
      [{ items := [], slot := 4 }, { items := [], slot := 3 }, { items := [0x11, 0x12, 0x13], slot := 5 },
        { items := [], slot := 1 }] }

/-- Process 2 with frame 7 in page 0, in the cache too, and swap slot 3 in page 1 (vector V-S8-8). -/
def ending : State :=
  { storing 1024 [(0, 0xC0), (2, 0x80), (4, 0x80), (7, 0x07)] with
    pgd := [(pgdKey 2 0, 0x80000007), (pgdKey 2 1, 0x40000060)] }

/-- Inputs waiting. -/
def given (xs : List Input) (s : State) : State := { s with inputs := xs }

/-! Well-formedness: an ill-formed term for each check. -/

theorem test_wellFormed_vectors : Config.vectors.legal = true := by decide

theorem test_illFormed_cap : { Config.vectors with cap := 4294967296 }.legal = false := by decide

theorem test_illFormed_pidWidth_zero : { Config.vectors with pidW := 0 }.legal = false := by decide

theorem test_illFormed_pidWidth_above : { Config.vectors with pidW := 17 }.legal = false := by decide

theorem test_illFormed_maxPrio : { Config.vectors with maxPrio := 0 }.legal = false := by decide

theorem test_illFormed_maxQueue : { Config.vectors with maxQueue := 0 }.legal = false := by decide

theorem test_illFormed_swapType : { Config.vectors with swpTypLo := 13, swpTypW := 1 }.legal = false := by decide

theorem test_illFormed_swapOff : { Config.vectors with swpOffW := 9 }.legal = false := by decide

theorem test_illFormed_swapOverlap : { Config.vectors with swpOffLo := 4 }.legal = false := by decide

theorem test_illFormed_slotInit : { Config.vectors with maxPrio := 2147483648 }.legal = false := by decide

theorem test_illFormed_ops : ([0x07, 0x0F, 0x16, 0x1F, 0x25, 0x2F, 0x36, 0xFF] : List (BitVec 8)).all
    (fun op => !legalOp op) = true := by decide

/-! Decoding: one record for each command, written out from 30_encoding.md R88 and R91 (the records of
95_test_vectors.md where it prints one). Unused operands are not all zero: they are ignored (R93). -/

theorem test_decode_ptePack : decodeTableWord 200 0x00000000030000200100000002000000020000002100000101 =
    some (.ptePack 3 0x2001 2 2 0x21 0x101) := by decide

theorem test_decode_vaOff : decodeTableWord 200 0x01000123AB0000000000000000000000000000000000000009 =
    some (.vaOff 0x123AB) := by decide

theorem test_decode_vaPgn : decodeTableWord 200 0x02000005200000000000000000000000000000000000000000 =
    some (.vaPgn 0x520) := by decide

theorem test_decode_pteFpn : decodeTableWord 200 0x038000002A0000000000000000000000000000000000000000 =
    some (.pteFpn 0x8000002A) := by decide

theorem test_decode_pteSwp : decodeTableWord 200 0x04400000600000000000000000000000000000000000000000 =
    some (.pteSwp 0x40000060) := by decide

theorem test_decode_sumDec : decodeTableWord 200 0x058C00502A0000000000000000000000000000000000000000 =
    some (.sumDec 0x8C00502A) := by decide

theorem test_decode_pteUnpack : decodeTableWord 200 0x06D00000050000000000000000000000000000000000000000 =
    some (.pteUnpack 0xD0000005) := by decide

theorem test_decode_stRdb : decodeTableWord 200 0x10000000FF0000000000000000000000000000000000000000 =
    some (.stRdb 0xFF) := by decide

theorem test_decode_stWrb : decodeTableWord 200 0x1100000007000001FF00000000000000000000000000000000 =
    some (.stWrb 7 0x1FF) := by decide

theorem test_decode_stRdw : decodeTableWord 200 0x12FFFFFFFE0000000000000000000000000000000000000000 =
    some (.stRdw 0xFFFFFFFE) := by decide

theorem test_decode_stWrw : decodeTableWord 200 0x1300000004DEADBEEF00000000000000000000000000000000 =
    some (.stWrw 4 0xDEADBEEF) := by decide

theorem test_decode_stDump : decodeTableWord 200 0x14000000010000000000000000000000000000000000000000 =
    some .stDump := by decide

theorem test_decode_stBdump : decodeTableWord 200 0x15000000000000000000000000000000000000000000000000 =
    some .stBdump := by decide

theorem test_decode_tlbRd : decodeTableWord 200 0x20000000030000000500000000000000000000000000000000 =
    some (.tlbRd 3 5) := by decide

theorem test_decode_tlbIns : decodeTableWord 200 0x2100000003000000058000002A000000000000000000000000 =
    some (.tlbIns 3 5 0x8000002A) := by decide

theorem test_decode_tlbInv : decodeTableWord 200 0x22000000030000000500000000000000000000000000000000 =
    some (.tlbInv 3 5) := by decide

theorem test_decode_tlbFlush : decodeTableWord 200 0x23000000020000000500000007000000000000000000000000 =
    some (.tlbFlush 2 5 7) := by decide

theorem test_decode_tlbInvall : decodeTableWord 200 0x24000000030000000000000000000000000000000000000000 =
    some (.tlbInvall 3) := by decide

theorem test_decode_schInit : decodeTableWord 200 0x30000000000000000000000000000000000000000000000000 =
    some .schInit := by decide

theorem test_decode_schGet : decodeTableWord 200 0x31000000000000000000000000000000000000000000000000 =
    some .schGet := by decide

theorem test_decode_schPut : decodeTableWord 200 0x32000000C20000000200000000000000000000000000000000 =
    some (.schPut 0xC2 2) := by decide

theorem test_decode_schEnd : decodeTableWord 200 0x33000000A00000000100000002000000000000000200000000 =
    some (.schEnd 0xA0 1 2 0 2) := by decide

theorem test_decode_schEmpty : decodeTableWord 200 0x34000000000000000000000000000000000000000000000000 =
    some .schEmpty := by decide

theorem test_decode_schSlot : decodeTableWord 200 0x35000000010000000000000000000000000000000000000000 =
    some (.schSlot 1) := by decide

theorem test_decode_illegal : decodeTableWord 200 0x2F000000000000000000000000000000000000000000000000 =
    none := by decide

/-- `TLB.INS 3, 5, 0x8000002A`, its operands zero in the table's word: it is the first thing to run after reset. -/
theorem test_withFetchWord :
    (match step (State.reset.withFetchWord 200 0x2100000003000000058000002A000000000000000000000000) with
      | .next t => some (t.response, t.mem, t.inputs)
      | .fault _ => none
      | .refused _ => none) = some ({ status := .ok, res0 := 42 }, oneEntry.mem, []) := by decide

/-- The aliases of 30_encoding.md R98. -/
theorem test_aliases : (["SCH.ADD", "get_mlq_proc", "flush_of", "invalidate_all", "tlb_change_all_page_tables_of",
    "FAC.READ"].map opOfName) = [some 0x32, some 0x31, some 0x24, some 0x24, some 0x24, none] := by decide

/-- The codes of 30_encoding.md R90, and the record of `OK, 42` of 95_test_vectors.md. -/
theorem test_statusCodes :
    ([.ok, .miss, .novict, .empty, .full, .unimpl, .devErr, .badOp, .badArg].map Status.code) =
        [0, 1, 2, 3, 4, 5, 8, 9, 10] ∧
      Response.toBits { status := .ok, res0 := 42 } = 0x00000002A0000000000000000000000000000000000000000#196 := by decide

/-- 44_facade.md R188: a range that ends on a page's last byte, one that touches two pages, an empty one. -/
theorem test_pageSpan : [pageSpan 0x500 0x600, pageSpan 0x5FF 0x601, pageSpan 0x500 0x500] = [(5, 6), (5, 7), (0, 0)] := by
  decide

/-! One step of each command. -/

/-- V-C1. -/
theorem test_ptePack_truncates :
    answer (.ptePack 3 0x2001 2 2 0x21 0x101) State.reset = { status := .ok, res0 := 0x80000001 } := by decide

/-- V-C2. -/
theorem test_ptePack_swapped :
    answer (.ptePack 0 0 0 1 0x25 0x103) State.reset = { status := .ok, res0 := 0x40000065 } := by decide

/-- V-C6. -/
theorem test_vaOff : answer (.vaOff 0x123AB) State.reset = { status := .ok, res0 := 0xAB } := by decide

/-- V-C9. -/
theorem test_vaPgn : answer (.vaPgn 0x123AB) State.reset = { status := .ok, res0 := 0x123 } := by decide

/-- V-C10. -/
theorem test_vaPgn_high_bits : answer (.vaPgn 0xFFFFFFFF) State.reset = { status := .ok, res0 := 0x3FFF } := by decide

/-- V-C14. -/
theorem test_pteFpn : answer (.pteFpn 0xFFFFFFFF) State.reset = { status := .ok, res0 := 0x1FFF } := by decide

/-- V-C18. -/
theorem test_pteSwp : answer (.pteSwp 0x50000063) State.reset = { status := .ok, res0 := 3 } := by decide

/-- V-C20. -/
theorem test_pteSwp_above : answer (.pteSwp 0x2000) State.reset = { status := .ok, res0 := 0 } := by decide

/-- V-C22. -/
theorem test_sumDec : answer (.sumDec 0x8C00502A) State.reset =
    { status := .ok, res0 := 1, res1 := 3, res2 := 5, res3 := 42 } := by decide

/-- V-C26. -/
theorem test_pteUnpack_ones : answer (.pteUnpack 0xFFFFFFFF) State.reset =
    { status := .ok, res0 := 1, res1 := 0x1FFF, res2 := 1, res3 := 1, res4 := 31, res5 := 255 } := by decide

/-- V-C27. -/
theorem test_pteUnpack_unused : answer (.pteUnpack 0x2FFFE000) State.reset = { status := .ok } := by decide

/-- V-M3. -/
theorem test_stRdb : answer (.stRdb 7) (storing 256 [(7, 0xFF)]) = { status := .ok, res0 := 0xFF } := by decide

/-- V-M10. -/
theorem test_stRdb_outside :
    (answer (.stRdb 256) (storing 256 []), (after (.stRdb 256) (storing 256 [])).flags) =
      ({ status := .devErr, res0 := 0x100 }, 1) := by decide

/-- V-M2. -/
theorem test_stWrb : (after (.stWrb 7 0x1FF) (storing 256 [])).mem = [(7, 0xFF)] := by decide

/-- A zero byte is not listed. -/
theorem test_stWrb_zero : (after (.stWrb 7 0x100) (storing 256 [(7, 0xFF)])).mem = [] := by decide

/-- V-M8. -/
theorem test_stRdw_unaligned :
    answer (.stRdw 8) (storing 256 [(9, 0x11), (10, 0x22), (11, 0x33), (12, 0x44)]) =
      { status := .ok, res0 := 0x00112233 } := by decide

/-- V-M15. -/
theorem test_stRdw_no_wrap :
    answer (.stRdw 0xFFFFFFFE) (storing 256 []) = { status := .devErr, res0 := 0xFFFFFFFE } := by decide

/-- V-M4. -/
theorem test_stWrw : (after (.stWrw 4 0xDEADBEEF) (storing 256 [(7, 0xFF)])).mem =
    [(4, 0xDE), (5, 0xAD), (6, 0xBE), (7, 0xEF)] := by decide

/-- V-M13. -/
theorem test_stWrw_partly_outside :
    (answer (.stWrw 254 0xAABBCCDD) (storing 256 []), (after (.stWrw 254 0xAABBCCDD) (storing 256 [])).mem) =
      ({ status := .devErr, res0 := 0x100 }, []) := by decide

/-- V-M18. -/
theorem test_stDump : after .stDump oneEntry = respond { status := .ok } oneEntry := by decide

/-- V-M18. -/
theorem test_stBdump : after .stBdump oneEntry = respond { status := .ok } oneEntry := by decide

/-- V-S8-5 after step 2, then 43_tlb.md R154, R155: a hit on the way that is not recent swaps the recencies. -/
theorem test_tlbRd_hit : (answer (.tlbRd 3 5) twoEntries, (after (.tlbRd 3 5) twoEntries).mem.map (·.2)) =
    ({ status := .ok, res0 := 42 }, [0xC0, 0xC0, 0x05, 0x80, 0x2A, 0x80, 0xC0, 0x25, 0x80, 0x2B]) := by decide

/-- V-T4. -/
theorem test_tlbRd_miss : after (.tlbRd 3 37) oneEntry = respond { status := .miss } oneEntry := by decide

/-- V-S8-5, step 3. -/
theorem test_tlbIns_evicts : (answer (.tlbIns 3 69 0x8000002C) twoEntries,
    (after (.tlbIns 3 69 0x8000002C) twoEntries).mem.map (·.2)) =
    ({ status := .ok, res0 := 44 }, [0xC0, 0xC0, 0x45, 0x80, 0x2C, 0x80, 0xC0, 0x25, 0x80, 0x2B]) := by decide

/-- V-T34. -/
theorem test_tlbIns_no_victim : after (.tlbIns 0 0 0x80000005) noVictim = respond { status := .novict } noVictim := by
  decide

/-- V-S8-4. -/
theorem test_tlbInv : (answer (.tlbInv 3 5) oneEntry, (after (.tlbInv 3 5) oneEntry).mem) =
    ({ status := .ok }, []) := by decide

/-- V-T18. -/
theorem test_tlbInv_zero_tag : answer (.tlbInv 0 0) State.reset = { status := .ok } := by decide

/-- 43_tlb.md R165: pages 36 to 38 of process 3, of which the store holds page 37 in way 1 of line 37. -/
theorem test_tlbFlush : (answer (.tlbFlush 3 36 39) twoEntries, (after (.tlbFlush 3 36 39) twoEntries).mem) =
    ({ status := .ok }, [(592, 0x80), (594, 0xC0), (595, 0x05), (596, 0x80), (599, 0x2A)]) := by decide

/-- V-T24. -/
theorem test_tlbFlush_bound : answer (.tlbFlush 0 0 16385) State.reset = { status := .badArg, res0 := 2 } := by decide

/-- V-T27. -/
theorem test_tlbInvall : after (.tlbInvall 3) oneEntry = respond { status := .unimpl } oneEntry := by decide

/-- 46_scheduler.md R216. -/
theorem test_schInit : after .schInit { queued with flags := 3 } =
    respond { status := .ok } { State.reset with flags := 1 } := by decide

/-- V-S8-7. -/
theorem test_schGet : (answer .schGet queued, levelAt (after .schGet queued) 1) =
    ({ status := .ok, res0 := 0xA, res1 := 1 }, { items := [0xB], slot := 4 }) := by decide

/-- V-S8-6, last row. -/
theorem test_schGet_empty : after .schGet State.reset = respond { status := .empty } State.reset := by decide

/-- V-S8-7. -/
theorem test_schPut : levelAt (after (.schPut 0xC 1) queued) 1 = { items := [0xA, 0xB, 0xC], slot := 6 } := by decide

/-- V-S8-9, fourth row. -/
theorem test_schPut_full : (answer (.schPut 0x14 2) fullLevel, levelAt (after (.schPut 0x14 2) fullLevel) 2,
    (after (.schPut 0x14 2) fullLevel).flags) =
    ({ status := .full }, { items := [0x11, 0x12, 0x13], slot := 6 }, 2) := by decide

/-- V-S8-8. -/
theorem test_schEnd : (answer (.schEnd 0xA0 1 2 0 2) ending, (after (.schEnd 0xA0 1 2 0 2) ending).events,
    (after (.schEnd 0xA0 1 2 0 2) ending).mem, levelAt (after (.schEnd 0xA0 1 2 0 2) ending) 1) =
    ({ status := .ok, res0 := 1, res1 := 1 }, [.ramFree 7, .swapFree 3, .pcbRelease 0xA0], [],
      { items := [], slot := 4 }) := by decide

/-- 46_scheduler.md R222, corner case (a). -/
theorem test_schEnd_no_pages : (answer (.schEnd 9 0 0 5 5) State.reset,
    (after (.schEnd 9 0 0 5 5) State.reset).events) = ({ status := .ok }, [.pcbRelease 9]) := by decide

/-- 46_scheduler.md R228. -/
theorem test_schEmpty : ([State.reset, queued].map (answer .schEmpty)) =
    [{ status := .ok, res0 := 1 }, { status := .ok, res0 := 0 }] := by decide

/-- V-S8-9, fifth row. -/
theorem test_schSlot : answer (.schSlot 2) (after (.schPut 0x14 2) fullLevel) = { status := .ok, res0 := 6 } := by decide

/-! Witnesses: for each obligation with hypotheses, a concrete case that meets all of them together; for one with several
clauses, a case for each clause at the boundary of its range. -/

/-- A record of `VA.PGN 0x520` as host 1's next command. -/
def waitingCommand : State := given [.command 1 (encode (.vaPgn 0x520))] State.reset

/-- Line 0 with both ways valid and not recent, tags (0, 16) and (0, 32). -/
def stale : State := storing 16 [(0, 0x80), (3, 0x10), (4, 0x80), (8, 0x80), (11, 0x20), (12, 0x80)]

/-- As `stale`, way 0 recent. -/
def firstRecent : State := storing 16 [(0, 0xC0), (3, 0x10), (4, 0x80), (8, 0x80), (11, 0x20), (12, 0x80)]

/-- As `stale`, way 1 invalid. -/
def secondFree : State := storing 16 [(0, 0x80), (3, 0x10), (4, 0x80), (11, 0x20), (12, 0x80)]

theorem witness_IllegalOpAnswersBadOp :
    legalOp (recOp 0x2F000000000000000000000000000000000000000000000000#200) = false ∧
      ([0x00, 0x06, 0x10, 0x15, 0x20, 0x24, 0x30, 0x35] : List (BitVec 8)).all legalOp = true ∧
      ([0x07, 0x0F, 0x16, 0x1F, 0x25, 0x2F, 0x36, 0xFF] : List (BitVec 8)).all (fun op => !legalOp op) = true := by decide

theorem witness_StepRunsDecodedCommand :
    waitingCommand.cfg.legal = true ∧ waitingCommand.inputs = .command 1 (encode (.vaPgn 0x520)) :: [] ∧
      decodeTableWord 200 (encode (.vaPgn 0x520)).toNat = some (.vaPgn 0x520) := by decide

theorem witness_ResponseGoesToItsHost :
    waitingCommand.wf = true ∧ waitingCommand.inputs = .command 1 (encode (.vaPgn 0x520)) :: [] ∧
      waitingCommand.gaps = [] ∧ (0 : Nat) ≠ 1 ∧ ∃ t, step waitingCommand = .next t :=
  ⟨by decide, rfl, rfl, by decide, _, rfl⟩

theorem witness_NoCommandStopsTheBlock :
    State.reset.cfg.legal = true ∧ (State.resetOf { Config.vectors with pidW := 0 }).cfg.legal = false := by decide

theorem witness_StepKeepsInvariant : waitingCommand.wf = true ∧ ∃ t, step waitingCommand = .next t :=
  ⟨by decide, _, rfl⟩

theorem witness_ResetHasInvariant : (sized 0).legal = true ∧ (sized 4294967295).legal = true := by decide

theorem witness_CommandsLeaveTheOutsideAlone :
    (∃ t, exec (.tlbInv 3 5) oneEntry = .next t) ∧ ∃ t, step waitingCommand = .next t := ⟨⟨_, rfl⟩, _, rfl⟩

theorem witness_DirectoryWriteLeavesShadowEntriesStale :
    (given [.setPte 3 5 0x80000007] oneEntry).wf = true ∧
      (given [.setPte 3 5 0x80000007] oneEntry).inputs = .setPte 3 5 0x80000007 :: [] ∧
      ((3, 6) : Nat × BitVec 14) ≠ (3, 5) := by decide

theorem witness_ResetStateIsAllClear :
    State.reset = State.resetOf Config.vectors ∧ (3 : Nat) < Config.vectors.maxPrio ∧
      pageOperandsOk Config.vectors 31 16383 ∧ { Config.vectors with maxPrio := 2147483647 }.legal = true ∧
      2147483646 < { Config.vectors with maxPrio := 2147483647 }.maxPrio ∧
      { Config.vectors with maxPrio := 2147483647 }.slotInit.length ≤ 0 :=
  ⟨rfl, by decide, ⟨by decide, by decide, by decide⟩, by decide, by decide, by decide⟩

theorem witness_ResetEventRestoresTheResetState :
    (given [.reset] oneEntry).cfg.legal = true ∧ (given [.reset] oneEntry).inputs = .reset :: [] := by decide

theorem witness_PtePackPlacesEachField : State.reset.cfg.legal = true ∧ 1 % 2 = 1 ∧ 2 % 2 ≠ 1 := by decide

theorem witness_PteFrameAndSwapSlot : ending.cfg.legal = true := by decide

theorem witness_PteUnpackFields : queued.cfg.legal = true := by decide

theorem witness_PackThenUnpackRoundTrip :
    State.reset.cfg.legal = true ∧ (1 : Word).toNat < 2 ∧ (0 : Word).toNat < 2 ∧ (0x1FFF : Word).toNat < 2 ^ 13 ∧
      (31 : Word).toNat < 2 ^ State.reset.cfg.swpTypW ∧ (255 : Word).toNat < 2 ^ State.reset.cfg.swpOffW ∧
      (0x3FFFFF : Word).toNat < 2 ^ 22 := by decide

theorem witness_CodecTouchesNoState :
    unitOf (.pteSwp 0x40000060) = 0 ∧ oneEntry.cfg = State.reset.cfg ∧ ∃ t, exec .schInit State.reset = .next t :=
  ⟨by decide, by decide, _, rfl⟩

theorem witness_ReadByte : (1023 : Word).toNat < State.reset.cfg.cap ∧ State.reset.cfg.cap ≤ (1024 : Word).toNat := by
  decide

theorem witness_WriteByte :
    Memory.wf oneEntry.mem = true ∧ (1023 : Word).toNat < oneEntry.cfg.cap ∧ oneEntry.cfg.cap ≤ (1024 : Word).toNat ∧
      1022 ≠ (1023 : Word).toNat := by decide

theorem witness_ReadWord :
    oneEntry.cfg.legal = true ∧ (1020 : Word).toNat + 3 < oneEntry.cfg.cap ∧
      oneEntry.cfg.cap ≤ (1021 : Word).toNat + 3 ∧ oneEntry.cfg.cap ≤ (0xFFFFFFFE : Word).toNat + 3 := by decide

theorem witness_WriteWord :
    oneEntry.cfg.legal = true ∧ Memory.wf oneEntry.mem = true ∧ (1020 : Word).toNat + 3 < oneEntry.cfg.cap ∧
      oneEntry.cfg.cap ≤ (1021 : Word).toNat + 3 ∧ 1019 < (1020 : Word).toNat ∧ (1020 : Word).toNat + 4 ≤ 1024 := by
  decide

theorem witness_WordWriteThenReads :
    oneEntry.cfg.legal = true ∧ Memory.wf oneEntry.mem = true ∧ (1020 : Word).toNat + 3 < oneEntry.cfg.cap ∧
      (1019 : Word).toNat < (1020 : Word).toNat ∧ (1020 : Word).toNat + 4 ≤ (1024 : Word).toNat := by decide

theorem witness_TlbChecksInOrder :
    2 ^ State.reset.cfg.pidW ≤ (32 : Word).toNat ∧ (31 : Word).toNat < 2 ^ State.reset.cfg.pidW ∧
      2 ^ 14 ≤ (16384 : Word).toNat ∧ (16383 : Word).toNat < 2 ^ 14 ∧ 2 ^ 14 < (16385 : Word).toNat ∧
      (16384 : Word).toNat ≤ 2 ^ 14 ∧ (storing 15 []).cfg.cap < 16 ∧ 16 ≤ (storing 16 []).cfg.cap := by decide

theorem witness_TlbReadHitOrMiss :
    (Memory.wf twoEntries.mem = true ∧ pageOperandsOk twoEntries.cfg 3 5 ∧ readHits twoEntries 3 5 0) ∧
      (pageOperandsOk twoEntries.cfg 3 37 ∧ readHits twoEntries 3 37 1) ∧
      pageOperandsOk twoEntries.cfg 3 69 ∧ ∀ w, ¬readHits twoEntries 3 69 w :=
  ⟨⟨by decide, ⟨by decide, by decide, by decide⟩, by unfold readHits wayAnswers; decide⟩,
    ⟨⟨by decide, by decide, by decide⟩, by unfold readHits wayAnswers; decide⟩, ⟨by decide, by decide, by decide⟩,
    fun w h => h.elim (fun h => absurd h.2 (by unfold wayAnswers; decide)) fun h => absurd h.2.2 (by unfold wayAnswers; decide)⟩

theorem witness_TlbInsertFillsTheVictim :
    (Memory.wf stale.mem = true ∧ pageOperandsOk stale.cfg 0 48 ∧ lineOf stale.cfg 0 48 = 0 ∧ insertTakes stale.mem 0 0) ∧
      (Memory.wf [] = true ∧ insertTakes [] 0 0) ∧ (Memory.wf secondFree.mem = true ∧ insertTakes secondFree.mem 0 1) ∧
      (Memory.wf firstRecent.mem = true ∧ insertTakes firstRecent.mem 0 1) ∧
      (Memory.wf noVictim.mem = true ∧ pageOperandsOk noVictim.cfg 0 0 ∧ lineOf noVictim.cfg 0 0 = 0 ∧
        ∀ k, ¬insertTakes noVictim.mem 0 k) :=
  ⟨⟨by decide, ⟨by decide, by decide, by decide⟩, by decide, by unfold insertTakes; decide⟩,
    ⟨by decide, by unfold insertTakes; decide⟩, ⟨by decide, by unfold insertTakes; decide⟩,
    ⟨by decide, by unfold insertTakes; decide⟩, by decide, ⟨by decide, by decide, by decide⟩, by decide,
    fun k h => nomatch (show victimWay noVictim.mem 0 = none by decide).symm.trans (victimWay_eq_some_iff.mpr h)⟩

theorem witness_TlbInvalidateClearsTheTag :
    Memory.wf twoEntries.mem = true ∧ pageOperandsOk twoEntries.cfg 3 37 ∧ pageOperandsOk twoEntries.cfg 3 69 ∧
      lineOf twoEntries.cfg 3 37 = 37 ∧ lineOf twoEntries.cfg 3 69 = 37 ∧
      wayTag (wayWord twoEntries.mem 37 1) = tag 3 37 ∧
      ∀ w < 2, wayTag (wayWord twoEntries.mem 37 w) ≠ tag 3 69 := by
  unfold pageOperandsOk; decide

theorem witness_InvalidateAllIsAPlaceholder :
    2 ^ State.reset.cfg.pidW ≤ (32 : Word).toNat ∧ (31 : Word).toNat < 2 ^ State.reset.cfg.pidW := by decide

theorem witness_FlushClearsExactlyItsPages :
    Memory.wf twoEntries.mem = true ∧ (3 : Word).toNat < 2 ^ twoEntries.cfg.pidW ∧ (36 : Word).toNat ≤ 2 ^ 14 ∧
      (16384 : Word).toNat ≤ 2 ^ 14 ∧ 16 ≤ twoEntries.cfg.cap ∧ twoEntries.gaps = [] ∧
      (36 ≤ 37 ∧ 37 < 16384 ∧ lineOf twoEntries.cfg 3 37 = 37 ∧ wayTag (wayWord twoEntries.mem 37 1) = tag 3 37) := by
  decide

theorem witness_FlushIsPageByPage :
    (31 : Word).toNat < 2 ^ State.reset.cfg.pidW ∧ (16383 : Word).toNat ≤ 2 ^ 14 ∧ (16384 : Word).toNat ≤ 2 ^ 14 ∧
      16 ≤ State.reset.cfg.cap ∧ (16384 : Word).toNat ≤ (16384 : Word).toNat ∧
      (16383 : Word).toNat < (16384 : Word).toNat := by decide

theorem witness_LinesAndTags :
    Config.vectors.legal = true ∧ 31 < 2 ^ Config.vectors.pidW ∧ 16383 < 2 ^ 14 ∧ 1 ≤ lines (sized 16) ∧
      (sized 16).legal = true := by decide

theorem witness_InsertThenReadHits :
    Memory.wf oneEntry.mem = true ∧ pageOperandsOk oneEntry.cfg 3 37 ∧ pageAbsent oneEntry 3 37 = true ∧
      ptePresent 0x8000002B = true ∧
      exec (.tlbIns 3 37 0x8000002B) oneEntry = .next (after (.tlbIns 3 37 0x8000002B) oneEntry) ∧
      (after (.tlbIns 3 37 0x8000002B) oneEntry).response.status = .ok :=
  ⟨by decide, ⟨by decide, by decide, by decide⟩, by decide, by decide, rfl, by decide⟩

theorem witness_InvalidateThenReadMisses :
    Memory.wf oneEntry.mem = true ∧ pageOperandsOk oneEntry.cfg 3 5 ∧
      exec (.tlbInv 3 5) oneEntry = .next (after (.tlbInv 3 5) oneEntry) :=
  ⟨by decide, ⟨by decide, by decide, by decide⟩, rfl⟩

theorem witness_PageJustReadSurvivesTheNextInsert :
    twoEntries.cfg.legal = true ∧ Memory.wf twoEntries.mem = true ∧ pageOperandsOk twoEntries.cfg 3 5 ∧
      pageOperandsOk twoEntries.cfg 3 69 ∧ ¬((3 : Word) = 3 ∧ (69 : Word) = 5) ∧
      exec (.tlbRd 3 5) twoEntries = .next (after (.tlbRd 3 5) twoEntries) ∧
      (after (.tlbRd 3 5) twoEntries).response.status = .ok ∧
      ∃ u, exec (.tlbIns 3 69 0x8000002C) (after (.tlbRd 3 5) twoEntries) = .next u :=
  ⟨by decide, by decide, ⟨by decide, by decide, by decide⟩, ⟨by decide, by decide, by decide⟩, by decide, rfl,
    by decide, _, rfl⟩

theorem witness_RecencyStaysRegular :
    Memory.wf firstRecent.mem = true ∧ regularLines firstRecent ∧ gapsWithoutRawWrites firstRecent = true ∧
      rawWrite (.tlbRd 0 32) = false ∧ ∃ t, exec (.tlbRd 0 32) firstRecent = .next t :=
  ⟨by decide, by unfold regularLines; decide, by decide, by decide, _, rfl⟩

theorem witness_InsertAlwaysFindsAWay : pageOperandsOk firstRecent.cfg 0 48 ∧ regularLines firstRecent :=
  ⟨⟨by decide, by decide, by decide⟩, by unfold regularLines; decide⟩

theorem witness_OnlyInsertOrRawWriteMakesAPageHit :
    oneEntry.cfg.legal = true ∧ Memory.wf oneEntry.mem = true ∧ pageOperandsOk oneEntry.cfg 3 37 ∧
      gapsWithoutRawWrites oneEntry = true ∧ gapsWithoutInsert 3 37 oneEntry = true ∧
      rawWrite (.tlbIns 3 69 0x8000002C) = false ∧ insertsPage 3 37 (.tlbIns 3 69 0x8000002C) = false ∧
      after (.tlbRd 3 37) oneEntry = respond { status := .miss } oneEntry ∧
      ∃ t, exec (.tlbIns 3 69 0x8000002C) oneEntry = .next t :=
  ⟨by decide, by decide, ⟨by decide, by decide, by decide⟩, by decide, by decide, by decide, by decide, by decide, _, rfl⟩

theorem witness_OtherHostStepsAreCommands :
    pageOperandsOk (sized 16) 31 16383 ∧ ¬pageOperandsOk (sized 16) 32 0 ∧ ¬pageOperandsOk (sized 16) 0 16384 ∧
      ¬pageOperandsOk (sized 15) 0 0 := by unfold pageOperandsOk; decide

theorem witness_SchedulerGet :
    levelsOk State.reset = true ∧ (∀ l < State.reset.cfg.maxPrio, (levelAt State.reset l).items = []) ∧
      levelsOk queued = true ∧ 1 < queued.cfg.maxPrio ∧ (levelAt queued 1).items = 0xA :: [0xB] ∧
      ∀ l < 1, (levelAt queued l).items = [] := by decide

theorem witness_SchedulerPut :
    levelsOk fullLevel = true ∧ fullLevel.cfg.maxPrio ≤ (4 : Word).toNat ∧ (3 : Word).toNat < fullLevel.cfg.maxPrio ∧
      (levelAt fullLevel 3).items.length < fullLevel.cfg.maxQueue ∧
      (levelAt fullLevel 2).items.length = fullLevel.cfg.maxQueue := by decide

theorem witness_SchedulerEnd :
    levelsOk ending = true ∧ ending.cfg.maxPrio ≤ (4 : Word).toNat ∧ (3 : Word).toNat < ending.cfg.maxPrio ∧
      2 ^ ending.cfg.pidW ≤ (32 : Word).toNat ∧ (31 : Word).toNat < 2 ^ ending.cfg.pidW ∧
      2 ^ 14 < (16385 : Word).toNat ∧ (16384 : Word).toNat ≤ 2 ^ 14 ∧ 16 ≤ ending.cfg.cap ∧
      (storing 15 []).cfg.cap < 16 ∧ levelsOk (storing 15 []) = true := by decide

theorem witness_SchedulerQueries :
    (∀ l < State.reset.cfg.maxPrio, (levelAt State.reset l).items = []) ∧
      (∃ l < queued.cfg.maxPrio, (levelAt queued l).items ≠ []) ∧ queued.cfg.maxPrio ≤ (4 : Word).toNat ∧
      (3 : Word).toNat < queued.cfg.maxPrio := ⟨by decide, ⟨1, by decide, by decide⟩, by decide, by decide⟩

theorem witness_GetsDrainByLevelThenArrival : levelsOk queued = true ∧ waiting queued = [(0xA, 1), (0xB, 1)] := by decide

theorem witness_QuotaCountsPutsEndsAndGets :
    levelsOk fullLevel = true ∧ fullLevel.cfg.maxPrio ≤ 2 ^ 32 ∧ Instr.schInit ∉ [Instr.schPut 0x14 2, .schGet] ∧
      (∃ rs t, execAll [.schPut 0x14 2, .schGet] fullLevel = some (rs, t)) ∧ 2 < fullLevel.cfg.maxPrio ∧
      ∃ t, exec .schInit fullLevel = .next t := ⟨by decide, by decide, by decide, ⟨_, _, rfl⟩, by decide, _, rfl⟩

theorem witness_ErrorsArePrecise :
    levelsOk noVictim = true ∧ (answer (.tlbIns 0 0 0x80000005) noVictim).status = .novict ∧
      levelsOk State.reset = true ∧ (answer (.tlbRd 32 0) State.reset).status = .badArg ∧
      (answer (.tlbRd 31 16383) State.reset).status = .miss ∧ (answer .schGet State.reset).status = .empty ∧
      (answer (.tlbInvall 3) State.reset).status = .unimpl ∧
      (answer (.stWrw 1021 0xAABBCCDD) State.reset).status = .devErr ∧ levelsOk fullLevel = true ∧
      (answer (.schPut 0x14 2) fullLevel).status = .full := by decide

theorem witness_ErrorsArePrecise_badOp :
    ∃ t, runCommand 0 0x2F000000000000000000000000000000000000000000000000#200 State.reset = .next t ∧
      t.response.status = .badOp := ⟨_, rfl, rfl⟩

theorem witness_FlagsAreSticky :
    devErrFlag { queued with flags := 3 }.flags = true ∧ qFullFlag { queued with flags := 3 }.flags = true ∧
      Instr.schGet ≠ .schInit ∧ queued.gaps = [] ∧ (answer .schGet queued).status ≠ .devErr ∧
      (answer .schGet queued).status ≠ .full ∧ (answer (.stRdb 1024) queued).status = .devErr ∧
      (answer (.schPut 0x14 2) fullLevel).status = .full := by decide

theorem witness_FlagsAreSticky_reset :
    ∃ t, (given [.reset] queued).inputs = .reset :: [] ∧ step (given [.reset] queued) = .next t := ⟨_, rfl, rfl⟩

theorem witness_NoResultDependsOnFlags : ∃ t, exec .schGet queued = .next t := ⟨_, rfl⟩

theorem witness_StatusesOfEachCommand :
    ∃ t, exec (.schPut 0x14 2) fullLevel = .next t ∧ t.response.status ≠ .ok ∧ t.response.status ≠ .devErr ∧
      t.response.status ≠ .badArg := ⟨_, rfl, by decide, by decide, by decide⟩

theorem witness_UnitsKeepApart :
    unitOf (.tlbRd 3 5) ≠ 3 ∧ unitOf .schGet = 3 ∧ (∀ proc prio pid lo hi, Instr.schGet ≠ .schEnd proc prio pid lo hi) ∧
      (∃ t, exec (.tlbRd 3 5) oneEntry = .next t) ∧ ∃ t, exec .schGet queued = .next t :=
  ⟨by decide, by decide, (fun _ _ _ _ _ h => nomatch h), ⟨_, rfl⟩, _, rfl⟩

theorem witness_SchedulerAndStoreCommute :
    unitOf .schGet = 3 ∧ (∀ proc prio pid lo hi, Instr.schGet ≠ .schEnd proc prio pid lo hi) ∧
      unitOf (.tlbInv 3 5) ≠ 3 ∧
      ∃ a b c d, exec .schGet queued = .next a ∧ exec (.tlbInv 3 5) a = .next b ∧
        exec (.tlbInv 3 5) queued = .next c ∧ exec .schGet c = .next d :=
  ⟨by decide, (fun _ _ _ _ _ h => nomatch h), by decide, _, _, _, _, rfl, rfl, rfl, rfl⟩

theorem witness_StatisticsCountLookups :
    (given [.countLookup 0 3] (deliver 0 (after (.tlbRd 3 5) oneEntry))).wf = true ∧
      (hostResponse (deliver 0 (after (.tlbRd 3 5) oneEntry)) 0).status = .ok ∧
      (given [.countLookup 0 3] (deliver 0 (after (.tlbRd 3 37) oneEntry))).wf = true ∧
      (hostResponse (deliver 0 (after (.tlbRd 3 37) oneEntry)) 0).status ≠ .ok ∧
      (statsOf oneEntry 3).hit ≠ 0xFFFFFFFF ∧ (statsOf oneEntry 3).miss ≠ 0xFFFFFFFF ∧
      (given [.createProcess 3] oneEntry).wf = true := by decide

/-- The Façade's write and read of byte `0x520` of process 0, its page directory written, in a store of one line. -/
def facade : State :=
  { given (facWrite 0 0 0x520 [] true ++ facRead 0 0 0x520 []) (storing 16 []) with pgd := [(pgdKey 0 5, 0x8000000C)] }

theorem witness_WriteAfterMissMakesTheNextReadHit :
    facade.wf = true ∧ regularLines facade ∧ (0 : Word).toNat < 2 ^ facade.cfg.pidW ∧ 16 ≤ facade.cfg.cap ∧
      pageAbsent facade 0 (vaPage 0x520) = true ∧
      ptePresent (pgdRead facade (0 : Word).toNat (vaPage 0x520).toNat) = true ∧
      (statsOf facade (0 : Word).toNat).hit ≠ 0xFFFFFFFF ∧ (statsOf facade (0 : Word).toNat).miss ≠ 0xFFFFFFFF ∧
      facade.inputs = facWrite 0 0 0x520 [] true ++ facRead 0 0 0x520 [] ++ [] :=
  ⟨by decide, by unfold regularLines; decide, by decide, by decide, by decide, by decide, by decide, by decide,
    by decide⟩

theorem witness_FreeIsOneFlush :
    (given (facFree 0 3 0x500 0x700 [] true) oneEntry).wf = true ∧
      (given (facFree 0 3 0x500 0x700 [] true) oneEntry).gaps = [] ∧
      (3 : Word).toNat < 2 ^ oneEntry.cfg.pidW ∧ 16 ≤ oneEntry.cfg.cap ∧
      (given (facFree 0 3 0x500 0x700 [] true) oneEntry).inputs = facFree 0 3 0x500 0x700 [] true ++ [] ∧
      (0x500 : Word).toNat < (0x501 : Word).toNat ∧ (0x500 : Word).toNat ≤ (0x500 : Word).toNat := by decide

theorem witness_AllocInsertsEachPage :
    (given (facAlloc 0 3 (some (0x5FF, 0x601))) oneEntry).wf = true ∧
      (given (facAlloc 0 3 (some (0x5FF, 0x601))) oneEntry).inputs =
        facAlloc 0 3 (some (0x5FF, 0x601)) ++ [] ∧
      (facAlloc 0 3 (some (0x5FF, 0x601))).length = 2 ∧
      (given (facFlushOf 0 3) oneEntry).cfg.legal = true ∧
      (given (facFlushOf 0 3) oneEntry).inputs = facFlushOf 0 3 ++ [] := by decide

end Sys2Proof.Tests
end

/-! What one input and one step can do, and that neither changes the configuration. -/

namespace Sys2Proof.Machine

/-- An outcome delivered to a host goes on exactly when the outcome does, with that state's response delivered. -/
theorem delivered_eq_next_iff {host : Nat} {o : Host.Outcome State Fault Refusal} {t : State} :
    delivered host o = .next t ↔ ∃ u, o = .next u ∧ t = deliver host u := by
  cases o <;> simp [delivered, eq_comm]

/-- A command at the port runs and has its response delivered, or is no command and answers `BAD_OP`
(30_encoding.md R88, R94). -/
theorem runCommand_cases {host : Nat} {rec : BitVec 200} {s t : State} (h : runCommand host rec s = .next t) :
    (∃ i u, decode rec = .ok i ∧ exec i s = .next u ∧ t = deliver host u) ∨
      (∃ e, decode rec = .error e ∧ t = deliver host (raise .badOp s)) := by
  cases hd : decode rec with
  | ok i =>
    simp only [runCommand, hd] at h
    obtain ⟨u, hu, rfl⟩ := delivered_eq_next_iff.1 h
    exact .inl ⟨i, u, rfl, hu, rfl⟩
  | error e =>
    simp only [runCommand, hd] at h
    cases h
    exact .inr ⟨e, rfl, rfl⟩

/-- The Façade's insert does nothing, after a hit, or is the command `TLB.INS` with its response delivered
(44_facade.md R181, R184). -/
theorem insertFromDirectory_cases {host : Nat} {pid page : Word} {onlyAfterMiss : Bool} {s t : State}
    (h : insertFromDirectory host pid page onlyAfterMiss s = .next t) :
    t = s ∨ ∃ u, exec (.tlbIns pid page (pgdRead s pid.toNat page.toNat)) s = .next u ∧ t = deliver host u := by
  rw [insertFromDirectory] at h
  split at h
  · cases h
    exact .inl rfl
  · exact .inr (delivered_eq_next_iff.1 h)

/-- A step that goes on has a legal configuration, and waits or takes its first input. -/
theorem step_eq_next_iff {s t : State} :
    step s = .next t ↔
      s.cfg.legal = true ∧
        ((s.inputs = [] ∧ t = s) ∨
          ∃ x rest, s.inputs = x :: rest ∧ takeInput x { s with inputs := rest } = .next t) := by
  by_cases hl : s.cfg.legal = true
  · cases hi : s.inputs with
    | nil => simp [step, hl, hi, eq_comm]
    | cons x rest => simp [step, hl, hi]
  · simp [step, hl]

@[simp] theorem countLookup_cfg (host pid : Nat) (s : State) : (countLookup host pid s).cfg = s.cfg := rfl

@[simp] theorem createProcess_cfg (pid : Nat) (s : State) : (createProcess pid s).cfg = s.cfg := rfl

/-- A command followed by the delivery of its response keeps the configuration. -/
theorem deliver_exec_cfg {i : Instr} {s u : State} (h : exec i s = .next u) (host : Nat) :
    (deliver host u).cfg = s.cfg := by
  obtain ⟨hcfg, -⟩ := exec_keeps h
  rw [deliver_cfg, hcfg]

/-- No input changes the configuration. -/
theorem takeInput_cfg {x : Input} {s t : State} (h : takeInput x s = .next t) : t.cfg = s.cfg := by
  cases x with
  | command host rec =>
    rcases runCommand_cases h with ⟨i, u, -, hu, rfl⟩ | ⟨e, -, rfl⟩
    · exact deliver_exec_cfg hu host
    · rw [deliver_cfg, raise_cfg]
  | reset =>
    cases h
    exact resetBlock_cfg s
  | setPte pid page pte =>
    cases h
    exact writePte_cfg pid page pte s
  | createProcess pid =>
    cases h
    exact createProcess_cfg pid s
  | countLookup host pid =>
    cases h
    exact countLookup_cfg host pid s
  | insertFromDirectory host pid page onlyAfterMiss =>
    rcases insertFromDirectory_cases h with rfl | ⟨u, hu, rfl⟩
    · rfl
    · exact deliver_exec_cfg hu host

/-- No step changes the configuration (00_scope.md R9). -/
theorem step_cfg {s t : State} (h : step s = .next t) : t.cfg = s.cfg := by
  obtain ⟨-, ⟨-, rfl⟩ | ⟨x, rest, -, hx⟩⟩ := step_eq_next_iff.1 h
  · rfl
  · have hcfg := takeInput_cfg hx
    exact hcfg

/-- Settles O11: the frame of every command (`exec_keeps`), and the configuration through each kind of input. -/
theorem commandsLeaveTheOutsideAlone : Obligations.CommandsLeaveTheOutsideAlone :=
  ⟨fun _ _ _ h => exec_keeps h, fun _ _ h => step_cfg h⟩

end Sys2Proof.Machine

/-! The invariant of the state: kept by every part of a step, hence by every step. -/

namespace Sys2Proof.Machine

/-- Every command keeps the invariant. -/
theorem exec_wf {i : Instr} {s t : State} (hs : s.wf = true) (h : exec i s = .next t) : t.wf = true := by
  obtain ⟨hlegal, hstore, hlevels, hpgd, hstats⟩ := wf_iff.1 hs
  obtain ⟨ecfg, epgd, estats, -, -⟩ := exec_keeps h
  rw [wf_iff, ecfg, epgd, estats]
  exact ⟨hlegal, exec_storeGood hstore h, exec_levelsOk hlevels h, hpgd, hstats⟩

theorem deliver_wf {s : State} (hs : s.wf = true) (host : Nat) : (deliver host s).wf = true := by
  obtain ⟨hlegal, hstore, hlevels, hpgd, hstats⟩ := wf_iff.1 hs
  exact wf_iff.2 ⟨hlegal, hstore.deliver host, hlevels, hpgd, hstats⟩

theorem raise_wf {s : State} (hs : s.wf = true) (e : CmdError) : (raise e s).wf = true := by
  cases e <;> exact hs

/-- Reset empties the store, the queues and the statistics (10_state.md R41). -/
theorem resetBlock_wf {s : State} (hs : s.wf = true) : (resetBlock s).wf = true := by
  obtain ⟨hlegal, hstore, -, hpgd, -⟩ := wf_iff.1 hs
  exact wf_iff.2 ⟨hlegal, ⟨rfl, rfl, hstore.hosts⟩, levelsOk_initial rfl, hpgd, rfl⟩

theorem writePte_wf {s : State} (hs : s.wf = true) (pid : Nat) (page : BitVec 14) (pte : Word) :
    (writePte pid page pte s).wf = true := by
  obtain ⟨hlegal, hstore, hlevels, hpgd, hstats⟩ := wf_iff.1 hs
  exact wf_iff.2
    ⟨hlegal, ⟨hstore.wf, hstore.inside, hstore.hosts⟩, hlevels, rising_update hpgd (Nat.zero_le _) _, hstats⟩

/-- One process's counters set, and any free value taken, keep the invariant. -/
theorem stats_update_wf {s : State} (hs : s.wf = true) (pid n : Nat) (st : Stats) :
    ({ s with stats := update s.stats pid (some st), freeCount := n } : State).wf = true := by
  obtain ⟨hlegal, hstore, hlevels, hpgd, hstats⟩ := wf_iff.1 hs
  exact wf_iff.2
    ⟨hlegal, ⟨hstore.wf, hstore.inside, hstore.hosts⟩, hlevels, hpgd, rising_update hstats (Nat.zero_le _) _⟩

/-- Every input keeps the invariant. -/
theorem takeInput_wf {x : Input} {s t : State} (hs : s.wf = true) (h : takeInput x s = .next t) : t.wf = true := by
  cases x with
  | command host rec =>
    rcases runCommand_cases h with ⟨i, u, -, hu, rfl⟩ | ⟨e, -, rfl⟩
    · exact deliver_wf (exec_wf hs hu) host
    · exact deliver_wf (raise_wf hs _) host
  | reset =>
    cases h
    exact resetBlock_wf hs
  | setPte pid page pte =>
    cases h
    exact writePte_wf hs pid page pte
  | createProcess pid =>
    cases h
    exact stats_update_wf hs pid s.freeCount _
  | countLookup host pid =>
    cases h
    exact stats_update_wf hs pid (s.freeCount + 1) _
  | insertFromDirectory host pid page onlyAfterMiss =>
    rcases insertFromDirectory_cases h with rfl | ⟨u, hu, rfl⟩
    · exact hs
    · exact deliver_wf (exec_wf hs hu) host

/-- Settles O9: a step waits, or takes one input, and every kind of input keeps the invariant (`takeInput_wf`). -/
theorem stepKeepsInvariant : Obligations.StepKeepsInvariant := by
  intro s t hs h
  obtain ⟨-, ⟨-, rfl⟩ | ⟨x, rest, -, hx⟩⟩ := step_eq_next_iff.1 h
  · exact hs
  · exact takeInput_wf (s := { s with inputs := rest }) hs hx

/-- Settles O10: the reset state's maps and queues are empty. -/
theorem resetHasInvariant : Obligations.ResetHasInvariant := by
  have reset_wf : ∀ c : Config, c.legal = true → (State.resetOf c).wf = true := fun c hc =>
    wf_iff.2 ⟨hc, ⟨rfl, rfl, rfl⟩, levelsOk_initial rfl, rfl, rfl⟩
  exact ⟨reset_wf Config.vectors (by decide), reset_wf⟩

end Sys2Proof.Machine

/-! No command but a raw write makes both ways of a line recent (43_tlb.md R157): every other change of the store that
marks a way clears its sibling. -/

namespace Sys2Proof.Machine

/-- One way of the line is not recent. -/
def lineRegular (m : Memory) (i : Nat) : Prop :=
  ¬(wayRecency (wayWord m i 0) = true ∧ wayRecency (wayWord m i 1) = true)

theorem regularLines_iff {s : State} : regularLines s ↔ ∀ i < lines s.cfg, lineRegular s.mem i := Iff.rfl

theorem lineRegular_of_not_recent {m : Memory} {i w : Nat} (hw : w < 2) (h : wayRecency (wayWord m i w) = false) :
    lineRegular m i := by
  rintro ⟨h0, h1⟩
  obtain rfl | rfl : w = 0 ∨ w = 1 := by omega
  · simp [h] at h0
  · simp [h] at h1

/-- A line none of whose ways gains recency stays regular. -/
theorem lineRegular_mono {m m' : Memory} {i : Nat} (h : lineRegular m i)
    (hw : ∀ w < 2, wayRecency (wayWord m' i w) = true → wayRecency (wayWord m i w) = true) : lineRegular m' i :=
  fun ⟨h0, h1⟩ => h ⟨hw 0 (by omega) h0, hw 1 (by omega) h1⟩

/-- In its own line `touch` leaves the sibling not recent (R155). -/
theorem lineRegular_touch {m : Memory} (hm : Memory.wf m = true) {i w j : Nat} (hw : w < 2) (h : lineRegular m j) :
    lineRegular (touch m i w) j := by
  by_cases hj : j = i
  · refine lineRegular_of_not_recent (w := 1 - w) (by omega) ?_
    rw [wayWord_touch hm hw (by omega), if_pos hj, if_neg (by omega), wayRecency_clearRecent]
  · refine lineRegular_mono h fun w' hw' => ?_
    rw [wayWord_touch hm hw hw', if_neg hj]
    exact id

/-- In its own line a fill leaves the sibling not recent (R156). -/
theorem lineRegular_fillWay {m : Memory} (hm : Memory.wf m = true) {i k j : Nat} (hk : k < 2) (t : BitVec 30)
    (pte : Word) (h : lineRegular m j) : lineRegular (fillWay m i k t pte) j := by
  by_cases hj : j = i
  · refine lineRegular_of_not_recent (w := 1 - k) (by omega) ?_
    rw [wayWord_fillWay hm hk (by omega), if_pos hj, if_neg (by omega), wayRecency_clearRecent]
  · refine lineRegular_mono h fun w' hw' => ?_
    rw [wayWord_fillWay hm hk hw', if_neg hj]
    exact id

/-- Invalidating zeroes way words or leaves them (R160). -/
theorem lineRegular_invalidateLine {m : Memory} (hm : Memory.wf m = true) {i j : Nat} (t : BitVec 30)
    (h : lineRegular m j) : lineRegular (invalidateLine m i t).1 j := by
  refine lineRegular_mono h fun w hw => ?_
  rw [wayWord_invalidateLine hm hw]
  split
  · simp
  · exact id

/-- The store is canonical, its lines are regular, and no raw write of another host is waiting to break one. -/
structure QuietRegular (s : State) : Prop where
  wf : Memory.wf s.mem = true
  regular : regularLines s
  quiet : gapsWithoutRawWrites s = true

namespace QuietRegular

theorem of_same {s t : State} (h : QuietRegular s) (hcfg : t.cfg = s.cfg) (hmem : t.mem = s.mem)
    (hgaps : t.gaps = s.gaps) : QuietRegular t := by
  refine ⟨by rw [hmem]; exact h.wf, ?_, ?_⟩
  · rw [regularLines_iff, hcfg, hmem]
    exact h.regular
  · rw [gapsWithoutRawWrites, hgaps]
    exact h.quiet

theorem respond {s : State} (h : QuietRegular s) (r : Response) : QuietRegular (respond r s) := h.of_same rfl rfl rfl

theorem raise {s : State} (h : QuietRegular s) (e : CmdError) : QuietRegular (raise e s) :=
  h.of_same (raise_cfg e s) (raise_mem e s) (raise_gaps e s)

theorem deliver {s : State} (h : QuietRegular s) (host : Nat) : QuietRegular (deliver host s) := h.of_same rfl rfl rfl

/-- A store whose lines are all as regular as before. -/
theorem mem {s : State} (h : QuietRegular s) {m : Memory} (hm : Memory.wf m = true)
    (hr : ∀ i, lineRegular s.mem i → lineRegular m i) : QuietRegular { s with mem := m } :=
  ⟨hm, fun i hi => hr i (h.regular i hi), h.quiet⟩

theorem stRdb {s : State} (h : QuietRegular s) (addr : Word) : QuietRegular (stRdb addr s) := by
  rcases stRdb_cases addr s with ⟨-, e⟩ | ⟨-, e⟩ <;> rw [e]
  · exact h.raise _
  · exact h.respond _

theorem stRdw {s : State} (h : QuietRegular s) (addr : Word) : QuietRegular (stRdw addr s) := by
  rcases stRdw_cases addr s with ⟨-, e⟩ | ⟨-, e⟩ <;> rw [e]
  · exact h.raise _
  · exact h.respond _

theorem tlbRd {s : State} (h : QuietRegular s) (pid page : Word) : QuietRegular (tlbRd pid page s) := by
  rcases tlbRd_cases pid page s with ⟨_, -, e⟩ | ⟨-, w, hw, e⟩ | ⟨-, -, e⟩ <;> rw [e]
  · exact h.raise _
  · exact (h.mem (Memory.wf_touch h.wf _ _) fun _ => lineRegular_touch h.wf (hitWay_some hw).1).respond _
  · exact h.respond _

theorem tlbIns {s : State} (h : QuietRegular s) (pid page pte : Word) : QuietRegular (tlbIns pid page pte s) := by
  rcases tlbIns_cases pid page pte s with ⟨_, -, e⟩ | ⟨-, k, hk, e⟩ | ⟨-, -, e⟩ <;> rw [e]
  · exact h.raise _
  · exact (h.mem (Memory.wf_fillWay h.wf _ _ _ _) fun _ =>
      lineRegular_fillWay h.wf (victimWay_some hk).1 _ _).respond _
  · exact h.respond _

theorem invalidatePage {s : State} (h : QuietRegular s) (pid page : Nat) :
    QuietRegular (invalidatePage pid page s) :=
  h.mem (Memory.wf_invalidateLine h.wf _ _) fun _ => lineRegular_invalidateLine h.wf _

theorem tlbInv {s : State} (h : QuietRegular s) (pid page : Word) : QuietRegular (tlbInv pid page s) := by
  rcases tlbInv_cases pid page s with ⟨_, -, e⟩ | ⟨-, e⟩ <;> rw [e]
  · exact h.raise _
  · exact (h.invalidatePage _ _).respond _

theorem tlbInvall {s : State} (h : QuietRegular s) (pid : Word) : QuietRegular (tlbInvall pid s) := by
  rcases tlbInvall_cases pid s with ⟨_, -, e⟩ | ⟨-, e⟩ <;> rw [e]
  · exact h.raise _
  · exact h.respond _

theorem flushPage {s : State} (h : QuietRegular s) (pid page : Word) : QuietRegular (flushPage pid page s) := by
  rcases flushPage_cases pid page s with e | ⟨-, e⟩ <;> rw [e]
  · exact h
  · exact h.invalidatePage _ _

/-- Every step of another host but a raw write. -/
theorem otherHostStep {s : State} (h : QuietRegular s) {x : Nat × StoreStep} (hx : otherRawWrite x.2 = false) :
    QuietRegular (otherHostStep s x) := by
  obtain ⟨host, st⟩ := x
  cases st with
  | rdb addr => exact (h.stRdb addr).deliver host
  | wrb addr value => cases hx
  | rdw addr => exact (h.stRdw addr).deliver host
  | wrw addr value => cases hx
  | dump => exact (h.respond _).deliver host
  | bdump => exact (h.respond _).deliver host
  | rd pid page => exact (h.tlbRd pid page).deliver host
  | ins pid page pte => exact (h.tlbIns pid page pte).deliver host
  | inv pid page => exact (h.tlbInv pid page).deliver host
  | invall pid => exact (h.tlbInvall pid).deliver host
  | flushPage pid page => exact h.flushPage pid page
  | flushDone => exact (h.respond _).deliver host

/-- A whole gap: its steps hold no raw write, and neither do the gaps that stay. -/
theorem otherHosts {s : State} (h : QuietRegular s) : QuietRegular (otherHosts s) := by
  cases hg : s.gaps with
  | nil => rwa [otherHosts_nil hg]
  | cons g rest =>
    obtain ⟨hfirst, hrest⟩ : (∀ x ∈ g, otherRawWrite x.2 = false) ∧
        rest.all (fun g => g.all fun x => !otherRawWrite x.2) = true := by
      simpa [gapsWithoutRawWrites, hg] using h.quiet
    simp only [Machine.otherHosts, hg]
    exact List.foldlRecOn g Machine.otherHostStep (motive := QuietRegular) ⟨h.wf, h.regular, hrest⟩
      fun _ ht x hx => ht.otherHostStep (hfirst x hx)

theorem flushPages {s : State} (h : QuietRegular s) (pid p n : Nat) : QuietRegular (flushPages pid p n s) :=
  flushPages_keeps (P := QuietRegular) pid (fun _ _ h => h.invalidatePage _ _) (fun _ h => h.otherHosts) n p s h

theorem tlbFlush {s : State} (h : QuietRegular s) (pid lo hi : Word) : QuietRegular (tlbFlush pid lo hi s) := by
  rcases tlbFlush_cases pid lo hi s with ⟨_, -, e⟩ | ⟨-, e⟩ <;> rw [e]
  · exact h.raise _
  · exact (h.flushPages _ _ _).respond _

theorem afterFlush {s : State} (h : QuietRegular s) (pid lo hi : Word) : QuietRegular (afterFlush pid lo hi s) := by
  rw [Machine.afterFlush]
  split
  · exact h.flushPages _ _ _
  · exact h

/-- Every command of the scheduler: `SCH.END` flushes, the others leave the store and the gaps. -/
theorem exec_scheduler {i : Instr} (hi : unitOf i = 3) {s t : State} (h : QuietRegular s) (e : exec i s = .next t) :
    QuietRegular t := by
  by_cases hend : ∃ proc prio pid lo hi, i = .schEnd proc prio pid lo hi
  · obtain ⟨proc, prio, pid, lo, hi', rfl⟩ := hend
    rcases execSchEnd_cases proc prio pid lo hi' s with ⟨_, -, e'⟩ | ⟨-, e'⟩ <;> rw [e'] at e <;> cases e
    · exact h.raise _
    · exact (h.afterFlush pid lo hi').of_same rfl rfl rfl
  · obtain ⟨L, r, g, -, e'⟩ :=
      Machine.exec_scheduler hi (fun _ _ _ _ _ e => hend ⟨_, _, _, _, _, e⟩) s
    rw [e' s rfl rfl] at e
    cases e
    exact h.of_same rfl rfl rfl

/-- Every command but a raw write. -/
theorem exec {i : Instr} (hraw : rawWrite i = false) {s t : State} (h : QuietRegular s) (e : exec i s = .next t) :
    QuietRegular t := by
  cases i with
  | ptePack present frame dirty swapped swapType swapOff => cases e; exact h.respond _
  | vaOff addr => cases e; exact h.respond _
  | vaPgn addr => cases e; exact h.respond _
  | pteFpn pte => cases e; exact h.respond _
  | pteSwp pte => cases e; exact h.respond _
  | sumDec word => cases e; exact h.respond _
  | pteUnpack pte => cases e; exact h.respond _
  | stRdb addr => cases e; exact h.stRdb addr
  | stWrb addr value => cases hraw
  | stRdw addr => cases e; exact h.stRdw addr
  | stWrw addr value => cases hraw
  | stDump => cases e; exact h.respond _
  | stBdump => cases e; exact h.respond _
  | tlbRd pid page => cases e; exact h.tlbRd pid page
  | tlbIns pid page pte => cases e; exact h.tlbIns pid page pte
  | tlbInv pid page => cases e; exact h.tlbInv pid page
  | tlbFlush pid lo hi => cases e; exact h.tlbFlush pid lo hi
  | tlbInvall pid => cases e; exact h.tlbInvall pid
  | schInit => exact exec_scheduler (by simp [unitOf, Instr.opcode]) h e
  | schGet => exact exec_scheduler (by simp [unitOf, Instr.opcode]) h e
  | schPut proc prio => exact exec_scheduler (by simp [unitOf, Instr.opcode]) h e
  | schEnd proc prio pid lo hi => exact exec_scheduler (by simp [unitOf, Instr.opcode]) h e
  | schEmpty => exact exec_scheduler (by simp [unitOf, Instr.opcode]) h e
  | schSlot level => exact exec_scheduler (by simp [unitOf, Instr.opcode]) h e

end QuietRegular

/-- Settles O41: `QuietRegular` holds of the state before the command, and every command but a raw write keeps it. -/
theorem recencyStaysRegular : Obligations.RecencyStaysRegular := by
  intro i s t hwf hregular hquiet hraw h
  have ht : QuietRegular t := QuietRegular.exec hraw ⟨hwf, hregular, hquiet⟩ h
  exact ⟨ht.regular, ht.quiet⟩

end Sys2Proof.Machine

/-! What a command does not depend on: `FLAGS` (10_state.md R29) and the response of an earlier command (R22). -/

namespace Sys2Proof.Machine

/-- `s'` is `s` but for `FLAGS` and the response. -/
def SameButFlagsAndPort (s s' : State) : Prop := s' = { s with flags := s'.flags, response := s'.response }

namespace SameButFlagsAndPort

theorem sameStore {s s' : State} (h : SameButFlagsAndPort s s') : SameStore s s' := by
  rw [h]
  exact ⟨rfl, rfl, rfl, rfl⟩

/-- What the store unit does alike in two such states, and what it leaves alone, make two such states again. -/
theorem of_parallel {s t s' t' : State} (h : SameButFlagsAndPort s s') (hp : Parallel s t s' t')
    (hs : StoreOnly s t) (hs' : StoreOnly s' t') : SameButFlagsAndPort t t' := by
  rw [SameButFlagsAndPort] at h
  refine State.eq_of_fields hp.same.cfg.symm hp.same.mem.symm rfl ?_ rfl hp.same.hosts.symm ?_ ?_ ?_ ?_ ?_
    hp.same.gaps.symm
  · rw [hs'.levels, hs.levels, h]
  · rw [hs'.events, hs.events, h]
  · rw [hs'.pgd, hs.pgd, h]
  · rw [hs'.stats, hs.stats, h]
  · rw [hs'.freeCount, hs.freeCount, h]
  · rw [hs'.inputs, hs.inputs, h]

end SameButFlagsAndPort

/-- What the store unit does to `FLAGS` depends on `FLAGS` alone. -/
theorem Parallel.flags_eq {s t s' t' : State} (h : Parallel s t s' t') (hf : s'.flags = s.flags) :
    t'.flags = t.flags := by
  obtain ⟨d, -, ht, ht'⟩ := h.marks
  rw [ht, ht', hf]

theorem Parallel.afterFlush {s s' : State} (h : SameStore s s') (pid lo hi : Word) :
    Parallel s (afterFlush pid lo hi s) s' (afterFlush pid lo hi s') := by
  simp only [Machine.afterFlush, ← h.cfg]
  split
  · exact .flushPages h _ _ _
  · exact .refl h

/-- A command does the same in two states that differ in `FLAGS` and the response alone: the next states differ in
`FLAGS` alone, and not even there if `FLAGS` was the same. -/
def RunsAlike (i : Instr) (s s' : State) : Prop :=
  ∃ t t', exec i s = .next t ∧ exec i s' = .next t' ∧ t' = { t with flags := t'.flags } ∧
    (s'.flags = s.flags → t'.flags = t.flags)

theorem runsAlike_of_same_response {i : Instr} {s s' t t' : State} (e : exec i s = .next t) (e' : exec i s' = .next t')
    (h : SameButFlagsAndPort t t') (hr : t'.response = t.response) (hf : s'.flags = s.flags → t'.flags = t.flags) :
    RunsAlike i s s' := by
  refine ⟨t, t', e, e', ?_, hf⟩
  rw [SameButFlagsAndPort, hr] at h
  exact h

theorem schEnd_runsAlike {s s' : State} (h : SameButFlagsAndPort s s') (proc prio pid lo hi : Word) :
    RunsAlike (.schEnd proc prio pid lo hi) s s' := by
  have hstore := h.sameStore
  rcases execSchEnd_cases proc prio pid lo hi s with ⟨e, hc, hs⟩ | ⟨hc, hs⟩ <;>
    rcases execSchEnd_cases proc prio pid lo hi s' with ⟨e', hc', hs'⟩ | ⟨hc', hs'⟩ <;>
    rw [← hstore.cfg, hc] at hc' <;> cases hc'
  · have ha := Answers.raise hstore e
    exact runsAlike_of_same_response hs hs' (h.of_parallel ha.toParallel (.raise _ _) (.raise _ _)) ha.response.symm
      ha.toParallel.flags_eq
  · have hp := Parallel.afterFlush hstore pid lo hi
    have hsame := h.of_parallel hp (.afterFlush _ _ _ _) (.afterFlush _ _ _ _)
    have hwalk : walk s' pid.toNat lo.toNat hi.toNat = walk s pid.toNat lo.toNat hi.toNat :=
      walk_congr hstore.cfg.symm (by rw [h]) _ _ _
    refine runsAlike_of_same_response hs hs' ?_ (by rw [hwalk]; rfl) hp.flags_eq
    rw [SameButFlagsAndPort] at hsame ⊢
    rw [hwalk, hsame]
    rfl

/-- Every command does the same in two states that differ in `FLAGS` and the response alone. -/
theorem exec_runsAlike (i : Instr) {s s' : State} (h : SameButFlagsAndPort s s') : RunsAlike i s s' := by
  by_cases hi : unitOf i = 3
  · by_cases hend : ∃ proc prio pid lo hi, i = .schEnd proc prio pid lo hi
    · obtain ⟨proc, prio, pid, lo, hi', rfl⟩ := hend
      exact schEnd_runsAlike h proc prio pid lo hi'
    · obtain ⟨L, r, g, -, hs⟩ := exec_scheduler hi (fun _ _ _ _ _ e => hend ⟨_, _, _, _, _, e⟩) s
      refine ⟨_, _, hs s rfl rfl, hs s' (by rw [h]) (by rw [h]), ?_, fun hf => congrArg g hf⟩
      rw [SameButFlagsAndPort] at h
      rw [h]
      rfl
  · obtain ⟨t, t', e, e', ha, hs, hs'⟩ := exec_answers hi h.sameStore
    exact runsAlike_of_same_response e e' (h.of_parallel ha.toParallel hs hs') ha.response.symm ha.toParallel.flags_eq

/-- Settles O22: another response in the port is a state that differs there alone (`exec_runsAlike`). -/
theorem noCommandReadsTheResponse : Obligations.NoCommandReadsTheResponse := by
  intro i r s
  obtain ⟨t, t', e, e', htt', hf⟩ := exec_runsAlike i (s := s) (s' := respond r s) rfl
  rw [e, e', htt', hf rfl]

/-- Settles O53: other flags are a state that differs there alone (`exec_runsAlike`). -/
theorem noResultDependsOnFlags : Obligations.NoResultDependsOnFlags := by
  intro i f s t h
  obtain ⟨u, t', e, e', htt', -⟩ := exec_runsAlike i (s := s) (s' := { s with flags := f }) rfl
  rw [h] at e
  cases e
  exact ⟨t'.flags, by rw [e', ← htt']⟩

end Sys2Proof.Machine

/-! What single inputs do: a host's record (10_state.md R22, R23) and a write of the page directory (R28, R39). -/

namespace Sys2Proof.Machine

/-- In a legal configuration a step takes the first input. -/
theorem step_of_input {s : State} {x : Input} {rest : List Input} (hlegal : s.cfg.legal = true)
    (hin : s.inputs = x :: rest) : step s = takeInput x { s with inputs := rest } := by
  simp [step, hlegal, hin]

/-- A record that carries a command runs it, and its response is delivered. -/
theorem runCommand_of_decode {r : BitVec 200} {i : Instr} (hd : decode r = .ok i) (host : Nat) (s : State) :
    runCommand host r s = delivered host (exec i s) := by
  simp [runCommand, hd]

/-- Settles O6: the step takes the record, the port decodes it (`runCommand_of_decode`), and every command answers a next
state (`exec_next`). -/
theorem stepRunsDecodedCommand : Obligations.StepRunsDecodedCommand := by
  intro s host r rest i hlegal hin hd
  have hstep : step s = delivered host (exec i { s with inputs := rest }) :=
    (step_of_input hlegal hin).trans (runCommand_of_decode hd host _)
  obtain ⟨t, ht⟩ := exec_next i { s with inputs := rest }
  exact ⟨hstep, t, ht, by rw [hstep, ht, delivered]⟩

/-- A record's step ends with the delivery of a response to its host; before it the hosts' registers are a map, and with
no other host's step waiting they are as they were. -/
theorem runCommand_delivers {host : Nat} {r : BitVec 200} {s t : State} (hs : StoreGood s)
    (h : runCommand host r s = .next t) :
    ∃ u, t = deliver host u ∧ rising 0 u.hosts = true ∧ (s.gaps = [] → u.hosts = s.hosts) := by
  rcases runCommand_cases h with ⟨i, u, -, hu, rfl⟩ | ⟨e, -, rfl⟩
  · exact ⟨u, rfl, (exec_storeGood hs hu).hosts, fun hgaps => (exec_nil hgaps hu).1⟩
  · exact ⟨_, rfl, (hs.raise _).hosts, fun _ => raise_hosts _ s⟩

/-- Settles O7: the delivery writes the registers of its host alone, and the command before it writes no host's
(`runCommand_delivers`). -/
theorem responseGoesToItsHost : Obligations.ResponseGoesToItsHost := by
  intro s t host r rest hwf hin h
  obtain ⟨hlegal, hstore, -⟩ := wf_iff.1 hwf
  rw [step_of_input hlegal hin] at h
  have hstore' : StoreGood { s with inputs := rest } := ⟨hstore.wf, hstore.inside, hstore.hosts⟩
  obtain ⟨u, rfl, hrising, hkeeps⟩ := runCommand_delivers hstore' h
  refine ⟨hostResponse_deliver_same hrising host, fun hgaps other hne => ?_⟩
  rw [hostResponse_deliver_ne hne, hostResponse, hkeeps hgaps, hostResponse]

/-- The entry written reads as what was written. -/
theorem pgdRead_writePte_same {s : State} (h : rising 0 s.pgd = true) (pid : Nat) (page : BitVec 14) (pte : Word) :
    pgdRead (writePte pid page pte s) pid page.toNat = pte := by
  simp [pgdRead, lookup_update_same h]

/-- Every other entry reads as before. -/
theorem pgdRead_writePte_ne {pid pid' : Nat} {page page' : BitVec 14} (hne : (pid', page') ≠ (pid, page)) (pte : Word)
    (s : State) : pgdRead (writePte pid page pte s) pid' page'.toNat = pgdRead s pid' page'.toNat := by
  have hkey : pgdKey pid' page'.toNat ≠ pgdKey pid page.toNat := fun e => by
    obtain ⟨rfl, rfl⟩ := pgdKey_inj e
    exact hne rfl
  simp [pgdRead, lookup_update_ne _ hkey]

/-- Settles O12: `writePte` writes one entry of the directory, and the store unit, `TLB.RD` with it, does not run on the
directory (`exec_answers`). -/
theorem directoryWriteLeavesShadowEntriesStale : Obligations.DirectoryWriteLeavesShadowEntriesStale := by
  intro s pid page pte rest hwf hin
  obtain ⟨hlegal, -, -, hpgd, -⟩ := wf_iff.1 hwf
  refine ⟨writePte pid page pte { s with inputs := rest }, step_of_input hlegal hin, rfl,
    pgdRead_writePte_same hpgd pid page pte, fun pid' page' hne => pgdRead_writePte_ne hne pte _, fun p q => ?_⟩
  have hsame : SameStore s (writePte pid page pte { s with inputs := rest }) := ⟨rfl, rfl, rfl, rfl⟩
  obtain ⟨u, v, hu, hv, hanswers, -⟩ := exec_answers (i := .tlbRd p q) (by simp [unitOf, Instr.opcode]) hsame
  exact ⟨u, v, hu, hv, hanswers.response.symm, hanswers.same.mem.symm⟩

end Sys2Proof.Machine

/-! The reset state (10_state.md R41, 70_reset_and_hazards.md R271): what its empty store and empty queues answer. -/

namespace Sys2Proof.Machine

@[simp] theorem wayWord_nil (i w : Nat) : wayWord [] i w = 0 := memWord_nil _

@[simp] theorem wayPte_nil (i w : Nat) : wayPte [] i w = 0 := memWord_nil _

/-- No read hits in an empty store: no way is valid. -/
theorem hitWay_nil (i : Nat) (t : BitVec 30) : hitWay [] i t = none := by
  simp [hitWay_eq_none, wayHits]

theorem tlbRd_of_empty_store {s : State} (hmem : s.mem = []) {pid page : Word} (hok : pageOperandsOk s.cfg pid page) :
    exec (.tlbRd pid page) s = .next (respond { status := .miss } s) := by
  have hmiss : tlbRd pid page s = respond { status := .miss } s := by
    simp [tlbRd, checkPage_of_ok hok, hmem, hitWay_nil]
  rw [exec, execTlbRd, hmiss]

theorem schEmpty_of_empty_queues {s : State} (h : ∀ l < s.cfg.maxPrio, (levelAt s l).items = []) :
    exec .schEmpty s = .next (respond { status := .ok, res0 := 1 } s) := by
  have hall : (List.range s.cfg.maxPrio).all (fun l => queueEmpty l s) = true :=
    List.all_eq_true.2 fun l hl => queueEmpty_eq_true.2 (.inr (h l (List.mem_range.1 hl)))
  simp only [exec, execSchEmpty, hall, if_true]

/-- A level of the reset state: empty, with its initial quota. -/
theorem levelAt_resetOf (c : Config) {l : Nat} (h : l < c.maxPrio) :
    levelAt (State.resetOf c) l = { items := [], slot := c.quotaInit l } := getD_initialLevels c h _

/-- In a legal configuration the default quota of an unlisted level is a number in 32 bits signed (00_scope.md R9). -/
theorem toInt_quotaInit {c : Config} (hlegal : c.legal = true) {l : Nat} (hl : l < c.maxPrio)
    (hlisted : c.slotInit.length ≤ l) : (c.quotaInit l).toInt = c.maxPrio - l := by
  have hfits : c.maxPrio - c.slotInit.length < 2 ^ 31 := by
    simp only [Config.legal, Bool.and_eq_true, Config.slotInitOk, decide_eq_true_eq] at hlegal
    exact hlegal.2
  have hdefault : c.quotaInit l = BitVec.ofNat 32 (c.maxPrio - l) := by
    rw [Config.quotaInit, List.getD_eq_default _ _ hlisted]
  have hsmall : (BitVec.ofNat 32 (c.maxPrio - l)).toNat = c.maxPrio - l := by
    rw [BitVec.toNat_ofNat]
    omega
  rw [hdefault, BitVec.toInt_eq_toNat_of_lt (by omega), hsmall]
  omega

/-- Settles O13: the store and the queues of the reset state are empty, and what the empty store and the empty queues
answer is said above (`tlbRd_of_empty_store`, `schEmpty_of_empty_queues`). -/
theorem resetStateIsAllClear : Obligations.ResetStateIsAllClear := by
  rintro c s rfl
  have hlevel : ∀ l < c.maxPrio, (levelAt (State.resetOf c) l).items = [] ∧
      (levelAt (State.resetOf c) l).slot = c.quotaInit l := fun l hl => by simp [levelAt_resetOf c hl]
  have hway : ∀ i w, wayValid (wayWord [] i w) = false ∧ wayRecency (wayWord [] i w) = false ∧
      wayTag (wayWord [] i w) = 0 ∧ wayPte [] i w = 0 := by simp
  have hflags : devErrFlag 0 = false ∧ qFullFlag 0 = false := by decide
  refine ⟨fun _ => rfl, hway, hflags.1, hflags.2, length_initialLevels c, hlevel, fun _ => rfl,
    fun _ _ hok => tlbRd_of_empty_store rfl hok, schEmpty_of_empty_queues fun l hl => (hlevel l hl).1, ?_⟩
  intro hlegal l hl hlisted
  rw [(hlevel l hl).2, toInt_quotaInit hlegal hl hlisted]

end Sys2Proof.Machine

/-! Reads of the store after a word has been written to it (20_memory.md R51, R58). -/

namespace Sys2Proof.Machine

/-- A byte read in range answers the byte (42_bytestore.md R130). -/
theorem exec_stRdb_inside {s : State} {addr : Word} (h : addr.toNat < s.cfg.cap) :
    exec (.stRdb addr) s = .next (respond { status := .ok, res0 := (memByte s.mem addr.toNat).setWidth 32 } s) := by
  rcases stRdb_cases addr s with ⟨hc, -⟩ | ⟨-, e⟩
  · omega
  · rw [exec, execStRdb, e]

/-- What an error answers does not depend on the state (60_exceptions.md R246). -/
theorem raise_response_congr (e : CmdError) (s t : State) : (raise e t).response = (raise e s).response := by
  cases e <;> rfl

/-- A byte read looks at nothing but its byte and the range of the store. -/
theorem stRdb_response_congr {s t : State} {addr : Word} (hcfg : t.cfg = s.cfg)
    (hbyte : memByte t.mem addr.toNat = memByte s.mem addr.toNat) :
    (stRdb addr t).response = (stRdb addr s).response := by
  simp only [stRdb, memRead1, hcfg, hbyte]
  split
  · exact raise_response_congr _ s t
  · rfl

/-- A word read in range answers the word (R132). -/
theorem exec_stRdw_inside {s : State} {addr : Word} (h : addr.toNat + 3 < s.cfg.cap) :
    exec (.stRdw addr) s = .next (respond { status := .ok, res0 := memWord s.mem addr.toNat } s) := by
  rcases stRdw_cases addr s with ⟨hc, -⟩ | ⟨-, e⟩
  · omega
  · rw [exec, execStRdw, e]

/-- A word write in range stores the word (R133). -/
theorem exec_stWrw_inside {s : State} {addr v : Word} (h : addr.toNat + 3 < s.cfg.cap) :
    exec (.stWrw addr v) s = .next (respond { status := .ok } { s with mem := setWord s.mem addr.toNat v }) := by
  rcases stWrw_cases addr v s with ⟨hc, -⟩ | ⟨-, e⟩
  · omega
  · rw [exec, execStWrw, e]

/-- Byte `k` of a stored word, counted from the most significant end (20_memory.md R51). -/
theorem memByte_setWord_add {m : Memory} (h : Memory.wf m = true) (a : Nat) (v : Word) {k : Nat} (hk : k < 4) :
    memByte (setWord m a v) (a + k) = v.extractLsb' (24 - 8 * k) 8 := by
  obtain ⟨h0, h1, h2, h3⟩ := memByte_setWord h a v
  obtain rfl | rfl | rfl | rfl : k = 0 ∨ k = 1 ∨ k = 2 ∨ k = 3 := by omega
  · exact h0
  · exact h1
  · exact h2
  · exact h3

/-- An address of a legal store does not wrap. -/
theorem toNat_add_ofNat_of_inside {c : Config} (hlegal : c.legal = true) {addr : Word} {k : Nat}
    (h : addr.toNat + k < c.cap) : (addr + BitVec.ofNat 32 k).toNat = addr.toNat + k := by
  have hcap : c.cap < 2 ^ 32 := by
    simp only [Config.legal, Config.capOk, Bool.and_eq_true, decide_eq_true_eq] at hlegal
    omega
  rw [BitVec.toNat_add, BitVec.toNat_ofNat]
  omega

/-- Settles O28: the write stores the word's four bytes (`memByte_setWord_add`) and no other
(`memByte_setWord_outside`), and a read answers what is stored, or, out of range, the same error. -/
theorem wordWriteThenReads : Obligations.WordWriteThenReads := by
  intro addr v s hlegal hwf hinside
  obtain ⟨t, hwrite, hcfg, hmem⟩ :
      ∃ t, exec (.stWrw addr v) s = .next t ∧ t.cfg = s.cfg ∧ t.mem = setWord s.mem addr.toNat v :=
    ⟨_, exec_stWrw_inside hinside, rfl, rfl⟩
  rw [← hcfg] at hlegal hinside
  refine ⟨t, hwrite, ?_, fun k hk => ?_, fun b hb => ⟨_, _, rfl, rfl, ?_⟩⟩
  · rw [exec_stRdw_inside hinside, hmem, memWord_setWord_same hwf]
  · have haddr : (addr + BitVec.ofNat 32 k).toNat = addr.toNat + k :=
      toNat_add_ofNat_of_inside hlegal (by omega)
    rw [exec_stRdb_inside (by omega), haddr, hmem, memByte_setWord_add hwf _ _ hk]
  · refine stRdb_response_congr hcfg ?_
    rw [hmem, memByte_setWord_outside _ hb]

end Sys2Proof.Machine

/-! What another host does inside a flush is a command (20_memory.md R62, R66; 43_tlb.md R167). -/

namespace Sys2Proof.Machine

/-- A page command passes its checks exactly when its operands are in range and the store has a line (43_tlb.md R150). -/
theorem checkPage_eq_none_iff_ok {c : Config} {pid page : Word} :
    checkPage c pid page = none ↔ pageOperandsOk c pid page := by
  refine ⟨fun h => ?_, checkPage_of_ok⟩
  obtain ⟨hp, hg, hl⟩ := checkPage_eq_none.1 h
  exact ⟨hp, hg, by simpa using line_inside hl⟩

/-- A page of another host's flush does to the store what `TLB.INV` does, and nothing else. -/
theorem flushPage_of_ok {s : State} {pid page : Word} (h : pageOperandsOk s.cfg pid page) :
    flushPage pid page s = { s with mem := (tlbInv pid page s).mem } := by
  simp [flushPage, tlbInv, checkPage_of_ok h, invalidatePage]

theorem flushPage_of_not_ok {s : State} {pid page : Word} (h : ¬pageOperandsOk s.cfg pid page) :
    flushPage pid page s = s := by
  rcases flushPage_cases pid page s with e | ⟨hc, -⟩
  · exact e
  · exact absurd (checkPage_eq_none_iff_ok.1 hc) h

/-- Settles O36: each command of another host is the command's own step with its response delivered, by the definitions;
a page of its flush is said above (`flushPage_of_ok`, `flushPage_of_not_ok`). -/
theorem otherHostStepsAreCommands : Obligations.OtherHostStepsAreCommands := by
  intro h a v p q x s
  exact ⟨rfl, rfl, rfl, rfl, rfl, rfl, rfl, rfl, rfl, rfl, fun hok => ⟨_, rfl, flushPage_of_ok hok⟩,
    flushPage_of_not_ok, rfl⟩

end Sys2Proof.Machine

/-! A page that misses keeps missing (20_memory.md R70, 43_tlb.md R171): of all changes of the store only a raw write, or an
insert of that very page, can make a way of its line hit. -/

namespace Sys2Proof.Machine

/-- The page of line `i` and tag `t` misses: no way of the line hits. -/
def noWayHits (m : Memory) (i : Nat) (t : BitVec 30) : Prop := ∀ w < 2, wayHits m i w t = false

theorem noWayHits_iff {m : Memory} {i : Nat} {t : BitVec 30} : noWayHits m i t ↔ hitWay m i t = none := by
  rw [hitWay_eq_none, noWayHits]
  exact ⟨fun h => ⟨h 0 (by omega), h 1 (by omega)⟩, fun ⟨h0, h1⟩ w hw => by
    obtain rfl | rfl : w = 0 ∨ w = 1 := by omega
    · exact h0
    · exact h1⟩

/-- A read of the page answers `MISS`, and changes nothing else, exactly when no way hits (43_tlb.md R154). -/
theorem tlbRd_misses_iff {s : State} {pid page : Word} (hok : pageOperandsOk s.cfg pid page) :
    exec (.tlbRd pid page) s = .next (respond { status := .miss } s) ↔
      noWayHits s.mem (lineOf s.cfg pid.toNat page.toNat) (tag pid.toNat page.toNat) := by
  rw [noWayHits_iff, exec, execTlbRd]
  rcases tlbRd_cases pid page s with ⟨e, hc, -⟩ | ⟨-, w, hw, h⟩ | ⟨-, hw, h⟩
  · rw [checkPage_of_ok hok] at hc
    cases hc
  · rw [h, hw]
    constructor
    · intro heq
      injection heq with heq
      have hst := congrArg (fun t => t.response.status) heq
      cases hst
    · intro heq
      cases heq
  · rw [h, hw]
    exact ⟨fun _ => rfl, fun _ => rfl⟩

/-! What each change of the TLB engine does to a line without a hit. -/

/-- Where no way gains a hit, a page that missed misses. -/
theorem noWayHits_mono {m m' : Memory} {i : Nat} {t : BitVec 30} (h : noWayHits m i t)
    (hw : ∀ w < 2, wayHits m' i w t = true → wayHits m i w t = true) : noWayHits m' i t := by
  intro w hlt
  by_contra hit
  have := hw w hlt (by simpa using hit)
  rw [h w hlt] at this
  cases this

/-- `touch` changes recency alone, which no read looks at (43_tlb.md R154, R155). -/
theorem noWayHits_touch {m : Memory} (hm : Memory.wf m = true) {i w j : Nat} (hw : w < 2) {t : BitVec 30}
    (h : noWayHits m j t) : noWayHits (touch m i w) j t := by
  refine noWayHits_mono h fun w' hw' => ?_
  rw [wayHits, wayPte_touch, wayWord_touch hm hw hw', wayHits]
  split
  · subst j
    split
    · subst w'
      simp
    · simp
  · exact id

/-- A fill with another tag: the filled way does not hold this one, and the sibling loses its recency alone (R156). -/
theorem noWayHits_fillWay {m : Memory} (hm : Memory.wf m = true) {i k j : Nat} (hk : k < 2) {t t' : BitVec 30}
    (hne : t' ≠ t) (pte : Word) (h : noWayHits m j t) : noWayHits (fillWay m i k t' pte) j t := by
  refine noWayHits_mono h fun w hw => ?_
  rw [wayHits, wayWord_fillWay hm hk hw, wayPte_fillWay hm hk hw, wayHits]
  by_cases hj : j = i
  · subst j
    by_cases hwk : w = k
    · simp [hwk, hne]
    · simp [hwk]
  · simp [hj]

/-- Invalidating zeroes ways, and a zero way is not valid, or leaves them (R160). -/
theorem noWayHits_invalidateLine {m : Memory} (hm : Memory.wf m = true) {i j : Nat} (t' : BitVec 30) {t : BitVec 30}
    (h : noWayHits m j t) : noWayHits (invalidateLine m i t').1 j t := by
  refine noWayHits_mono h fun w hw => ?_
  rw [wayHits, wayWord_invalidateLine hm hw, wayPte_invalidateLine hm hw, wayHits]
  split
  · simp
  · exact id

/-- Another page that passes its checks has another tag (R171). -/
theorem tag_ne_of_other_page {c : Config} (hlegal : c.legal = true) {pid page pid' page' : Word}
    (hok : pageOperandsOk c pid page) (hcheck : checkPage c pid' page' = none) (hne : ¬(pid' = pid ∧ page' = page)) :
    tag pid'.toNat page'.toNat ≠ tag pid.toNat page.toNat := by
  have hw : c.pidW ≤ 16 := by
    simp only [Config.legal, Config.pidWidthOk, Bool.and_eq_true, decide_eq_true_eq] at hlegal
    omega
  have hpow : 2 ^ c.pidW ≤ 2 ^ 16 := Nat.pow_le_pow_right (by decide) hw
  obtain ⟨hp, hg, -⟩ := hok
  obtain ⟨hp', hg', -⟩ := checkPage_eq_none.1 hcheck
  intro heq
  obtain ⟨epid, epage⟩ := tag_inj (by omega) hg' (by omega) hg heq
  exact hne ⟨BitVec.eq_of_toNat_eq epid, BitVec.eq_of_toNat_eq epage⟩

/-! What another host's step and a scheduler's command can do to the store and to the steps still waiting. -/

/-- No step of another host changes which steps are still waiting. -/
theorem otherHostStep_gaps (s : State) (x : Nat × StoreStep) : (otherHostStep s x).gaps = s.gaps := by
  refine otherHostStep_keeps (P := fun t => t.gaps = s.gaps) (fun _ _ h => h)
    (fun e t h => (raise_gaps e t).trans h) (fun _ _ h => h) (fun addr value t h => ?_) (fun addr value t h => ?_)
    (fun pid page t h => ?_) (fun pid page pte t h => ?_) (fun _ _ _ _ h => h) x s rfl
  · rcases stWrb_cases addr value t with ⟨-, e⟩ | ⟨-, e⟩ <;> simp [e, h]
  · rcases stWrw_cases addr value t with ⟨-, e⟩ | ⟨-, e⟩ <;> simp [e, h]
  · rcases tlbRd_cases pid page t with ⟨_, -, e⟩ | ⟨-, _, -, e⟩ | ⟨-, -, e⟩ <;> simp [e, h]
  · rcases tlbIns_cases pid page pte t with ⟨_, -, e⟩ | ⟨-, _, -, e⟩ | ⟨-, -, e⟩ <;> simp [e, h]

/-- A step of another host that is no raw write leaves the store, touches a way, fills one with the page it inserts, or
invalidates a line (20_memory.md R70). -/
theorem otherHostStep_mem_cases {x : Nat × StoreStep} (hraw : otherRawWrite x.2 = false) (s : State) :
    (otherHostStep s x).mem = s.mem ∨
      (∃ i w, w < 2 ∧ (otherHostStep s x).mem = touch s.mem i w) ∨
      (∃ pid page pte i k, x.2 = .ins pid page pte ∧ checkPage s.cfg pid page = none ∧ k < 2 ∧
        (otherHostStep s x).mem = fillWay s.mem i k (tag pid.toNat page.toNat) pte) ∨
      ∃ i t, (otherHostStep s x).mem = (invalidateLine s.mem i t).1 := by
  obtain ⟨host, st⟩ := x
  cases st with
  | rdb addr => exact .inl (by rcases stRdb_cases addr s with ⟨-, e⟩ | ⟨-, e⟩ <;> simp [otherHostStep, e])
  | wrb addr value => cases hraw
  | rdw addr => exact .inl (by rcases stRdw_cases addr s with ⟨-, e⟩ | ⟨-, e⟩ <;> simp [otherHostStep, e])
  | wrw addr value => cases hraw
  | dump => exact .inl rfl
  | bdump => exact .inl rfl
  | rd pid page =>
    rcases tlbRd_cases pid page s with ⟨_, -, e⟩ | ⟨-, w, hw, e⟩ | ⟨-, -, e⟩
    · exact .inl (by simp [otherHostStep, e])
    · exact .inr (.inl ⟨_, w, (hitWay_some hw).1, congrArg State.mem e⟩)
    · exact .inl (by simp [otherHostStep, e])
  | ins pid page pte =>
    rcases tlbIns_cases pid page pte s with ⟨_, -, e⟩ | ⟨hc, k, hk, e⟩ | ⟨-, -, e⟩
    · exact .inl (by simp [otherHostStep, e])
    · exact .inr (.inr (.inl ⟨pid, page, pte, _, k, rfl, hc, (victimWay_some hk).1, congrArg State.mem e⟩))
    · exact .inl (by simp [otherHostStep, e])
  | inv pid page =>
    rcases tlbInv_cases pid page s with ⟨_, -, e⟩ | ⟨-, e⟩
    · exact .inl (by simp [otherHostStep, e])
    · exact .inr (.inr (.inr ⟨_, _, congrArg State.mem e⟩))
  | invall pid => exact .inl (by rcases tlbInvall_cases pid s with ⟨_, -, e⟩ | ⟨-, e⟩ <;> simp [otherHostStep, e])
  | flushPage pid page =>
    rcases flushPage_cases pid page s with e | ⟨-, e⟩
    · exact .inl (congrArg State.mem e)
    · exact .inr (.inr (.inr ⟨_, _, congrArg State.mem e⟩))
  | flushDone => exact .inl rfl

/-- A scheduler's command leaves the store and the waiting steps, but for the flush of `SCH.END`
(46_scheduler.md R215, R222). -/
theorem exec_scheduler_store {i : Instr} (hi : unitOf i = 3) {s t : State} (h : exec i s = .next t) :
    (t.mem = s.mem ∧ t.gaps = s.gaps) ∨
      ∃ pid lo hi, t.mem = (afterFlush pid lo hi s).mem ∧ t.gaps = (afterFlush pid lo hi s).gaps := by
  by_cases hend : ∃ proc prio pid lo hi, i = .schEnd proc prio pid lo hi
  · obtain ⟨proc, prio, pid, lo, hi', rfl⟩ := hend
    rcases execSchEnd_cases proc prio pid lo hi' s with ⟨e, -, h'⟩ | ⟨-, h'⟩ <;> rw [h'] at h <;> cases h
    · exact .inl ⟨raise_mem e s, raise_gaps e s⟩
    · exact .inr ⟨pid, lo, hi', rfl, rfl⟩
  · obtain ⟨L, r, g, -, h'⟩ := exec_scheduler hi (fun _ _ _ _ _ e => hend ⟨_, _, _, _, _, e⟩) s
    rw [h' s rfl rfl] at h
    cases h
    exact .inl ⟨rfl, rfl⟩

/-! The invariant: the page misses, and nothing that could make it hit is waiting. -/

/-- The page misses, and no other host's raw write or insert of the page is waiting. -/
structure StaysMissing (pid page : Word) (s : State) : Prop where
  legal : s.cfg.legal = true
  wf : Memory.wf s.mem = true
  ok : pageOperandsOk s.cfg pid page
  misses : noWayHits s.mem (lineOf s.cfg pid.toNat page.toNat) (tag pid.toNat page.toNat)
  noRawWrite : gapsWithoutRawWrites s = true
  noInsert : gapsWithoutInsert pid page s = true

namespace StaysMissing

variable {pid page : Word} {s : State}

/-- A store in which the page misses too, the same steps waiting. -/
theorem of_mem {t : State} (h : StaysMissing pid page s) (hcfg : t.cfg = s.cfg) (hgaps : t.gaps = s.gaps)
    (hwf : Memory.wf t.mem = true)
    (hmisses : noWayHits t.mem (lineOf s.cfg pid.toNat page.toNat) (tag pid.toNat page.toNat)) :
    StaysMissing pid page t where
  legal := by rw [hcfg]; exact h.legal
  wf := hwf
  ok := by rw [hcfg]; exact h.ok
  misses := by rw [hcfg]; exact hmisses
  noRawWrite := by rw [gapsWithoutRawWrites, hgaps]; exact h.noRawWrite
  noInsert := by rw [gapsWithoutInsert, hgaps]; exact h.noInsert

theorem of_same {t : State} (h : StaysMissing pid page s) (hcfg : t.cfg = s.cfg) (hmem : t.mem = s.mem)
    (hgaps : t.gaps = s.gaps) : StaysMissing pid page t :=
  h.of_mem hcfg hgaps (by rw [hmem]; exact h.wf) (by rw [hmem]; exact h.misses)

/-- Every step of another host but a raw write and the page's insert. -/
theorem otherHostStep (h : StaysMissing pid page s) {x : Nat × StoreStep} (hraw : otherRawWrite x.2 = false)
    (hins : otherInsertsPage pid page x.2 = false) : StaysMissing pid page (otherHostStep s x) := by
  have hcfg := (StoreOnly.otherHostStep s x).cfg
  have hgaps := otherHostStep_gaps s x
  rcases otherHostStep_mem_cases hraw s with
    e | ⟨i, w, hw, e⟩ | ⟨pid', page', pte, i, k, hx, hcheck, hk, e⟩ | ⟨i, t, e⟩
  · exact h.of_same hcfg e hgaps
  · refine h.of_mem hcfg hgaps ?_ ?_ <;> rw [e]
    · exact Memory.wf_touch h.wf i w
    · exact noWayHits_touch h.wf hw h.misses
  · have hne : ¬(pid' = pid ∧ page' = page) := by simpa [hx, otherInsertsPage] using hins
    refine h.of_mem hcfg hgaps ?_ ?_ <;> rw [e]
    · exact Memory.wf_fillWay h.wf i k _ pte
    · exact noWayHits_fillWay h.wf hk (tag_ne_of_other_page h.legal h.ok hcheck hne) pte h.misses
  · refine h.of_mem hcfg hgaps ?_ ?_ <;> rw [e]
    · exact Memory.wf_invalidateLine h.wf i t
    · exact noWayHits_invalidateLine h.wf t h.misses

/-- A whole gap: its steps hold neither, and neither do the gaps that stay. -/
theorem otherHosts (h : StaysMissing pid page s) : StaysMissing pid page (otherHosts s) := by
  cases hg : s.gaps with
  | nil => rwa [otherHosts_nil hg]
  | cons g rest =>
    obtain ⟨hraw, hrawRest⟩ : (∀ x ∈ g, otherRawWrite x.2 = false) ∧
        rest.all (fun g => g.all fun x => !otherRawWrite x.2) = true := by
      simpa [gapsWithoutRawWrites, hg] using h.noRawWrite
    obtain ⟨hins, hinsRest⟩ : (∀ x ∈ g, otherInsertsPage pid page x.2 = false) ∧
        rest.all (fun g => g.all fun x => !otherInsertsPage pid page x.2) = true := by
      simpa [gapsWithoutInsert, hg] using h.noInsert
    simp only [Machine.otherHosts, hg]
    exact List.foldlRecOn g Machine.otherHostStep (motive := StaysMissing pid page)
      ⟨h.legal, h.wf, h.ok, h.misses, hrawRest, hinsRest⟩ fun _ ht x hx => ht.otherHostStep (hraw x hx) (hins x hx)

theorem invalidatePage (h : StaysMissing pid page s) (pid' page' : Nat) :
    StaysMissing pid page (invalidatePage pid' page' s) :=
  h.of_mem rfl rfl (Memory.wf_invalidateLine h.wf _ _) (noWayHits_invalidateLine h.wf _ h.misses)

theorem flushPages (h : StaysMissing pid page s) (pid' p n : Nat) : StaysMissing pid page (flushPages pid' p n s) :=
  flushPages_keeps (P := StaysMissing pid page) pid' (fun _ _ h => h.invalidatePage _ _) (fun _ h => h.otherHosts) n p s h

theorem tlbFlush (h : StaysMissing pid page s) (pid' lo hi : Word) : StaysMissing pid page (tlbFlush pid' lo hi s) := by
  rcases tlbFlush_cases pid' lo hi s with ⟨e, -, he⟩ | ⟨-, he⟩ <;> rw [he]
  · exact h.of_same (raise_cfg e s) (raise_mem e s) (raise_gaps e s)
  · exact (h.flushPages _ _ _).of_same rfl rfl rfl

theorem afterFlush (h : StaysMissing pid page s) (pid' lo hi : Word) :
    StaysMissing pid page (afterFlush pid' lo hi s) := by
  rw [Machine.afterFlush]
  split
  · exact h.flushPages _ _ _
  · exact h

theorem exec_scheduler {i : Instr} (hi : unitOf i = 3) {t : State} (h : StaysMissing pid page s)
    (e : exec i s = .next t) : StaysMissing pid page t := by
  obtain ⟨hcfg, -⟩ := exec_keeps e
  rcases exec_scheduler_store hi e with ⟨hmem, hgaps⟩ | ⟨pid', lo, hi', hmem, hgaps⟩
  · exact h.of_same hcfg hmem hgaps
  · exact (h.afterFlush pid' lo hi').of_same (hcfg.trans (StoreOnly.afterFlush pid' lo hi' s).cfg.symm) hmem hgaps

/-- A command that another host could issue too: what holds of the other host's step holds of the command, which differs
from it in where the response goes alone. -/
theorem of_otherHostStep {x : Nat × StoreStep} {t : State} (h : StaysMissing pid page s)
    (hraw : otherRawWrite x.2 = false) (hins : otherInsertsPage pid page x.2 = false)
    (ht : Machine.otherHostStep s x = deliver x.1 t) : StaysMissing pid page t := by
  have hx := h.otherHostStep hraw hins
  rw [ht] at hx
  exact hx.of_same rfl rfl rfl

/-- Every command but a raw write and the page's insert. -/
theorem exec {i : Instr} (hraw : rawWrite i = false) (hins : insertsPage pid page i = false) {t : State}
    (h : StaysMissing pid page s) (e : exec i s = .next t) : StaysMissing pid page t := by
  cases i with
  | ptePack present frame dirty swapped swapType swapOff => cases e; exact h.of_same rfl rfl rfl
  | vaOff addr => cases e; exact h.of_same rfl rfl rfl
  | vaPgn addr => cases e; exact h.of_same rfl rfl rfl
  | pteFpn pte => cases e; exact h.of_same rfl rfl rfl
  | pteSwp pte => cases e; exact h.of_same rfl rfl rfl
  | sumDec word => cases e; exact h.of_same rfl rfl rfl
  | pteUnpack pte => cases e; exact h.of_same rfl rfl rfl
  | stRdb addr => cases e; exact h.of_otherHostStep (x := (0, .rdb addr)) rfl rfl rfl
  | stWrb addr value => cases hraw
  | stRdw addr => cases e; exact h.of_otherHostStep (x := (0, .rdw addr)) rfl rfl rfl
  | stWrw addr value => cases hraw
  | stDump => cases e; exact h.of_same rfl rfl rfl
  | stBdump => cases e; exact h.of_same rfl rfl rfl
  | tlbRd pid' page' => cases e; exact h.of_otherHostStep (x := (0, .rd pid' page')) rfl rfl rfl
  | tlbIns pid' page' pte => cases e; exact h.of_otherHostStep (x := (0, .ins pid' page' pte)) rfl hins rfl
  | tlbInv pid' page' => cases e; exact h.of_otherHostStep (x := (0, .inv pid' page')) rfl rfl rfl
  | tlbFlush pid' lo hi => cases e; exact h.tlbFlush pid' lo hi
  | tlbInvall pid' => cases e; exact h.of_otherHostStep (x := (0, .invall pid')) rfl rfl rfl
  | schInit => exact h.exec_scheduler (by simp [unitOf, Instr.opcode]) e
  | schGet => exact h.exec_scheduler (by simp [unitOf, Instr.opcode]) e
  | schPut proc prio => exact h.exec_scheduler (by simp [unitOf, Instr.opcode]) e
  | schEnd proc prio pid' lo hi => exact h.exec_scheduler (by simp [unitOf, Instr.opcode]) e
  | schEmpty => exact h.exec_scheduler (by simp [unitOf, Instr.opcode]) e
  | schSlot level => exact h.exec_scheduler (by simp [unitOf, Instr.opcode]) e

end StaysMissing

/-- Settles O43: `StaysMissing` holds of the state before the command, every command but a raw write and the page's insert
keeps it, and it is what a read that answers `MISS` needs (`tlbRd_misses_iff`). -/
theorem onlyInsertOrRawWriteMakesAPageHit : Obligations.OnlyInsertOrRawWriteMakesAPageHit := by
  intro pid page i s t hlegal hwf hok hquiet hnoInsert hraw hins hmiss h
  have ht : StaysMissing pid page t :=
    StaysMissing.exec hraw hins ⟨hlegal, hwf, hok, (tlbRd_misses_iff hok).1 hmiss, hquiet, hnoInsert⟩ h
  exact (tlbRd_misses_iff ht.ok).2 ht.misses

end Sys2Proof.Machine

/-! Encoding (30_encoding.md): the decoder's one equation, and the record of a response. -/

namespace Sys2Proof

/-- The same command with its operands taken from the fields `a`, `ARG0` first (30_encoding.md R92): what the decoder
makes of a record with the command's operation code (`decode_of_opcode`). -/
def Instr.withOperands (a : Nat → Word) : Instr → Instr
  | .ptePack .. => .ptePack (a 0) (a 1) (a 2) (a 3) (a 4) (a 5)
  | .vaOff .. => .vaOff (a 0)
  | .vaPgn .. => .vaPgn (a 0)
  | .pteFpn .. => .pteFpn (a 0)
  | .pteSwp .. => .pteSwp (a 0)
  | .sumDec .. => .sumDec (a 0)
  | .pteUnpack .. => .pteUnpack (a 0)
  | .stRdb .. => .stRdb (a 0)
  | .stWrb .. => .stWrb (a 0) (a 1)
  | .stRdw .. => .stRdw (a 0)
  | .stWrw .. => .stWrw (a 0) (a 1)
  | .stDump => .stDump
  | .stBdump => .stBdump
  | .tlbRd .. => .tlbRd (a 0) (a 1)
  | .tlbIns .. => .tlbIns (a 0) (a 1) (a 2)
  | .tlbInv .. => .tlbInv (a 0) (a 1)
  | .tlbFlush .. => .tlbFlush (a 0) (a 1) (a 2)
  | .tlbInvall .. => .tlbInvall (a 0)
  | .schInit => .schInit
  | .schGet => .schGet
  | .schPut .. => .schPut (a 0) (a 1)
  | .schEnd .. => .schEnd (a 0) (a 1) (a 2) (a 3) (a 4)
  | .schEmpty => .schEmpty
  | .schSlot .. => .schSlot (a 0)

@[simp] theorem Instr.opcode_withOperands (a : Nat → Word) (i : Instr) : (i.withOperands a).opcode = i.opcode := by
  cases i <;> rfl

/-- A command is unchanged exactly when the fields that its format reads hold its own operands. -/
theorem Instr.withOperands_eq_self_iff {a : Nat → Word} {i : Instr} :
    i.withOperands a = i ↔ ∀ k < i.format.operands, a k = recArg (encode i) k := by
  cases i <;> simp only [Instr.format, Format.operands, Nat.forall_lt_succ_right] <;>
    simp [Instr.withOperands, encode, recArg_record, and_assoc]

/-- The decoder's one equation: with the operation code of a command, a record carries that command, its operands read
from the record's fields. -/
theorem decode_of_opcode {r : BitVec 200} {i : Instr} (h : recOp r = i.opcode) :
    decode r = .ok (i.withOperands (recArg r)) := by
  cases i <;> simp [decode, h, Instr.opcode, Instr.withOperands]

/-- A command of each row of the opcode map (R91), in the map's order. -/
def blankCommands : List Instr :=
  [.ptePack 0 0 0 0 0 0, .vaOff 0, .vaPgn 0, .pteFpn 0, .pteSwp 0, .sumDec 0, .pteUnpack 0,
    .stRdb 0, .stWrb 0 0, .stRdw 0, .stWrw 0 0, .stDump, .stBdump,
    .tlbRd 0 0, .tlbIns 0 0 0, .tlbInv 0 0, .tlbFlush 0 0 0, .tlbInvall 0,
    .schInit, .schGet, .schPut 0 0, .schEnd 0 0 0 0 0, .schEmpty, .schSlot 0]

theorem map_opcode_blankCommands : blankCommands.map Instr.opcode = legalOps := rfl

/-- Every legal operation code is a command's. -/
theorem exists_opcode_eq {op : BitVec 8} (h : legalOp op = true) : ∃ i : Instr, i.opcode = op := by
  rw [legalOp, List.contains_eq_mem, decide_eq_true_eq, ← map_opcode_blankCommands] at h
  obtain ⟨i, -, hi⟩ := List.mem_map.1 h
  exact ⟨i, hi⟩

/-- A record that carries a command holds the command's operation code. -/
theorem recOp_of_decode {r : BitVec 200} {i : Instr} (h : decode r = .ok i) : recOp r = i.opcode := by
  cases hl : legalOp (recOp r) with
  | false => simp [decode_illegal hl] at h
  | true =>
    obtain ⟨j, hj⟩ := exists_opcode_eq hl
    rw [decode_of_opcode hj.symm] at h
    cases h
    rw [Instr.opcode_withOperands, hj]

/-- Settles O1: the encoded record holds the command's code (`recOp_encode`) and its own operands. -/
theorem decodeInvertsEncode : Obligations.DecodeInvertsEncode := by
  intro i
  rw [decode_of_opcode (recOp_encode i), Instr.withOperands_eq_self_iff.2 fun _ _ => rfl]

/-- Settles O2: the code of a record that decodes is the command's, and with that code it decodes to the command with
the record's operands, which is the command itself exactly when the operands agree. -/
theorem decodeReadsOpAndOperandsOnly : Obligations.DecodeReadsOpAndOperandsOnly := by
  intro r i
  have key (hop : recOp r = i.opcode) :
      decode r = .ok i ↔ ∀ k < i.format.operands, recArg r k = recArg (encode i) k := by
    rw [decode_of_opcode hop, Except.ok.injEq, Instr.withOperands_eq_self_iff]
  exact ⟨fun h => ⟨recOp_of_decode h, (key (recOp_of_decode h)).1 h⟩, fun ⟨hop, hargs⟩ => (key hop).2 hargs⟩

end Sys2Proof

namespace Sys2Proof.Machine

/-- The illegal operation codes are the four ranges between and after the units' rows (30_encoding.md R94). -/
theorem legalOp_eq_false_iff {op : BitVec 8} :
    legalOp op = false ↔
      (0x07 ≤ op.toNat ∧ op.toNat ≤ 0x0F) ∨ (0x16 ≤ op.toNat ∧ op.toNat ≤ 0x1F) ∨
        (0x25 ≤ op.toNat ∧ op.toNat ≤ 0x2F) ∨ 0x36 ≤ op.toNat := by
  simp [legalOp, legalOps, BitVec.toNat_eq]
  omega

/-- `9 + 10 + 11 + 202 = 232` of the 256 operation codes are illegal (R94). -/
theorem countP_illegalOps : ((List.range 256).countP fun n => !legalOp (BitVec.ofNat 8 n)) = 232 := by decide +kernel

/-- A record that carries no command raises `BAD_OP`, and that response is delivered. -/
theorem runCommand_illegal {r : BitVec 200} (h : legalOp (recOp r) = false) (host : Nat) (s : State) :
    runCommand host r s = .next (deliver host (raise .badOp s)) := by
  rw [runCommand, decode_illegal h]

/-- Settles O3: the codes outside the map by arithmetic, and an illegal record by the port's error branch. -/
theorem illegalOpAnswersBadOp : Obligations.IllegalOpAnswersBadOp :=
  ⟨fun _ => legalOp_eq_false_iff, countP_illegalOps, fun host _ s h => runCommand_illegal h host s⟩

/-- Each field of a response record stands at its place: what is right of it is skipped, and the rest of the append is
cut off (30_encoding.md R89). -/
theorem Response.extractLsb'_toBits (r : Response) :
    r.toBits.extractLsb' 192 4 = r.status.code ∧ r.toBits.extractLsb' 160 32 = r.res0 ∧
      r.toBits.extractLsb' 128 32 = r.res1 ∧ r.toBits.extractLsb' 96 32 = r.res2 ∧
      r.toBits.extractLsb' 64 32 = r.res3 ∧ r.toBits.extractLsb' 32 32 = r.res4 ∧
      r.toBits.extractLsb' 0 32 = r.res5 := by
  refine ⟨?_, ?_, ?_, ?_, ?_, ?_, ?_⟩ <;>
    simp (disch := decide) only [Response.toBits, BitVec.extractLsb'_append_eq_of_le,
      BitVec.extractLsb'_append_eq_right, BitVec.extractLsb'_eq_self, Nat.reduceSub]

/-- The status that a code of R90 stands for. -/
def statusOfCode (c : BitVec 4) : Option Status :=
  [.ok, .miss, .novict, .empty, .full, .unimpl, .devErr, .badOp, .badArg].find? fun st => st.code == c

theorem statusOfCode_code (st : Status) : statusOfCode st.code = some st := by cases st <;> rfl

/-- The codes tell the statuses apart (R90). -/
theorem Status.code_injective : Function.Injective Status.code := fun a b h =>
  Option.some.inj (by rw [← statusOfCode_code a, h, statusOfCode_code b])

/-- The errors are the three statuses whose code has bit 3 set (R90). -/
theorem Status.isError_iff (st : Status) : st.isError = true ↔ st = .devErr ∨ st = .badOp ∨ st = .badArg := by
  cases st <;> decide

/-- Settles O5: the fields by their places in the append, the codes' distinctness by the status that each stands for. -/
theorem responseRecordLayout : Obligations.ResponseRecordLayout :=
  ⟨Response.extractLsb'_toBits, by decide, fun _ _ h => Status.code_injective h, Status.isError_iff⟩

end Sys2Proof.Machine

/-! Codec (41_codec.md): the record of each command, the fields as numbers, the entry that `PTE.PACK` builds. -/

namespace Sys2Proof.Machine

/-- A record with a command's operation code and its operands carries it, whatever its other fields hold
(30_encoding.md R91 to R93). -/
theorem carriedBy_of_withOperands {op : BitVec 8} {args : List Word} {i : Instr} (hop : i.opcode = op)
    (hlen : i.format.operands = args.length) (hi : i.withOperands (fun k => args.getD k 0) = i) :
    carriedBy op args i := by
  intro r hr hargs
  have hfields : ∀ k < i.format.operands, recArg r k = recArg (encode i) k := fun k hk => calc
    recArg r k = args.getD k 0 := by rw [hargs k (hlen ▸ hk), List.getD_eq_getElem _ _ (hlen ▸ hk)]
    _ = recArg (encode i) k := Instr.withOperands_eq_self_iff.1 hi k hk
  rw [decode_of_opcode (hr.trans hop.symm), Instr.withOperands_eq_self_iff.2 hfields]

/-- A Codec command answers `OK` with a response that depends on the configuration alone (41_codec.md R118). -/
theorem exec_codec {i : Instr} (hi : unitOf i = 0) (c : Config) :
    ∃ r : Response, r.status = .ok ∧ ∀ s : State, s.cfg = c → exec i s = .next (respond r s) := by
  cases i with
  | ptePack present frame dirty swapped swapType swapOff => exact ⟨_, rfl, fun s hs => by rw [exec, execPtePack, hs]⟩
  | vaOff addr => exact ⟨_, rfl, fun s _ => rfl⟩
  | vaPgn addr => exact ⟨_, rfl, fun s _ => rfl⟩
  | pteFpn pte => exact ⟨_, rfl, fun s _ => rfl⟩
  | pteSwp pte => exact ⟨_, rfl, fun s hs => by rw [exec, execPteSwp, hs]⟩
  | sumDec word => exact ⟨_, rfl, fun s _ => rfl⟩
  | pteUnpack pte => exact ⟨_, rfl, fun s hs => by rw [exec, execPteUnpack, hs]⟩
  | _ => simp [unitOf, Instr.opcode] at hi

/-- Settles O21: its answer depends on the configuration alone (`exec_codec`), which no command writes (`exec_keeps`), and
it changes nothing but the response, which no command reads (`noCommandReadsTheResponse`). -/
theorem codecTouchesNoState : Obligations.CodecTouchesNoState := by
  intro i s hi
  obtain ⟨r, hok, hexec⟩ := exec_codec hi s.cfg
  refine ⟨r, hok, hexec, fun j t hj => ⟨?_, ?_⟩⟩
  · obtain ⟨hcfg, -⟩ := exec_keeps hj
    exact hexec t hcfg
  · rw [noCommandReadsTheResponse j r s, hj]

/-! Fields of a word: cut, truncated, put in their place. -/

theorem toNat_trunc {w : Nat} (hw : w ≤ 32) (v : Word) : (trunc w v).toNat = v.toNat % 2 ^ w := by
  rw [trunc, toNat_bits v hw, Nat.pow_zero, Nat.div_one]

/-- The top bit of a word has nothing above it to cut. -/
theorem toNat_bitAt_31 (v : Word) : (bitAt v 31).toNat = v.toNat / 2 ^ 31 := by
  rw [bitAt, toNat_bits v (by decide)]
  omega

/-- An operand within its field width is not cut. -/
theorem trunc_eq_self {w : Nat} (hw : w ≤ 32) {v : Word} (hv : v.toNat < 2 ^ w) : trunc w v = v :=
  BitVec.eq_of_toNat_eq (by rw [toNat_trunc hw, Nat.mod_eq_of_lt hv])

/-- A field put in its place, bit by bit. -/
theorem getLsbD_trunc_shiftLeft (v : Word) (w lo i : Nat) :
    (trunc w v <<< lo).getLsbD i = (decide (i < 32) && decide (lo ≤ i) && decide (i < lo + w) && v.getLsbD (i - lo)) := by
  rw [BitVec.getLsbD_shiftLeft, trunc, getLsbD_bits, Nat.zero_add]
  by_cases hlo : lo ≤ i
  · have hsub : i - lo < w ↔ i < lo + w := by omega
    have h32 : i < 32 → i - lo < 32 := by omega
    by_cases hi : i < 32 <;> simp [hlo, hi, hsub, h32]
  · simp [hlo, show i < lo by omega]

theorem bits_or (x y : Word) (lo w : Nat) : bits (x ||| y) lo w = bits x lo w ||| bits y lo w := by
  refine BitVec.eq_of_getLsbD_eq fun i _ => ?_
  simp only [getLsbD_bits, BitVec.getLsbD_or, Bool.and_or_distrib_left]

/-- A field is read back from its place. -/
theorem bits_trunc_shiftLeft_same (v : Word) {lo w : Nat} (hw : lo + w ≤ 32) :
    bits (trunc w v <<< lo) lo w = trunc w v := by
  refine BitVec.eq_of_getLsbD_eq fun i _ => ?_
  rw [getLsbD_bits, getLsbD_trunc_shiftLeft, trunc, getLsbD_bits]
  by_cases hi : i < w
  · simp [hi, show lo + i < 32 by omega]
  · simp [hi]

/-- Where a word has no bit, a field of it is 0. -/
theorem bits_eq_zero {x : Word} {lo w : Nat} (h : ∀ i, lo ≤ i → i < lo + w → x.getLsbD i = false) : bits x lo w = 0 := by
  refine BitVec.eq_of_getLsbD_eq fun i _ => ?_
  rw [getLsbD_bits, BitVec.ofNat_eq_ofNat, BitVec.getLsbD_zero]
  by_cases hi : i < w
  · simp [h (lo + i) (by omega) (by omega)]
  · simp [hi]

/-- A field in its place has no bit outside it. -/
theorem getLsbD_trunc_shiftLeft_outside (v : Word) {w lo i : Nat} (h : i < lo ∨ lo + w ≤ i) :
    (trunc w v <<< lo).getLsbD i = false := by
  rw [getLsbD_trunc_shiftLeft]
  rcases h with h | h
  · simp [show ¬lo ≤ i by omega]
  · simp [show ¬i < lo + w by omega]

/-- A field has no bit in the place of another. -/
theorem bits_trunc_shiftLeft_disjoint (v : Word) {lo w lo' w' : Nat} (h : lo' + w' ≤ lo ∨ lo + w ≤ lo') :
    bits (trunc w v <<< lo) lo' w' = 0 :=
  bits_eq_zero fun _ hlo hhi => getLsbD_trunc_shiftLeft_outside v (by omega)

/-- A number of `w` bits, moved up by `lo`, has at most `lo + w` bits. -/
theorem mul_two_pow_lt {a lo w n : Nat} (ha : a < 2 ^ w) (hn : lo + w ≤ n) : a * 2 ^ lo < 2 ^ n := calc
  a * 2 ^ lo < 2 ^ w * 2 ^ lo := Nat.mul_lt_mul_of_pos_right ha (Nat.two_pow_pos lo)
  _ = 2 ^ (lo + w) := by rw [← Nat.pow_add, Nat.add_comm]
  _ ≤ 2 ^ n := Nat.pow_le_pow_right (by decide) hn

/-- A field put above the bits of another word: nothing is lost and nothing overlaps (41_codec.md R119). -/
theorem toNat_shiftLeft_or {hi low : Word} {lo w : Nat} (hw : lo + w ≤ 32) (hhi : hi.toNat < 2 ^ w)
    (hlow : low.toNat < 2 ^ lo) : (hi <<< lo ||| low).toNat = hi.toNat * 2 ^ lo + low.toNat := by
  rw [BitVec.toNat_or, BitVec.toNat_shiftLeft, Nat.shiftLeft_eq, Nat.mod_eq_of_lt (mul_two_pow_lt hhi hw),
    ← Nat.shiftLeft_eq, ← Nat.shiftLeft_add_eq_or_of_lt hlow]

/-- The same of an operand cut to its width and put in its place. -/
theorem toNat_trunc_shiftLeft_or (v : Word) {low : Word} {lo w : Nat} (hw : lo + w ≤ 32) (hlow : low.toNat < 2 ^ lo) :
    (trunc w v <<< lo ||| low).toNat = v.toNat % 2 ^ w * 2 ^ lo + low.toNat := by
  have htrunc : (trunc w v).toNat = v.toNat % 2 ^ w := toNat_trunc (by omega) v
  rw [toNat_shiftLeft_or hw (by rw [htrunc]; exact Nat.mod_lt _ (Nat.two_pow_pos w)) hlow, htrunc]

theorem toNat_trunc_shiftLeft (v : Word) {lo w : Nat} (hw : lo + w ≤ 32) :
    (trunc w v <<< lo).toNat = v.toNat % 2 ^ w * 2 ^ lo := by
  simpa using toNat_trunc_shiftLeft_or v (low := 0) hw (Nat.two_pow_pos lo)

/-- A field in its place has no bit above it. -/
theorem trunc_shiftLeft_lt (v : Word) {lo w n : Nat} (hw : lo + w ≤ 32) (hn : lo + w ≤ n) :
    (trunc w v <<< lo).toNat < 2 ^ n := by
  rw [toNat_trunc_shiftLeft v hw]
  exact mul_two_pow_lt (Nat.mod_lt _ (Nat.two_pow_pos w)) hn

/-- The swap fields of a legal configuration lie in bits 12:0, one above the other (00_scope.md R9). -/
theorem swapLayout_of_legal {c : Config} (h : c.legal = true) :
    c.swpTypLo + c.swpTypW ≤ 13 ∧ c.swpOffLo + c.swpOffW ≤ 13 ∧
      (c.swpTypLo + c.swpTypW ≤ c.swpOffLo ∨ c.swpOffLo + c.swpOffW ≤ c.swpTypLo) := by
  simp only [Config.legal, Config.swapTypeOk, Config.swapOffOk, Config.swapDisjointOk, Bool.and_eq_true,
    Bool.or_eq_true, decide_eq_true_eq] at h
  obtain ⟨⟨⟨⟨-, htyp⟩, hoff⟩, hdisj⟩, -⟩ := h
  exact ⟨htyp, hoff, hdisj⟩

/-! The entry that `PTE.PACK` builds (41_codec.md R110). -/

section packed

variable {c : Config} (present frame dirty swapped swapType swapOff : Word) (p : Bool)

/-- A field of bits 12:0 is what stands below the flags. -/
theorem bits_packPte_low {lo w : Nat} (hw : lo + w ≤ 13) :
    bits (packPte c present frame dirty swapped swapType swapOff) lo w =
      bits (packLow c (present.getLsbD 0) frame swapType swapOff) lo w := by
  simp only [packPte, bits_or]
  rw [bits_trunc_shiftLeft_disjoint present (by omega), bits_trunc_shiftLeft_disjoint swapped (by omega),
    bits_trunc_shiftLeft_disjoint dirty (by omega)]
  simp

/-- The frame of a present entry is read back. -/
theorem bits_packLow_frame : bits (packLow c true frame swapType swapOff) 0 13 = trunc 13 frame := by
  simpa [packLow] using bits_trunc_shiftLeft_same frame (lo := 0) (w := 13) (by decide)

variable (hlegal : c.legal = true)

include hlegal

/-- The swap fields of an entry that is not present are read back: neither has a bit in the other's place. -/
theorem bits_packLow_swap :
    bits (packLow c false frame swapType swapOff) c.swpTypLo c.swpTypW = trunc c.swpTypW swapType ∧
      bits (packLow c false frame swapType swapOff) c.swpOffLo c.swpOffW = trunc c.swpOffW swapOff := by
  obtain ⟨htyp, hoff, hdisj⟩ := swapLayout_of_legal hlegal
  simp only [packLow, Bool.false_eq_true, if_false, bits_or]
  rw [bits_trunc_shiftLeft_same _ (by omega), bits_trunc_shiftLeft_same _ (by omega),
    bits_trunc_shiftLeft_disjoint swapOff (by omega), bits_trunc_shiftLeft_disjoint swapType (by omega)]
  simp

/-- Bits 12:0 as a number: the frame, or the two swap fields in either order. -/
theorem toNat_packLow :
    (packLow c p frame swapType swapOff).toNat =
      if p then frame.toNat % 2 ^ 13
      else swapOff.toNat % 2 ^ c.swpOffW * 2 ^ c.swpOffLo + swapType.toNat % 2 ^ c.swpTypW * 2 ^ c.swpTypLo := by
  cases p with
  | true => exact toNat_trunc (w := 13) (by decide) frame
  | false =>
    simp only [packLow, Bool.false_eq_true, if_false]
    obtain ⟨htyp, hoff, habove | hbelow⟩ := swapLayout_of_legal hlegal
    · rw [toNat_trunc_shiftLeft_or _ (by omega) (trunc_shiftLeft_lt _ (by omega) habove),
        toNat_trunc_shiftLeft _ (by omega)]
    · rw [BitVec.or_comm, Nat.add_comm, toNat_trunc_shiftLeft_or _ (by omega) (trunc_shiftLeft_lt _ (by omega) hbelow),
        toNat_trunc_shiftLeft _ (by omega)]

/-- The frame, or the swap fields, stay below bit 13. -/
theorem packLow_lt : (packLow c p frame swapType swapOff).toNat < 2 ^ 13 := by
  obtain ⟨htyp, hoff, -⟩ := swapLayout_of_legal hlegal
  cases p with
  | true =>
    rw [toNat_packLow _ _ _ _ hlegal, if_pos rfl]
    exact Nat.mod_lt _ (by decide)
  | false =>
    simp only [packLow, Bool.false_eq_true, if_false, BitVec.toNat_or]
    exact Nat.or_lt_two_pow (trunc_shiftLeft_lt _ (by omega) hoff) (trunc_shiftLeft_lt _ (by omega) htyp)

/-- The packed entry as a number: each flag is put above what is below it. -/
theorem toNat_packPte :
    (packPte c present frame dirty swapped swapType swapOff).toNat =
      present.toNat % 2 * 2 ^ 31 + swapped.toNat % 2 * 2 ^ 30 + dirty.toNat % 2 * 2 ^ 28 +
        (packLow c (present.getLsbD 0) frame swapType swapOff).toNat := by
  rw [packPte, BitVec.or_assoc, BitVec.or_assoc]
  have hlow := packLow_lt frame swapType swapOff (present.getLsbD 0) hlegal
  generalize packLow c (present.getLsbD 0) frame swapType swapOff = low at hlow ⊢
  have hdirty := toNat_trunc_shiftLeft_or dirty (lo := 28) (w := 1) (by decide) (hlow.trans (by decide))
  have hswapped := toNat_trunc_shiftLeft_or swapped (lo := 30) (w := 1) (by decide)
    (show (trunc 1 dirty <<< 28 ||| low).toNat < 2 ^ 30 by omega)
  rw [toNat_trunc_shiftLeft_or present (by decide) (by omega), hswapped, hdirty]
  omega

/-- The flags are read back from their bits, whatever the frame and swap operands hold. -/
theorem bitAt_packPte :
    bitAt (packPte c present frame dirty swapped swapType swapOff) 31 = trunc 1 present ∧
      bitAt (packPte c present frame dirty swapped swapType swapOff) 28 = trunc 1 dirty ∧
      bitAt (packPte c present frame dirty swapped swapType swapOff) 30 = trunc 1 swapped := by
  have hpack := toNat_packPte present frame dirty swapped swapType swapOff hlegal
  have hlow := packLow_lt frame swapType swapOff (present.getLsbD 0) hlegal
  refine ⟨?_, ?_, ?_⟩ <;> refine BitVec.eq_of_toNat_eq ?_ <;>
    rw [bitAt, toNat_bits _ (by decide), toNat_trunc (by decide), hpack] <;> omega

/-- The unused bits 29 and 27:13 are 0 (41_codec.md R117). -/
theorem getLsbD_packPte_unused {b : Nat} (hb : b = 29 ∨ 13 ≤ b ∧ b ≤ 27) :
    (packPte c present frame dirty swapped swapType swapOff).getLsbD b = false := by
  have hlow : (packLow c (present.getLsbD 0) frame swapType swapOff).getLsbD b = false :=
    Nat.testBit_lt_two_pow
      ((packLow_lt frame swapType swapOff _ hlegal).trans_le (Nat.pow_le_pow_right (by decide) (by omega)))
  simp only [packPte, BitVec.getLsbD_or]
  rw [getLsbD_trunc_shiftLeft_outside present (by omega), getLsbD_trunc_shiftLeft_outside swapped (by omega),
    getLsbD_trunc_shiftLeft_outside dirty (by omega), hlow]
  rfl

end packed

/-- Settles O15: the entry is the sum of its fields (`toNat_packPte`, `toNat_packLow`). -/
theorem ptePackPlacesEachField : Obligations.PtePackPlacesEachField := by
  intro present frame dirty swapped swapType swapOff s hlegal
  refine ⟨carriedBy_of_withOperands rfl rfl rfl, _, rfl, ?_⟩
  have hpresent : present.getLsbD 0 = decide (present.toNat % 2 = 1) := Nat.testBit_zero _
  simp only [toNat_packPte _ _ _ _ _ _ hlegal, toNat_packLow _ _ _ _ hlegal, hpresent, decide_eq_true_eq]

/-- An address is its page number above its offset (41_codec.md R117). -/
theorem vaPage_shiftLeft_or_vaOffset {addr : Word} (h : addr.toNat < 2 ^ 22) :
    (vaPage addr <<< 8) ||| vaOffset addr = addr := by
  have hpage : (vaPage addr).toNat = addr.toNat / 2 ^ 8 % 2 ^ 14 := toNat_bits addr (by decide)
  have hoffset : (vaOffset addr).toNat = addr.toNat % 2 ^ 8 := toNat_trunc (by decide) addr
  refine BitVec.eq_of_toNat_eq ?_
  rw [toNat_shiftLeft_or (w := 14) (by decide) (by omega) (by omega)]
  omega

/-- Settles O20: every field is read back truncated (`bitAt_packPte`, `bits_packPte_low`), and an operand within its
width is not cut. -/
theorem packThenUnpackRoundTrip : Obligations.PackThenUnpackRoundTrip := by
  refine ⟨fun present frame dirty swapped swapType swapOff s hlegal hpresent hdirty hswapped hframe htype hoff => ?_,
    fun addr s haddr => ⟨_, _, rfl, rfl, vaPage_shiftLeft_or_vaOffset haddr⟩⟩
  obtain ⟨hptyp, hpoff, -⟩ := swapLayout_of_legal hlegal
  obtain ⟨rpresent, rdirty, rswapped⟩ := bitAt_packPte present frame dirty swapped swapType swapOff hlegal
  obtain ⟨rtype, roff⟩ := bits_packLow_swap frame swapType swapOff hlegal
  refine ⟨_, _, rfl, rfl, ?_, ?_, ?_, ?_, ?_, ?_, ?_⟩
  · exact rpresent.trans (trunc_eq_self (by decide) hpresent)
  · exact rdirty.trans (trunc_eq_self (by decide) hdirty)
  · exact rswapped.trans (trunc_eq_self (by decide) hswapped)
  · rintro rfl
    have rframe : bits (packPte s.cfg 1 frame dirty swapped swapType swapOff) 0 13 = frame :=
      (bits_packPte_low _ _ _ _ _ _ le_rfl).trans
        ((bits_packLow_frame _ _ _).trans (trunc_eq_self (by decide) hframe))
    exact ⟨rframe, by rw [exec, execPteFpn, pteFrame_zext, rframe]⟩
  · rintro rfl
    have rtype' : pteSwapType s.cfg (packPte s.cfg 0 frame dirty swapped swapType swapOff) = swapType :=
      (bits_packPte_low _ _ _ _ _ _ hptyp).trans (rtype.trans (trunc_eq_self (by omega) htype))
    have roff' : pteSwapOff s.cfg (packPte s.cfg 0 frame dirty swapped swapType swapOff) = swapOff :=
      (bits_packPte_low _ _ _ _ _ _ hpoff).trans (roff.trans (trunc_eq_self (by omega) hoff))
    exact ⟨rtype', roff', by rw [exec, execPteSwp, roff']⟩
  · exact getLsbD_packPte_unused _ _ _ _ _ _ hlegal (.inl rfl)
  · exact fun b hlo hhi => getLsbD_packPte_unused _ _ _ _ _ _ hlegal (.inr ⟨hlo, hhi⟩)

/-! The cuts of an address, an entry and a summary word (41_codec.md R111 to R116). -/

/-- Settles O16: the two fields of an address as numbers (`toNat_trunc`, `toNat_bits`). -/
theorem virtualAddressFields : Obligations.VirtualAddressFields := fun addr _ =>
  ⟨carriedBy_of_withOperands rfl rfl rfl, carriedBy_of_withOperands rfl rfl rfl, _, _, rfl, toNat_trunc (by decide) addr,
    rfl, toNat_bits addr (by decide)⟩

/-- Settles O17: the frame and the swap slot as numbers; the slot lies in bits 12:0 by the legal layout. -/
theorem pteFrameAndSwapSlot : Obligations.PteFrameAndSwapSlot := by
  intro pte s hlegal
  obtain ⟨-, hoff, -⟩ := swapLayout_of_legal hlegal
  exact ⟨carriedBy_of_withOperands rfl rfl rfl, carriedBy_of_withOperands rfl rfl rfl, _, _, rfl,
    toNat_trunc (by decide) pte, rfl, toNat_bits pte (by omega)⟩

/-- Settles O18: the four fields of a summary word as numbers. -/
theorem summaryWordFields : Obligations.SummaryWordFields := fun word _ =>
  ⟨carriedBy_of_withOperands rfl rfl rfl, _, _, _, _, rfl, toNat_bitAt_31 word, toNat_bits word (by decide),
    toNat_bits word (by decide), toNat_trunc (by decide) word⟩

/-- Settles O19: the six slices of an entry as numbers; the swap fields lie in bits 12:0 by the legal layout. -/
theorem pteUnpackFields : Obligations.PteUnpackFields := by
  intro pte s hlegal
  obtain ⟨htyp, hoff, -⟩ := swapLayout_of_legal hlegal
  exact ⟨carriedBy_of_withOperands rfl rfl rfl, _, rfl, rfl, toNat_bitAt_31 pte, toNat_trunc (by decide) pte,
    toNat_bits pte (by decide), toNat_bits pte (by decide), toNat_bits pte (by omega), toNat_bits pte (by omega)⟩

end Sys2Proof.Machine

/-! The Byte Store commands in and out of range (42_bytestore.md R130 to R135). -/

namespace Sys2Proof.Machine

/-- `raise DevErr(a)` for an address that is a word (60_exceptions.md R242, R246). -/
theorem raise_devErr_toNat (a : Word) (s : State) :
    raise (.devErr a.toNat) s = { s with flags := s.flags ||| 1, response := { status := .devErr, res0 := a } } := by
  rw [raise, respond, setDevErr, BitVec.ofNat_toNat, BitVec.setWidth_eq]

/-- A byte read out of range raises the error (R130). -/
theorem exec_stRdb_outside {s : State} {addr : Word} (h : s.cfg.cap ≤ addr.toNat) :
    exec (.stRdb addr) s = .next (raise (.devErr addr.toNat) s) := by
  rcases stRdb_cases addr s with ⟨-, e⟩ | ⟨hc, -⟩
  · rw [exec, execStRdb, e]
  · omega

/-- A byte write in range stores the low byte of the value (R131). -/
theorem exec_stWrb_inside {s : State} {addr value : Word} (h : addr.toNat < s.cfg.cap) :
    exec (.stWrb addr value) s =
      .next (respond { status := .ok } { s with mem := setByte s.mem addr.toNat (byteOperand value) }) := by
  rcases stWrb_cases addr value s with ⟨hc, -⟩ | ⟨-, e⟩
  · omega
  · rw [exec, execStWrb, e]

/-- A byte write out of range raises the error (R131). -/
theorem exec_stWrb_outside {s : State} {addr value : Word} (h : s.cfg.cap ≤ addr.toNat) :
    exec (.stWrb addr value) s = .next (raise (.devErr addr.toNat) s) := by
  rcases stWrb_cases addr value s with ⟨-, e⟩ | ⟨hc, -⟩
  · rw [exec, execStWrb, e]
  · omega

/-- A word read that is not wholly in range raises the error (R132). -/
theorem exec_stRdw_outside {s : State} {addr : Word} (h : s.cfg.cap ≤ addr.toNat + 3) :
    exec (.stRdw addr) s = .next (raise (.devErr (lowestOutside s.cfg.cap addr.toNat)) s) := by
  rcases stRdw_cases addr s with ⟨-, e⟩ | ⟨hc, -⟩
  · rw [exec, execStRdw, e]
  · omega

/-- A word write that is not wholly in range raises the error (R133). -/
theorem exec_stWrw_outside {s : State} {addr value : Word} (h : s.cfg.cap ≤ addr.toNat + 3) :
    exec (.stWrw addr value) s = .next (raise (.devErr (lowestOutside s.cfg.cap addr.toNat)) s) := by
  rcases stWrw_cases addr value s with ⟨-, e⟩ | ⟨hc, -⟩
  · rw [exec, execStWrw, e]
  · omega

/-- A word of the store as a number, its first byte the most significant (20_memory.md R51). -/
theorem toNat_memWord (m : Memory) (a : Nat) :
    (memWord m a).toNat =
      (memByte m a).toNat * 2 ^ 24 + (memByte m (a + 1)).toNat * 2 ^ 16 + (memByte m (a + 2)).toNat * 2 ^ 8 +
        (memByte m (a + 3)).toNat := by
  obtain ⟨h0, h1, h2, h3⟩ := bytes_of_memWord m a
  rw [← h0, ← h1, ← h2, ← h3]
  simp only [BitVec.extractLsb'_toNat, Nat.shiftRight_eq_div_pow]
  omega

/-- `CAP` fits in a word (00_scope.md R9). -/
theorem cap_lt_of_legal {c : Config} (h : c.legal = true) : c.cap < 2 ^ 32 := by
  simp only [Config.legal, Config.capOk, Bool.and_eq_true, decide_eq_true_eq] at h
  omega

/-- `lowestOutside` is the lowest of the four addresses that is not below `CAP` (20_memory.md R54). -/
theorem lowestOutside_isLeast {cap a : Nat} (h : cap ≤ a + 3) :
    a ≤ lowestOutside cap a ∧ lowestOutside cap a ≤ a + 3 ∧ cap ≤ lowestOutside cap a ∧
      ∀ b, a ≤ b → cap ≤ b → lowestOutside cap a ≤ b := by
  by_cases hc : cap ≤ a
  · rw [lowestOutside, if_pos hc]
    exact ⟨le_rfl, by omega, hc, fun _ hb _ => hb⟩
  · rw [lowestOutside, if_neg hc]
    exact ⟨by omega, h, le_rfl, fun _ _ hb => hb⟩

/-- The lowest address out of range is a word: the operand itself, or `CAP`. -/
theorem exists_toNat_eq_lowestOutside {cap : Nat} (hcap : cap < 2 ^ 32) (addr : Word) :
    ∃ a : Word, a.toNat = lowestOutside cap addr.toNat := by
  by_cases hc : cap ≤ addr.toNat
  · exact ⟨addr, by rw [lowestOutside, if_pos hc]⟩
  · exact ⟨BitVec.ofNat 32 cap, by rw [lowestOutside, if_neg hc, BitVec.toNat_ofNat, Nat.mod_eq_of_lt hcap]⟩

/-- The error of a word access: `DEV_ERR` with the lowest of the four addresses that is not below `CAP` (20_memory.md
R54, R55). -/
theorem raise_lowestOutside {s : State} {addr : Word} (hlegal : s.cfg.legal = true) (h : s.cfg.cap ≤ addr.toNat + 3) :
    ∃ a : Word,
      raise (.devErr (lowestOutside s.cfg.cap addr.toNat)) s =
          { s with flags := s.flags ||| 1, response := { status := .devErr, res0 := a } } ∧
        addr.toNat ≤ a.toNat ∧ a.toNat ≤ addr.toNat + 3 ∧ s.cfg.cap ≤ a.toNat ∧
        ∀ b, addr.toNat ≤ b → s.cfg.cap ≤ b → a.toNat ≤ b := by
  obtain ⟨a, ha⟩ := exists_toNat_eq_lowestOutside (cap_lt_of_legal hlegal) addr
  rw [← ha]
  exact ⟨a, raise_devErr_toNat a s, ha ▸ lowestOutside_isLeast h⟩

/-- Settles O23: the two outcomes by the address (`exec_stRdb_inside`, `exec_stRdb_outside`). -/
theorem readByte : Obligations.ReadByte := fun addr s =>
  ⟨carriedBy_of_withOperands rfl rfl rfl, exec_stRdb_inside, fun houtside => by
    rw [exec_stRdb_outside houtside, raise_devErr_toNat]⟩

/-- Settles O24: the byte stored is read back (`memByte_setByte_same`), every other is as before
(`memByte_setByte_ne`). -/
theorem writeByte : Obligations.WriteByte := by
  intro addr value s hwf
  refine ⟨carriedBy_of_withOperands rfl rfl rfl, fun hinside => ?_, fun houtside => ?_⟩
  · exact ⟨_, exec_stWrb_inside hinside, memByte_setByte_same hwf _ _, fun a ha => memByte_setByte_ne _ ha _⟩
  · rw [exec_stWrb_outside houtside, raise_devErr_toNat]

/-- Settles O25: the word as a number (`toNat_memWord`), or the error of a word access (`raise_lowestOutside`). -/
theorem readWord : Obligations.ReadWord := by
  intro addr s hlegal
  refine ⟨carriedBy_of_withOperands rfl rfl rfl, fun hinside => ?_, fun houtside => ?_⟩
  · exact ⟨_, exec_stRdw_inside hinside, toNat_memWord _ _⟩
  · rw [exec_stRdw_outside houtside]
    obtain ⟨a, hraise, hleast⟩ := raise_lowestOutside hlegal houtside
    exact ⟨a, congrArg _ hraise, hleast⟩

/-- Settles O26: the four bytes stored (`memByte_setWord`) and no other (`memByte_setWord_outside`), or the error of a
word access (`raise_lowestOutside`). -/
theorem writeWord : Obligations.WriteWord := by
  intro addr value s hlegal hwf
  refine ⟨carriedBy_of_withOperands rfl rfl rfl, fun hinside => ?_, fun houtside => ?_⟩
  · obtain ⟨h0, h1, h2, h3⟩ := memByte_setWord hwf addr.toNat value
    exact ⟨_, exec_stWrw_inside hinside, h0, h1, h2, h3, fun _ ha => memByte_setWord_outside _ ha _⟩
  · rw [exec_stWrw_outside houtside]
    obtain ⟨a, hraise, hleast⟩ := raise_lowestOutside hlegal houtside
    exact ⟨a, congrArg _ hraise, hleast⟩

/-- Settles O27: neither dump has an operand, and the step of each is the response alone. -/
theorem dumpsDoNothing : Obligations.DumpsDoNothing := fun _ =>
  ⟨carriedBy_of_withOperands rfl rfl rfl, rfl, carriedBy_of_withOperands rfl rfl rfl, rfl⟩

end Sys2Proof.Machine

/-! The TLB commands' operand checks (43_tlb.md R150, R165, R170): which error each failing check gives, and that a
command refused by a check raises it. -/

namespace Sys2Proof.Machine

section checks
variable {c : Config} {pid page lo hi : Word}

theorem checkPage_of_bad_pid (hpid : 2 ^ c.pidW ≤ pid.toNat) : checkPage c pid page = some (.badArg 0) := by
  simp [checkPage, pidOk, hpid]

theorem checkPage_of_bad_page (hpid : pid.toNat < 2 ^ c.pidW) (hpage : 2 ^ 14 ≤ page.toNat) :
    checkPage c pid page = some (.badArg 1) := by
  simp [-Nat.reducePow, checkPage, pidOk, pageOk, hpid, hpage]

theorem checkPage_of_no_line (hpid : pid.toNat < 2 ^ c.pidW) (hpage : page.toNat < 2 ^ 14) (hcap : c.cap < 16) :
    checkPage c pid page = some (.devErr c.cap) := by
  simp [-Nat.reducePow, checkPage, pidOk, pageOk, hasLine, lines_eq_zero hcap, hpid, hpage]

theorem checkFlush_of_bad_pid (hpid : 2 ^ c.pidW ≤ pid.toNat) : checkFlush c pid lo hi = some (.badArg 0) := by
  simp [checkFlush, pidOk, hpid]

theorem checkFlush_of_bad_lo (hpid : pid.toNat < 2 ^ c.pidW) (hlo : 2 ^ 14 < lo.toNat) :
    checkFlush c pid lo hi = some (.badArg 1) := by
  simp [-Nat.reducePow, checkFlush, pidOk, boundOk, hpid, hlo]

theorem checkFlush_of_bad_hi (hpid : pid.toNat < 2 ^ c.pidW) (hlo : lo.toNat ≤ 2 ^ 14) (hhi : 2 ^ 14 < hi.toNat) :
    checkFlush c pid lo hi = some (.badArg 2) := by
  simp [-Nat.reducePow, checkFlush, pidOk, boundOk, hpid, hlo.not_gt, hhi]

theorem checkFlush_of_no_line (hpid : pid.toNat < 2 ^ c.pidW) (hlo : lo.toNat ≤ 2 ^ 14) (hhi : hi.toNat ≤ 2 ^ 14)
    (hcap : c.cap < 16) : checkFlush c pid lo hi = some (.devErr c.cap) := by
  simp [-Nat.reducePow, checkFlush, pidOk, boundOk, hasLine, lines_eq_zero hcap, hpid, hlo.not_gt, hhi.not_gt]

theorem checkFlush_of_ok (hpid : pid.toNat < 2 ^ c.pidW) (hlo : lo.toNat ≤ 2 ^ 14) (hhi : hi.toNat ≤ 2 ^ 14)
    (hcap : 16 ≤ c.cap) : checkFlush c pid lo hi = none :=
  checkFlush_eq_none.2 ⟨hpid, hlo, hhi, one_le_lines hcap⟩

theorem checkInvall_of_bad_pid (hpid : 2 ^ c.pidW ≤ pid.toNat) : checkInvall c pid = some (.badArg 0) := by
  simp [checkInvall, pidOk, hpid]

theorem checkInvall_of_ok (hpid : pid.toNat < 2 ^ c.pidW) : checkInvall c pid = none := by
  simp [checkInvall, pidOk, hpid]

end checks

/-- A page command whose check fails raises the error (60_exceptions.md R246, R247). -/
theorem exec_pageCommand_refused {s : State} {pid page : Word} {e : CmdError} (h : checkPage s.cfg pid page = some e)
    (pte : Word) :
    ∀ i ∈ [Instr.tlbRd pid page, .tlbIns pid page pte, .tlbInv pid page], exec i s = .next (raise e s) := by
  simp [exec, execTlbRd, execTlbIns, execTlbInv, tlbRd, tlbIns, tlbInv, h]

theorem exec_tlbFlush_refused {s : State} {pid lo hi : Word} {e : CmdError} (h : checkFlush s.cfg pid lo hi = some e) :
    exec (.tlbFlush pid lo hi) s = .next (raise e s) := by
  simp [exec, execTlbFlush, tlbFlush, h]

theorem exec_tlbInvall_refused {s : State} {pid : Word} {e : CmdError} (h : checkInvall s.cfg pid = some e) :
    exec (.tlbInvall pid) s = .next (raise e s) := by
  simp [exec, execTlbInvall, tlbInvall, h]

/-- Settles O29: each clause is the check that fails first, and a line's number lies below `N` (`lineOf_lt`). -/
theorem tlbChecksInOrder : Obligations.TlbChecksInOrder := by
  intro pid page pte lo hi s
  refine ⟨fun hpid => ?_, fun hpid hpage => exec_pageCommand_refused (checkPage_of_bad_page hpid hpage) pte,
    fun hpid hlo => exec_tlbFlush_refused (checkFlush_of_bad_lo hpid hlo),
    fun hpid hlo hhi => exec_tlbFlush_refused (checkFlush_of_bad_hi hpid hlo hhi),
    fun hpid hpage hcap => exec_pageCommand_refused (checkPage_of_no_line hpid hpage hcap) pte,
    fun hpid hlo hhi hcap => exec_tlbFlush_refused (checkFlush_of_no_line hpid hlo hhi hcap), fun hcap => ?_⟩
  · have hflush := exec_tlbFlush_refused (checkFlush_of_bad_pid (lo := lo) (hi := hi) hpid)
    have hinvall := exec_tlbInvall_refused (checkInvall_of_bad_pid hpid)
    exact List.forall_mem_append.2 ⟨exec_pageCommand_refused (checkPage_of_bad_pid (page := page) hpid) pte,
      List.forall_mem_cons.2 ⟨hflush, List.forall_mem_singleton.2 hinvall⟩⟩
  · have hinside := line_inside (lineOf_lt (one_le_lines hcap) pid.toNat page.toNat)
    omega

/-- Settles O33: the one check fails (`checkInvall_of_bad_pid`), or the answer is `UNIMPL` and nothing else. -/
theorem invalidateAllIsAPlaceholder : Obligations.InvalidateAllIsAPlaceholder := by
  intro pid s
  refine ⟨carriedBy_of_withOperands rfl rfl rfl, fun hpid => exec_tlbInvall_refused (checkInvall_of_bad_pid hpid),
    fun hpid => ?_⟩
  simp [exec, execTlbInvall, tlbInvall, checkInvall_of_ok hpid]

/-- `PID_W` is at most 16 (00_scope.md R9). -/
theorem pidW_le_of_legal {c : Config} (h : c.legal = true) : c.pidW ≤ 16 := by
  simp only [Config.legal, Config.pidWidthOk, Bool.and_eq_true, decide_eq_true_eq] at h
  omega

/-- Settles O37: the shifts of R151 and R152 as products (`toNat_tag`), and the tag's two parts apart (`tag_inj`). -/
theorem linesAndTags : Obligations.LinesAndTags := by
  intro c pid page hlegal hpid hpage
  have hpow : 2 ^ c.pidW ≤ 2 ^ 16 := Nat.pow_le_pow_right (by decide) (pidW_le_of_legal hlegal)
  have htag : (tag pid page).toNat = pid * 2 ^ 14 + page := toNat_tag (by omega) hpage
  refine ⟨fun hlines => ⟨?_, lineOf_lt hlines pid page⟩, htag, ?_, fun pid' page' hpid' hpage' heq => ?_⟩
  · rw [lineOf, Nat.shiftLeft_eq, lines]
  · rw [htag, Nat.pow_add]
    omega
  · exact tag_inj (by omega) hpage' (by omega) hpage heq

end Sys2Proof.Machine

/-! The page commands whose operands pass: what each does to the store, and which way a read hits afterwards
(43_tlb.md R154 to R161, R172). -/

namespace Sys2Proof.Machine

section passed
variable {s : State} {pid page pte : Word}

/-- A read that hits a way answers its frame and touches it (R154, R155). -/
theorem exec_tlbRd_hit (hok : pageOperandsOk s.cfg pid page) {w : Nat}
    (hw : hitWay s.mem (lineOf s.cfg pid.toNat page.toNat) (tag pid.toNat page.toNat) = some w) :
    exec (.tlbRd pid page) s =
      .next (respond
        { status := .ok, res0 := (pteFrame (wayPte s.mem (lineOf s.cfg pid.toNat page.toNat) w)).setWidth 32 }
        { s with mem := touch s.mem (lineOf s.cfg pid.toNat page.toNat) w }) := by
  simp [exec, execTlbRd, tlbRd, checkPage_of_ok hok, hw]

/-- A read that answers `OK` has hit a way. -/
theorem hitWay_of_tlbRd_ok (hok : pageOperandsOk s.cfg pid page) {t : State}
    (h : exec (.tlbRd pid page) s = .next t) (hst : t.response.status = .ok) :
    ∃ w, hitWay s.mem (lineOf s.cfg pid.toNat page.toNat) (tag pid.toNat page.toNat) = some w ∧ t.cfg = s.cfg ∧
      t.mem = touch s.mem (lineOf s.cfg pid.toNat page.toNat) w ∧
      t.response =
        { status := .ok, res0 := (pteFrame (wayPte s.mem (lineOf s.cfg pid.toNat page.toNat) w)).setWidth 32 } := by
  cases hw : hitWay s.mem (lineOf s.cfg pid.toNat page.toNat) (tag pid.toNat page.toNat) with
  | some w =>
    rw [exec_tlbRd_hit hok hw] at h
    cases h
    exact ⟨w, rfl, rfl, rfl, rfl⟩
  | none =>
    rw [(tlbRd_misses_iff hok).2 (noWayHits_iff.2 hw)] at h
    cases h
    cases hst

/-- An insert that finds a way fills it (R156). -/
theorem exec_tlbIns_takes (hok : pageOperandsOk s.cfg pid page) {k : Nat}
    (hk : victimWay s.mem (lineOf s.cfg pid.toNat page.toNat) = some k) :
    exec (.tlbIns pid page pte) s =
      .next (respond { status := .ok, res0 := (pteFrame pte).setWidth 32 }
        { s with
          mem := fillWay s.mem (lineOf s.cfg pid.toNat page.toNat) k (tag pid.toNat page.toNat) pte }) := by
  simp [exec, execTlbIns, tlbIns, checkPage_of_ok hok, hk]

/-- An insert that finds no way answers `NOVICT` and does nothing (R156 (c)). -/
theorem exec_tlbIns_noVictim (hok : pageOperandsOk s.cfg pid page)
    (hnone : victimWay s.mem (lineOf s.cfg pid.toNat page.toNat) = none) :
    exec (.tlbIns pid page pte) s = .next (respond { status := .novict } s) := by
  simp [exec, execTlbIns, tlbIns, checkPage_of_ok hok, hnone]

/-- An insert that answers `OK` has filled a way. -/
theorem victimWay_of_tlbIns_ok (hok : pageOperandsOk s.cfg pid page) {t : State}
    (h : exec (.tlbIns pid page pte) s = .next t) (hst : t.response.status = .ok) :
    ∃ k, victimWay s.mem (lineOf s.cfg pid.toNat page.toNat) = some k ∧ t.cfg = s.cfg ∧
      t.mem = fillWay s.mem (lineOf s.cfg pid.toNat page.toNat) k (tag pid.toNat page.toNat) pte := by
  cases hv : victimWay s.mem (lineOf s.cfg pid.toNat page.toNat) with
  | some k =>
    rw [exec_tlbIns_takes hok hv] at h
    cases h
    exact ⟨k, rfl, rfl, rfl⟩
  | none =>
    rw [exec_tlbIns_noVictim hok hv] at h
    cases h
    cases hst

@[simp] theorem invalidatePage_mem (pid page : Nat) (s : State) :
    (invalidatePage pid page s).mem = (invalidateLine s.mem (lineOf s.cfg pid page) (tag pid page)).1 := rfl

/-- The store effect of `TLB.INV` is `invalidatePage`, and the answer says whether the line held the tag (R160). -/
theorem exec_tlbInv_of_ok (hok : pageOperandsOk s.cfg pid page) :
    exec (.tlbInv pid page) s =
      .next (respond
        { status :=
            if (invalidateLine s.mem (lineOf s.cfg pid.toNat page.toNat) (tag pid.toNat page.toNat)).2 then .ok
            else .miss }
        (invalidatePage pid.toNat page.toNat s)) := by
  simp [exec, execTlbInv, tlbInv, checkPage_of_ok hok, invalidatePage]

end passed

/-- Settles O30: the way that hits is the model's (`hitWay_eq_some_iff`), and `touch` marks it and clears its sibling
(`wayWord_touch`, `memByte_touch_of_ne`). -/
theorem tlbReadHitOrMiss : Obligations.TlbReadHitOrMiss := by
  intro pid page s hwf hok
  refine ⟨carriedBy_of_withOperands rfl rfl rfl, fun w hw => ?_, fun hno => ?_⟩
  · have hhit := hitWay_eq_some_iff.2 hw
    obtain ⟨hw2, -⟩ := hitWay_some hhit
    refine ⟨_, exec_tlbRd_hit hok hhit, ?_, ?_, fun a h0 h8 => memByte_touch_of_ne hwf hw2 _ h0 h8⟩
    · rw [wayWord_touch hwf hw2 hw2, if_pos rfl, if_pos rfl, markRecent]
    · rw [wayWord_touch hwf hw2 (by omega), if_pos rfl, if_neg (by omega), clearRecent]
  · refine (tlbRd_misses_iff hok).2 (noWayHits_iff.2 (Option.eq_none_iff_forall_ne_some.2 fun w hw => ?_))
    exact hno w (hitWay_eq_some_iff.1 hw)

/-- Settles O31: the way taken is the model's (`victimWay_eq_some_iff`), and `fillWay` fills it and clears its sibling's
recency (`wayWord_fillWay`, `wayPte_fillWay`, `memByte_fillWay_of_ne`). -/
theorem tlbInsertFillsTheVictim : Obligations.TlbInsertFillsTheVictim := by
  intro pid page pte s hwf hok
  refine ⟨carriedBy_of_withOperands rfl rfl rfl, fun k hk => ?_, fun hno => ?_⟩
  · have hvictim := victimWay_eq_some_iff.2 hk
    obtain ⟨hk2, -⟩ := victimWay_some hvictim
    refine ⟨_, exec_tlbIns_takes hok hvictim, ?_, ?_, ?_, fun a h1 h2 => memByte_fillWay_of_ne hwf _ _ _ _ h1 h2⟩
    · rw [wayWord_fillWay hwf hk2 hk2, if_pos rfl, if_pos rfl, filledWay]
    · rw [wayPte_fillWay hwf hk2 hk2, if_pos ⟨rfl, rfl⟩]
    · rw [wayWord_fillWay hwf hk2 (by omega), if_pos rfl, if_neg (by omega), clearRecent]
  · exact exec_tlbIns_noVictim hok
      (Option.eq_none_iff_forall_ne_some.2 fun k hk => hno k (victimWay_eq_some_iff.1 hk))

/-- Whether an invalidation found its tag, as a statement about the line's ways. -/
theorem invalidateLine_found_iff {m : Memory} (hm : Memory.wf m = true) {i : Nat} {t : BitVec 30} :
    (invalidateLine m i t).2 = true ↔ ∃ w < 2, wayTag (wayWord m i w) = t := by
  simp [invalidateLine_found hm, Nat.le_one_iff_eq_zero_or_eq_one, or_and_right, exists_or]

/-- Settles O32: both words of a way with the tag become 0 (`wayWord_invalidateLine`, `wayPte_invalidateLine`), no other
byte changes (`memByte_invalidateLine_of_tag`), and the answer is whether there was one (`invalidateLine_found_iff`). -/
theorem tlbInvalidateClearsTheTag : Obligations.TlbInvalidateClearsTheTag := by
  intro pid page s hwf hok
  refine ⟨carriedBy_of_withOperands rfl rfl rfl, _, _, exec_tlbInv_of_ok hok, fun hsome => ?_, fun hnone => ?_,
    fun w hw htag => ⟨?_, ?_⟩, fun a ha => memByte_invalidateLine_of_tag hwf _ _ ha⟩
  · rw [if_pos ((invalidateLine_found_iff hwf).2 hsome)]
  · rw [if_neg]
    intro hfound
    obtain ⟨w, hw, htag⟩ := (invalidateLine_found_iff hwf).1 hfound
    exact hnone w hw htag
  · rw [invalidatePage_mem, wayWord_invalidateLine hwf hw, if_pos ⟨rfl, htag⟩]
  · rw [invalidatePage_mem, wayPte_invalidateLine hwf hw, if_pos ⟨rfl, htag⟩]

/-- Settles O42: no way of the empty store is recent, and a regular line never has both ways recent, which is what an
insert that finds no way needs (`victimWay_eq_none`). -/
theorem insertAlwaysFindsAWay : Obligations.InsertAlwaysFindsAWay := by
  refine ⟨fun c i _ => lineRegular_of_not_recent (w := 0) (by omega) (by simp [State.resetOf]),
    fun pid page pte s hok hregular => ?_⟩
  cases hv : victimWay s.mem (lineOf s.cfg pid.toNat page.toNat) with
  | some k => exact ⟨_, exec_tlbIns_takes hok hv, rfl⟩
  | none =>
    obtain ⟨-, -, hrecent0, hrecent1⟩ := victimWay_eq_none.1 hv
    exact absurd ⟨hrecent0, hrecent1⟩ (hregular _ (lineOf_lt (one_le_lines hok.2.2) _ _))

/-- No way of a line hits for a tag that has been invalidated: a way that had it is zero, which is not valid. -/
theorem noWayHits_invalidateLine_same {m : Memory} (hm : Memory.wf m = true) {i : Nat} {t : BitVec 30} :
    noWayHits (invalidateLine m i t).1 i t := by
  intro w hw
  rw [wayHits, wayWord_invalidateLine hm hw]
  split
  · simp
  · simp_all

/-- Settles O39: an invalidation leaves no way that hits (`noWayHits_invalidateLine_same`), and such a page misses
(`tlbRd_misses_iff`). -/
theorem invalidateThenReadMisses : Obligations.InvalidateThenReadMisses := by
  intro pid page s t hwf hok h
  obtain ⟨hcfg, hmem⟩ : t.cfg = s.cfg ∧
      t.mem = (invalidateLine s.mem (lineOf s.cfg pid.toNat page.toNat) (tag pid.toNat page.toNat)).1 := by
    rw [exec_tlbInv_of_ok hok] at h
    cases h
    exact ⟨rfl, rfl⟩
  rw [← hcfg] at hok hmem
  refine (tlbRd_misses_iff hok).2 ?_
  rw [hmem]
  exact noWayHits_invalidateLine_same hwf

/-! Which way hits after a touch and after a fill. -/

/-- The way that hits is the first of the line that does. -/
theorem hitWay_eq_some_iff_first {m : Memory} {i w : Nat} {t : BitVec 30} :
    hitWay m i t = some w ↔ w < 2 ∧ wayHits m i w t = true ∧ ∀ w' < w, wayHits m i w' t = false := by
  constructor
  · intro h
    obtain ⟨hw, hit⟩ := hitWay_some h
    refine ⟨hw, hit, fun w' hw' => ?_⟩
    obtain ⟨rfl, rfl⟩ : w' = 0 ∧ w = 1 := by omega
    by_contra h0
    rw [Bool.not_eq_false] at h0
    simp [hitWay, h0] at h
  · rintro ⟨hw, hit, hfirst⟩
    obtain rfl | rfl : w = 0 ∨ w = 1 := by omega
    · rw [hitWay, if_pos hit]
    · rw [hitWay, hfirst 0 (by omega), if_neg (by decide), if_pos hit]

/-- `touch` changes recency alone, which no read looks at (R154, R155). -/
theorem wayHits_touch {m : Memory} (hm : Memory.wf m = true) {w w' : Nat} (hw : w < 2) (hw' : w' < 2) (i j : Nat)
    (t : BitVec 30) : wayHits (touch m i w) j w' t = wayHits m j w' t := by
  rw [wayHits, wayPte_touch, wayWord_touch hm hw hw', wayHits]
  split
  · subst j
    split
    · subst w'
      simp
    · simp
  · rfl

theorem hitWay_touch {m : Memory} (hm : Memory.wf m = true) {w : Nat} (hw : w < 2) (i j : Nat) (t : BitVec 30) :
    hitWay (touch m i w) j t = hitWay m j t := by
  rw [hitWay, wayHits_touch hm hw (by omega), wayHits_touch hm hw (by omega), hitWay]

/-- After a fill the filled way hits for its own tag, if its entry is present; every other way hits as before (R156). -/
theorem wayHits_fillWay {m : Memory} (hm : Memory.wf m = true) {k w : Nat} (hk : k < 2) (hw : w < 2) (i j : Nat)
    (t t' : BitVec 30) (pte : Word) :
    wayHits (fillWay m i k t' pte) j w t =
      if j = i ∧ w = k then t' == t && ptePresent pte else wayHits m j w t := by
  rw [wayHits, wayWord_fillWay hm hk hw, wayPte_fillWay hm hk hw, wayHits]
  by_cases hj : j = i
  · by_cases hwk : w = k
    · simp [hj, hwk]
    · simp [hj, hwk]
  · simp [hj]

/-- A page that no valid way held hits, after its insert with a present entry, the way that was filled. -/
theorem hitWay_fillWay_same {m : Memory} (hm : Memory.wf m = true) {i k : Nat} (hk : k < 2) {t : BitVec 30} {pte : Word}
    (habsent : noWayHits m i t) (hpresent : ptePresent pte = true) : hitWay (fillWay m i k t pte) i t = some k := by
  refine hitWay_eq_some_iff_first.2 ⟨hk, ?_, fun w hw => ?_⟩
  · simp [wayHits_fillWay hm hk hk, hpresent]
  · rw [wayHits_fillWay hm hk (by omega), if_neg (by omega), habsent w (by omega)]

/-- A fill with another tag leaves the way that hits, unless it is the way filled (R171). -/
theorem hitWay_fillWay_of_ne {m : Memory} (hm : Memory.wf m = true) {i j k w : Nat} (hk : k < 2) {t t' : BitVec 30}
    (ht : t' ≠ t) (hhit : hitWay m j t = some w) (hspared : ¬(j = i ∧ w = k)) (pte : Word) :
    hitWay (fillWay m i k t' pte) j t = some w := by
  obtain ⟨hw, hit, hfirst⟩ := hitWay_eq_some_iff_first.1 hhit
  refine hitWay_eq_some_iff_first.2 ⟨hw, ?_, fun w' hw' => ?_⟩
  · rw [wayHits_fillWay hm hk hw, if_neg hspared, hit]
  · rw [wayHits_fillWay hm hk (by omega)]
    split
    · simp [ht]
    · exact hfirst w' hw'

/-! Insert, then read (R172). -/

theorem markRecent_of_recent {x : Word} (h : wayRecency x = true) : markRecent x = x := by
  refine BitVec.eq_of_getLsbD_eq fun i _ => ?_
  by_cases hi : i = 30
  · subst hi
    exact (wayRecency_markRecent x).trans h.symm
  · exact getLsbD_markRecent x hi

theorem clearRecent_of_not_recent {x : Word} (h : wayRecency x = false) : clearRecent x = x := by
  refine BitVec.eq_of_getLsbD_eq fun i _ => ?_
  by_cases hi : i = 30
  · subst hi
    exact (wayRecency_clearRecent x).trans h.symm
  · exact getLsbD_clearRecent x hi

/-- Touching the way that is most recently used already changes nothing. -/
theorem touch_of_recent {m : Memory} (hm : Memory.wf m = true) {i w : Nat} (hrecent : wayRecency (wayWord m i w) = true)
    (hother : wayRecency (wayWord m i (1 - w)) = false) : touch m i w = m := by
  have hmark : setWord m (wayAddr i w) (markRecent (wayWord m i w)) = m := by
    rw [markRecent_of_recent hrecent, wayWord, setWord_memWord hm]
  rw [touch, hmark, clearRecency, clearRecent_of_not_recent hother, wayWord, setWord_memWord hm]

/-- A fill leaves its way most recently used (R156). -/
theorem touch_fillWay {m : Memory} (hm : Memory.wf m = true) {i k : Nat} (hk : k < 2) (t : BitVec 30) (pte : Word) :
    touch (fillWay m i k t pte) i k = fillWay m i k t pte := by
  refine touch_of_recent (Memory.wf_fillWay hm i k t pte) ?_ ?_
  · rw [wayWord_fillWay hm hk hk, if_pos rfl, if_pos rfl, wayRecency_filledWay]
  · rw [wayWord_fillWay hm hk (by omega), if_pos rfl, if_neg (by omega), wayRecency_clearRecent]

/-- A page that no valid way holds does not hit (70_reset_and_hazards.md R276). -/
theorem noWayHits_of_pageAbsent {s : State} {pid page : Word} (h : pageAbsent s pid page = true) :
    noWayHits s.mem (lineOf s.cfg pid.toNat page.toNat) (tag pid.toNat page.toNat) := by
  simp only [pageAbsent, wayHolds, Bool.and_eq_true, Bool.not_eq_true'] at h
  obtain ⟨h0, h1⟩ := h
  rw [noWayHits_iff, hitWay_eq_none, wayHits, wayHits, h0, h1]
  exact ⟨rfl, rfl⟩

/-- Settles O38: the page hits the way its insert filled (`hitWay_fillWay_same`), which is most recently used already,
so that the read's touch changes nothing (`touch_fillWay`). -/
theorem insertThenReadHits : Obligations.InsertThenReadHits := by
  intro pid page pte s t hwf hok habsent hpresent h hst
  obtain ⟨k, hv, hcfg, hmem⟩ := victimWay_of_tlbIns_ok hok h hst
  obtain ⟨hk, -⟩ := victimWay_some hv
  have hhit := hitWay_fillWay_same hwf hk (noWayHits_of_pageAbsent habsent) hpresent
  have htouch := touch_fillWay hwf hk (i := lineOf s.cfg pid.toNat page.toNat) (tag pid.toNat page.toNat) pte
  have hpte := wayPte_fillWay hwf hk hk (lineOf s.cfg pid.toNat page.toNat) (lineOf s.cfg pid.toNat page.toNat)
    (tag pid.toNat page.toNat) pte
  rw [if_pos ⟨rfl, rfl⟩] at hpte
  rw [← hmem, ← hcfg] at hhit htouch hpte
  rw [← hcfg] at hok
  rw [exec_tlbRd_hit hok hhit, htouch, hpte]

/-! Read, then insert another page (R155, R156, R171). -/

/-- An insert does not take the way that a read of the line has just hit: it is valid and recent. -/
theorem victimWay_touch_ne {m : Memory} (hm : Memory.wf m = true) {i w k : Nat} {t : BitVec 30}
    (hhit : hitWay m i t = some w) (hv : victimWay (touch m i w) i = some k) : w ≠ k := by
  rintro rfl
  obtain ⟨hw, hit⟩ := hitWay_some hhit
  obtain ⟨-, hfree⟩ := victimWay_some hv
  rw [wayWord_touch hm hw hw, if_pos rfl, if_pos rfl, wayValid_markRecent, wayRecency_markRecent] at hfree
  simp only [wayHits, Bool.and_eq_true] at hit
  obtain ⟨⟨hvalid, -⟩, -⟩ := hit
  simp [hvalid] at hfree

/-- An insert of a page with another tag, into a store where a way has just been read, leaves that way the one that hits
and its entry. -/
theorem tlbIns_spares_hitWay {s u : State} {pid' page' pte : Word} {m : Memory} {i w : Nat} {t : BitVec 30}
    (hm : Memory.wf m = true) (hhit : hitWay m i t = some w) (hmem : s.mem = touch m i w)
    (hok : pageOperandsOk s.cfg pid' page') (htag : tag pid'.toNat page'.toNat ≠ t)
    (h : exec (.tlbIns pid' page' pte) s = .next u) :
    u.cfg = s.cfg ∧ hitWay u.mem i t = some w ∧ wayPte u.mem i w = wayPte m i w := by
  obtain ⟨hw, -⟩ := hitWay_some hhit
  have hwf : Memory.wf s.mem = true := hmem ▸ Memory.wf_touch hm i w
  have hhit' : hitWay s.mem i t = some w := by rw [hmem, hitWay_touch hm hw, hhit]
  have hpte : wayPte s.mem i w = wayPte m i w := by rw [hmem, wayPte_touch]
  cases hv : victimWay s.mem (lineOf s.cfg pid'.toNat page'.toNat) with
  | none =>
    rw [exec_tlbIns_noVictim hok hv] at h
    cases h
    exact ⟨rfl, hhit', hpte⟩
  | some k =>
    obtain ⟨hk, -⟩ := victimWay_some hv
    have hspared : ¬(i = lineOf s.cfg pid'.toNat page'.toNat ∧ w = k) := by
      rintro ⟨hline, hwk⟩
      rw [← hline, hmem] at hv
      exact victimWay_touch_ne hm hhit hv hwk
    rw [exec_tlbIns_takes hok hv] at h
    cases h
    refine ⟨rfl, hitWay_fillWay_of_ne hwf hk htag hhit' hspared pte, ?_⟩
    rw [respond_mem, wayPte_fillWay hwf hk hw, if_neg hspared, hpte]

/-- Settles O40: the other page has another tag (`tag_ne_of_other_page`), so its insert spares the way that was read
(`tlbIns_spares_hitWay`), and the next read answers the same entry's frame. -/
theorem pageJustReadSurvivesTheNextInsert : Obligations.PageJustReadSurvivesTheNextInsert := by
  intro pid page pid' page' pte s t u hlegal hwf hok hok' hne hread hst hins
  have htag := tag_ne_of_other_page hlegal hok (checkPage_of_ok hok') hne
  obtain ⟨w, hhit, hcfg, hmem, hresponse⟩ := hitWay_of_tlbRd_ok hok hread hst
  rw [← hcfg] at hok'
  obtain ⟨hcfg', hhit', hpte⟩ := tlbIns_spares_hitWay hwf hhit hmem hok' htag hins
  rw [hresponse, ← hpte]
  rw [← hcfg, ← hcfg'] at hok hhit' ⊢
  exact ⟨_, exec_tlbRd_hit hok hhit', rfl⟩

end Sys2Proof.Machine

/-! The flush (43_tlb.md R165, R167): page by page, and, with no other host's step waiting, its effect on every way. -/

namespace Sys2Proof.Machine

theorem exec_tlbFlush_of_ok {s : State} {pid lo hi : Word} (hcheck : checkFlush s.cfg pid lo hi = none) :
    exec (.tlbFlush pid lo hi) s =
      .next (respond { status := .ok } (flushPages pid.toNat lo.toNat (hi.toNat - lo.toNat) s)) := by
  simp [exec, execTlbFlush, tlbFlush, hcheck]

/-- A flush does its first page, lets the other hosts' steps happen, and goes on as a flush of the rest. -/
theorem exec_tlbFlush_succ {s : State} {pid lo hi : Word} (hpid : pid.toNat < 2 ^ s.cfg.pidW)
    (hhi : hi.toNat ≤ 2 ^ 14) (hcap : 16 ≤ s.cfg.cap) (hlt : lo.toNat < hi.toNat) :
    exec (.tlbFlush pid lo hi) s =
      exec (.tlbFlush pid (lo + 1) hi) (otherHosts (invalidatePage pid.toNat lo.toNat s)) := by
  have hnext : (lo + 1).toNat = lo.toNat + 1 := by
    rw [BitVec.toNat_add]
    exact Nat.mod_eq_of_lt (by simp; omega)
  have hcfg : (otherHosts (invalidatePage pid.toNat lo.toNat s)).cfg = s.cfg := (StoreOnly.otherHosts _).cfg
  have hcount : hi.toNat - lo.toNat = (hi.toNat - (lo.toNat + 1)) + 1 := by omega
  rw [exec_tlbFlush_of_ok (checkFlush_of_ok hpid (by omega) hhi hcap),
    exec_tlbFlush_of_ok (by rw [hcfg]; exact checkFlush_of_ok hpid (by omega) hhi hcap), hnext, hcount, flushPages_succ]

/-- What the other hosts do does not depend on the response in the port. -/
theorem otherHosts_respond (r : Response) (s : State) :
    ∃ r', otherHosts (respond r s) = respond r' (otherHosts s) := by
  have h : SameButFlagsAndPort s (respond r s) := rfl
  have hp := Parallel.otherHosts h.sameStore
  have hsame := h.of_parallel hp (.otherHosts _) (.otherHosts _)
  refine ⟨(otherHosts (respond r s)).response, ?_⟩
  rw [SameButFlagsAndPort, hp.flags_eq rfl] at hsame
  exact hsame

/-- Settles O35: a flush of no page is the response alone; else its first page is a `TLB.INV` but for the response
(`exec_tlbFlush_succ`), which neither the other hosts' steps (`otherHosts_respond`) nor the rest of the flush
(`noCommandReadsTheResponse`) read. -/
theorem flushIsPageByPage : Obligations.FlushIsPageByPage := by
  intro pid lo hi s hpid hlo hhi hcap
  refine ⟨fun hle => ?_, fun hlt => ⟨_, exec_tlbInv_of_ok ⟨hpid, by omega, hcap⟩, ?_⟩⟩
  · rw [exec_tlbFlush_of_ok (checkFlush_of_ok hpid hlo hhi hcap), Nat.sub_eq_zero_of_le hle, flushPages_zero]
  · obtain ⟨r', hr'⟩ := otherHosts_respond _ (invalidatePage pid.toNat lo.toNat s)
    rw [hr', noCommandReadsTheResponse, exec_tlbFlush_succ hpid hhi hcap hlt]

/-- The store after a list of pages of a process has been invalidated, in order. -/
def invalidatePages (c : Config) (pid : Nat) (ps : List Nat) (m : Memory) : Memory :=
  ps.foldl (fun m p => (invalidateLine m (lineOf c pid p) (tag pid p)).1) m

theorem invalidatePages_cons (c : Config) (pid p : Nat) (ps : List Nat) (m : Memory) :
    invalidatePages c pid (p :: ps) m =
      invalidatePages c pid ps (invalidateLine m (lineOf c pid p) (tag pid p)).1 := rfl

/-- With no other host's step waiting, a flush invalidates its pages and nothing else. -/
theorem flushPages_mem {s : State} (hgaps : s.gaps = []) (pid p n : Nat) :
    (flushPages pid p n s).mem = invalidatePages s.cfg pid (List.range' p n) s.mem := by
  induction n generalizing p s with
  | zero => rfl
  | succ n ih =>
    have hgaps' : (invalidatePage pid p s).gaps = [] := hgaps
    rw [flushPages_succ, otherHosts_nil hgaps', ih hgaps', List.range'_succ, invalidatePages_cons, invalidatePage_mem]
    rfl

/-- Both words of a way. -/
def way (m : Memory) (i w : Nat) : Word × Word := (wayWord m i w, wayPte m i w)

theorem way_invalidateLine {m : Memory} (hm : Memory.wf m = true) {w : Nat} (hw : w < 2) (i j : Nat) (t : BitVec 30) :
    way (invalidateLine m i t).1 j w = if j = i ∧ wayTag (wayWord m j w) = t then (0, 0) else way m j w := by
  rw [way, wayWord_invalidateLine hm hw, wayPte_invalidateLine hm hw]
  split
  · rfl
  · rfl

section pages
variable {c : Config} {pid : Nat} {ps : List Nat} {m : Memory} {i w : Nat}

/-- A way that is no page's of the list stays (R165). -/
theorem way_invalidatePages_of_forall_ne (hm : Memory.wf m = true) (hw : w < 2)
    (hne : ∀ p ∈ ps, lineOf c pid p = i → wayTag (wayWord m i w) ≠ tag pid p) :
    way (invalidatePages c pid ps m) i w = way m i w := by
  induction ps generalizing m with
  | nil => rfl
  | cons p ps ih =>
    obtain ⟨hp, hps⟩ := List.forall_mem_cons.1 hne
    have hstep : way (invalidateLine m (lineOf c pid p) (tag pid p)).1 i w = way m i w := by
      rw [way_invalidateLine hm hw, if_neg fun ⟨hi, ht⟩ => hp hi.symm ht]
    have hword := congrArg Prod.fst hstep
    simp only [way] at hword
    exact (ih (Memory.wf_invalidateLine hm _ _) (by rw [hword]; exact hps)).trans hstep

/-- A way that is zero stays so. -/
theorem way_invalidatePages_of_zero (hm : Memory.wf m = true) (hw : w < 2) (hzero : way m i w = (0, 0)) :
    way (invalidatePages c pid ps m) i w = (0, 0) := by
  induction ps generalizing m with
  | nil => exact hzero
  | cons p ps ih =>
    refine ih (Memory.wf_invalidateLine hm _ _) ?_
    rw [way_invalidateLine hm hw, hzero, ite_self]

/-- A way that is some page's of the list becomes zero at the first such page, and stays so (R160, R165). -/
theorem way_invalidatePages_of_exists (hm : Memory.wf m = true) (hw : w < 2)
    (hex : ∃ p ∈ ps, lineOf c pid p = i ∧ wayTag (wayWord m i w) = tag pid p) :
    way (invalidatePages c pid ps m) i w = (0, 0) := by
  induction ps generalizing m with
  | nil => simp at hex
  | cons p ps ih =>
    have hm' := Memory.wf_invalidateLine hm (lineOf c pid p) (tag pid p)
    have hstep := way_invalidateLine hm hw (lineOf c pid p) i (tag pid p)
    by_cases hp : i = lineOf c pid p ∧ wayTag (wayWord m i w) = tag pid p
    · rw [if_pos hp] at hstep
      rw [invalidatePages_cons, way_invalidatePages_of_zero hm' hw hstep]
    · rw [if_neg hp] at hstep
      have hword := congrArg Prod.fst hstep
      simp only [way] at hword
      obtain ⟨q, hq, hi, ht⟩ := hex
      obtain rfl | hq := List.mem_cons.1 hq
      · exact absurd ⟨hi.symm, ht⟩ hp
      · exact ih hm' ⟨q, hq, hi, by rw [hword]; exact ht⟩

/-- Every byte past the lines stays. -/
theorem memByte_invalidatePages (hlines : 1 ≤ lines c) {a : Nat} (ha : 16 * lines c ≤ a) :
    memByte (invalidatePages c pid ps m) a = memByte m a := by
  induction ps generalizing m with
  | nil => rfl
  | cons p ps ih =>
    have hline := lineOf_lt hlines pid p
    exact ih.trans (memByte_invalidateLine m _ _ (.inr (by omega)))

end pages

/-- Settles O34: the flush invalidates the pages of `[lo, hi)` (`flushPages_mem`), which zeroes their ways
(`way_invalidatePages_of_exists`) and leaves every other way and the bytes past the lines. -/
theorem flushClearsExactlyItsPages : Obligations.FlushClearsExactlyItsPages := by
  intro pid lo hi s hwf hpid hlo hhi hcap hgaps
  have hexec := exec_tlbFlush_of_ok (checkFlush_of_ok hpid hlo hhi hcap)
  rw [flushPages_nil hgaps, flushPages_mem hgaps] at hexec
  refine ⟨carriedBy_of_withOperands rfl rfl rfl, _, hexec, fun i w hw ⟨p, hp, hp', hline, htag⟩ => ?_,
    fun i w hw hne => ?_, fun a ha => memByte_invalidatePages (one_le_lines hcap) ha⟩
  · exact Prod.ext_iff.1 (way_invalidatePages_of_exists hwf hw ⟨p, mem_pages.2 ⟨hp, hp'⟩, hline, htag⟩)
  · refine Prod.ext_iff.1 (way_invalidatePages_of_forall_ne hwf hw fun p hp hline => ?_)
    obtain ⟨hp, hp'⟩ := mem_pages.1 hp
    exact hne p hp hp' hline

end Sys2Proof.Machine

/-! The Façade's statistics (44_facade.md R186). -/

namespace Sys2Proof.Machine

/-- A process's counters after a lookup with this status has been counted, `k` the free value to take at the maximum
(R183, R186). -/
def counted (st : Status) (k : Nat) (c : Stats) : Stats :=
  if st = .ok then { hit := countUp k c.hit, miss := c.miss } else { hit := c.hit, miss := countUp k c.miss }

theorem countUp_of_ne {c : Word} (h : c ≠ 0xFFFFFFFF) (k : Nat) : countUp k c = c + 1 := if_neg h

theorem counted_hit {st : Status} {c : Stats} (hst : st = .ok) (hmax : c.hit ≠ 0xFFFFFFFF) (k : Nat) :
    counted st k c = { hit := c.hit + 1, miss := c.miss } := by
  rw [counted, if_pos hst, countUp_of_ne hmax]

theorem counted_miss {st : Status} {c : Stats} (hst : st ≠ .ok) (hmax : c.miss ≠ 0xFFFFFFFF) (k : Nat) :
    counted st k c = { hit := c.hit, miss := c.miss + 1 } := by
  rw [counted, if_neg hst, countUp_of_ne hmax]

/-- Counting a lookup sets the process's counters and takes one free value. -/
theorem countLookup_eq (host pid : Nat) (s : State) :
    countLookup host pid s =
      { s with
        stats := update s.stats pid (some (counted (hostResponse s host).status s.freeCount (statsOf s pid)))
        freeCount := s.freeCount + 1 } := rfl

theorem statsOf_countLookup_same {s : State} (h : rising 0 s.stats = true) (host pid : Nat) :
    statsOf (countLookup host pid s) pid = counted (hostResponse s host).status s.freeCount (statsOf s pid) := by
  rw [countLookup_eq, statsOf, lookup_update_same h, Option.getD_some]

theorem statsOf_countLookup_ne {pid pid' : Nat} (hne : pid' ≠ pid) (host : Nat) (s : State) :
    statsOf (countLookup host pid s) pid' = statsOf s pid' := by
  rw [countLookup_eq, statsOf, lookup_update_ne _ hne, statsOf]

theorem statsOf_createProcess_same {s : State} (h : rising 0 s.stats = true) (pid : Nat) :
    statsOf (createProcess pid s) pid = { hit := 0, miss := 0 } := by
  rw [createProcess, statsOf, lookup_update_same h, Option.getD_some]

theorem statsOf_createProcess_ne {pid pid' : Nat} (hne : pid' ≠ pid) (s : State) :
    statsOf (createProcess pid s) pid' = statsOf s pid' := by
  rw [createProcess, statsOf, lookup_update_ne _ hne, statsOf]

/-- Settles O57: the step counts the lookup or creates the process, and either sets that process's counters alone. -/
theorem statisticsCountLookups : Obligations.StatisticsCountLookups := by
  refine ⟨fun s host pid rest hwf hin => ?_, fun s pid rest hwf hin => ?_⟩
  · obtain ⟨hlegal, -, -, -, hstats⟩ := wf_iff.1 hwf
    have hcount := statsOf_countLookup_same (s := { s with inputs := rest }) hstats host pid
    refine ⟨countLookup host pid { s with inputs := rest }, step_of_input hlegal hin, rfl,
      fun pid' hne => statsOf_countLookup_ne hne host _, fun hst hmax => ?_, fun hst hmax => ?_⟩
    · exact hcount.trans (counted_hit hst hmax _)
    · exact hcount.trans (counted_miss hst hmax _)
  · obtain ⟨hlegal, -, -, -, hstats⟩ := wf_iff.1 hwf
    exact ⟨createProcess pid { s with inputs := rest }, step_of_input hlegal hin, rfl,
      statsOf_createProcess_same hstats pid, fun pid' hne => statsOf_createProcess_ne hne _⟩

end Sys2Proof.Machine

/-! Sequences of inputs that each run one command (44_facade.md R181, R182): they are the commands run one after the
other, but for the host's registers. -/

namespace Sys2Proof.Machine

/-- The step that takes an input is the first of a run. -/
theorem steps_succ_of_input {s t : State} {x : Input} {rest : List Input} (hlegal : s.cfg.legal = true)
    (hin : s.inputs = x :: rest) (htake : takeInput x { s with inputs := rest } = .next t) (n : Nat) :
    steps (n + 1) s = steps n t := by
  rw [steps, step_of_input hlegal hin, htake]

/-- A record that carries a command is that command, its response delivered. -/
theorem takeInput_encode (host : Nat) (i : Instr) (s : State) :
    takeInput (.command host (encode i)) s = delivered host (exec i s) :=
  runCommand_of_decode (decodeInvertsEncode i) host s

/-- The state with these registers of the hosts and these coming inputs. -/
def State.withOutside (hosts : List (Nat × Response)) (inputs : List Input) (s : State) : State :=
  { s with hosts := hosts, inputs := inputs }

@[simp] theorem State.withOutside_cfg (hosts : List (Nat × Response)) (inputs : List Input) (s : State) :
    (s.withOutside hosts inputs).cfg = s.cfg := rfl

@[simp] theorem State.withOutside_mem (hosts : List (Nat × Response)) (inputs : List Input) (s : State) :
    (s.withOutside hosts inputs).mem = s.mem := rfl

/-- A state is the one without its first inputs, with them put back. -/
theorem withOutside_of_inputs {s : State} {xs rest : List Input} (hin : s.inputs = xs ++ rest) :
    ({ s with inputs := rest } : State).withOutside s.hosts (xs ++ rest) = s := by
  rw [← hin]
  rfl

/-- The command neither reads nor writes the hosts' registers and the coming inputs. -/
def HostBlind (i : Instr) : Prop :=
  ∀ (s t : State) (hosts : List (Nat × Response)) (inputs : List Input), exec i s = .next t →
    exec i (s.withOutside hosts inputs) = .next (t.withOutside hosts inputs)

theorem raise_withOutside (e : CmdError) (s : State) (hosts : List (Nat × Response)) (inputs : List Input) :
    raise e (s.withOutside hosts inputs) = (raise e s).withOutside hosts inputs := by
  cases e <;> rfl

theorem hostBlind_tlbIns (pid page pte : Word) : HostBlind (.tlbIns pid page pte) := by
  intro s t hosts inputs h
  cases h
  simp only [exec, execTlbIns, tlbIns, State.withOutside_cfg, State.withOutside_mem]
  split
  · rw [raise_withOutside]
  · split <;> rfl

theorem hostBlind_tlbInv (pid page : Word) : HostBlind (.tlbInv pid page) := by
  intro s t hosts inputs h
  cases h
  simp only [exec, execTlbInv, tlbInv, State.withOutside_cfg]
  split
  · rw [raise_withOutside]
  · rfl

/-- For this host the input runs a command that is blind to the hosts' registers, while the page directory is `pgd`. -/
structure Issues (host : Nat) (pgd : List (Nat × Word)) (x : Input) (i : Instr) : Prop where
  blind : HostBlind i
  takes : ∀ s : State, s.pgd = pgd → takeInput x s = delivered host (exec i s)

theorem issues_insertFromDirectory (host : Nat) (s : State) (pid page : Word) :
    Issues host s.pgd (.insertFromDirectory host pid page false)
      (.tlbIns pid page (pgdRead s pid.toNat page.toNat)) where
  blind := hostBlind_tlbIns _ _ _
  takes s' h := by
    have hread : pgdRead s' pid.toNat page.toNat = pgdRead s pid.toNat page.toNat := by rw [pgdRead, h, pgdRead]
    simp [takeInput, insertFromDirectory, hread]

theorem issues_tlbInv (host : Nat) (pgd : List (Nat × Word)) (pid page : Word) :
    Issues host pgd (.command host (encode (.tlbInv pid page))) (.tlbInv pid page) where
  blind := hostBlind_tlbInv _ _
  takes s _ := takeInput_encode host _ s

theorem execAll_cons {i : Instr} {is : List Instr} {s t : State} (h : exec i s = .next t) :
    execAll (i :: is) s = (execAll is t).map fun r => (t.response :: r.1, r.2) := by
  simp [execAll, h]

/-- One step for each input is the commands run one after the other, but for the hosts' registers: the host has the last
response, and no other host's registers change. -/
theorem steps_of_issues {host : Nat} {pgd : List (Nat × Word)} {xs : List Input} {is : List Instr}
    (h : List.Forall₂ (Issues host pgd) xs is) {s : State} {hosts : List (Nat × Response)}
    (hlegal : s.cfg.legal = true) (hhosts : rising 0 hosts = true) (hpgd : s.pgd = pgd) :
    ∃ rs t u, steps xs.length (s.withOutside hosts (xs ++ s.inputs)) = .next t ∧ execAll is s = some (rs, u) ∧
      t = { u with hosts := t.hosts } ∧
      hostResponse t host = (rs.getLast?).getD (hostResponse (s.withOutside hosts s.inputs) host) ∧
      ∀ other, other ≠ host → hostResponse t other = hostResponse (s.withOutside hosts s.inputs) other := by
  induction h generalizing s hosts with
  | nil => exact ⟨[], s.withOutside hosts s.inputs, s, rfl, rfl, rfl, rfl, fun _ _ => rfl⟩
  | @cons x i xs is hx _ ih =>
    obtain ⟨w, hw⟩ := exec_next i s
    obtain ⟨hcfg, hpgd', -, -, hinputs⟩ := exec_keeps hw
    have htake : takeInput x (s.withOutside hosts (xs ++ s.inputs)) =
        .next (deliver host (w.withOutside hosts (xs ++ w.inputs))) := by
      rw [hx.takes (s.withOutside hosts (xs ++ s.inputs)) hpgd, hx.blind s w _ _ hw, hinputs, delivered]
    have hfirst : hostResponse (deliver host (w.withOutside hosts w.inputs)) host = w.response :=
      hostResponse_deliver_same hhosts host
    obtain ⟨rs, t, u, hsteps, hall, ht, hlast, hother⟩ := ih (s := w) (hosts := update hosts host (some w.response))
      (by rw [hcfg]; exact hlegal) (rising_update hhosts (Nat.zero_le _) _) (hpgd'.trans hpgd)
    refine ⟨w.response :: rs, t, u, ?_, ?_, ht, ?_, fun other hne => ?_⟩
    · exact (steps_succ_of_input (s := s.withOutside hosts (x :: xs ++ s.inputs)) hlegal rfl htake _).trans hsteps
    · rw [execAll_cons hw, hall, Option.map_some]
    · rw [List.getLast?_cons, Option.getD_some, ← hfirst]
      exact hlast
    · exact (hother other hne).trans (hostResponse_deliver_ne hne (w.withOutside hosts w.inputs))

/-! The pages of a byte range (R188, 43_tlb.md R166). -/

theorem toNat_vaPage (addr : Word) : (vaPage addr).toNat = addr.toNat / 2 ^ 8 % 2 ^ 14 := toNat_bits addr (by decide)

theorem vaPage_lt (addr : Word) : (vaPage addr).toNat < 2 ^ 14 := by
  rw [toNat_vaPage]
  exact Nat.mod_lt _ (by decide)

theorem pageSpan_of_lt {start stop : Word} (h : start.toNat < stop.toNat) :
    pageSpan start stop = (start.toNat / 2 ^ 8 % 2 ^ 14, (stop.toNat - 1) / 2 ^ 8 % 2 ^ 14 + 1) := by
  have hlast : (stop - 1).toNat = stop.toNat - 1 := BitVec.toNat_sub_of_le (BitVec.le_def.2 (by simp; omega))
  rw [pageSpan, if_pos h, toNat_vaPage, toNat_vaPage, hlast]

theorem pageSpan_of_le {start stop : Word} (h : stop.toNat ≤ start.toNat) : pageSpan start stop = (0, 0) :=
  if_neg (Nat.not_lt.2 h)

/-- The bounds of a span are page bounds (43_tlb.md R165). -/
theorem pageSpan_le (start stop : Word) : (pageSpan start stop).1 ≤ 2 ^ 14 ∧ (pageSpan start stop).2 ≤ 2 ^ 14 := by
  by_cases h : start.toNat < stop.toNat
  · rw [pageSpan_of_lt h]
    omega
  · rw [pageSpan_of_le (Nat.not_lt.1 h)]
    omega

/-- A page bound is a word. -/
theorem toNat_ofNat_bound {p : Nat} (h : p ≤ 2 ^ 14) : (BitVec.ofNat 32 p).toNat = p := by
  rw [BitVec.toNat_ofNat]
  omega

/-- A page of a span is a page number. -/
theorem lt_of_mem_pageSpan {start stop : Word} {p : Nat}
    (h : p ∈ pages (pageSpan start stop).1 (pageSpan start stop).2) : p < 2 ^ 14 :=
  (mem_pages.1 h).2.trans_le (pageSpan_le start stop).2

/-- A successful alloc issues one insert for each page of its range (R181). -/
theorem issues_facAlloc (host : Nat) (pid start stop : Word) (s : State) :
    List.Forall₂ (Issues host s.pgd) (facAlloc host pid (some (start, stop)))
      ((pages (pageSpan start stop).1 (pageSpan start stop).2).map fun p =>
        .tlbIns pid (BitVec.ofNat 32 p) (pgdRead s pid.toNat p)) := by
  rw [facAlloc, List.forall₂_map_left_iff, List.forall₂_map_right_iff, List.forall₂_same]
  intro p hp
  have hissue := issues_insertFromDirectory host s pid (BitVec.ofNat 32 p)
  rwa [toNat_ofNat_bound (lt_of_mem_pageSpan hp).le] at hissue

/-- A free issues one invalidation for each page of its region (R182). -/
theorem issues_facFree (host : Nat) (pid start stop : Word) (pgd : List (Nat × Word)) :
    List.Forall₂ (Issues host pgd) (facFree host pid start stop [] true)
      ((pages (pageSpan start stop).1 (pageSpan start stop).2).map fun p => .tlbInv pid (BitVec.ofNat 32 p)) := by
  rw [facFree, List.nil_append, if_pos rfl, List.forall₂_map_left_iff, List.forall₂_map_right_iff, List.forall₂_same]
  exact fun p _ => issues_tlbInv host pgd pid (BitVec.ofNat 32 p)

theorem length_pages (lo hi : Nat) : (pages lo hi).length = hi - lo := List.length_range'

/-- Settles O60: each input of an alloc issues one insert (`issues_facAlloc`), so that the sequence is the inserts one
after the other (`steps_of_issues`); `flush_of` is one record (`stepRunsDecodedCommand`). -/
theorem allocInsertsEachPage : Obligations.AllocInsertsEachPage := by
  refine ⟨fun s host pid start stop rest hwf hin => ?_, fun s host pid rest hlegal hin => ?_⟩
  · obtain ⟨hlegal, hstore, -⟩ := wf_iff.1 hwf
    have hissues := issues_facAlloc host pid start stop s
    obtain ⟨rs, t, u, hsteps, hrest⟩ :=
      steps_of_issues hissues (s := { s with inputs := rest }) hlegal hstore.hosts rfl
    rw [withOutside_of_inputs hin, hissues.length_eq, List.length_map, length_pages] at hsteps
    exact ⟨rs, t, u, hsteps, hrest⟩
  · obtain ⟨-, t, ht, htake⟩ := stepRunsDecodedCommand s host _ rest _ hlegal hin (decodeInvertsEncode _)
    exact ⟨t, ht, htake⟩

/-- Invalidations one after the other leave the block with those pages invalidated, in order, and a response. -/
theorem execAll_tlbInv {pid : Word} {ps : List Nat} {s : State} (hpid : pid.toNat < 2 ^ s.cfg.pidW)
    (hcap : 16 ≤ s.cfg.cap) (hps : ∀ p ∈ ps, p < 2 ^ 14) :
    ∃ rs r, execAll (ps.map fun p => .tlbInv pid (BitVec.ofNat 32 p)) s =
      some (rs, { s with mem := invalidatePages s.cfg pid.toNat ps s.mem, response := r }) := by
  induction ps generalizing s with
  | nil => exact ⟨[], s.response, rfl⟩
  | cons p ps ih =>
    obtain ⟨hp, hps'⟩ := List.forall_mem_cons.1 hps
    have hpage := toNat_ofNat_bound hp.le
    have hexec := exec_tlbInv_of_ok (s := s) (pid := pid) (page := BitVec.ofNat 32 p) ⟨hpid, by omega, hcap⟩
    rw [hpage] at hexec
    obtain ⟨rs, r, hall⟩ := ih (s := respond _ (invalidatePage pid.toNat p s)) hpid hcap hps'
    exact ⟨_, r, by rw [List.map_cons, execAll_cons hexec, hall]; rfl⟩

/-- A flush, with no other host's step waiting, leaves the block with its pages invalidated and the response `OK`. -/
theorem exec_tlbFlush_of_no_gaps {s : State} {pid lo hi : Word} (hcheck : checkFlush s.cfg pid lo hi = none)
    (hgaps : s.gaps = []) :
    exec (.tlbFlush pid lo hi) s =
      .next (respond { status := .ok }
        { s with mem := invalidatePages s.cfg pid.toNat (pages lo.toNat hi.toNat) s.mem }) := by
  rw [exec_tlbFlush_of_ok hcheck, flushPages_nil hgaps, flushPages_mem hgaps, pages]

/-- Settles O59: the free's inputs are its invalidations one after the other (`issues_facFree`, `steps_of_issues`), and
those leave the block as the flush does (`execAll_tlbInv`, `exec_tlbFlush_of_no_gaps`). -/
theorem freeIsOneFlush : Obligations.FreeIsOneFlush := by
  refine ⟨fun s host pid start stop rest hwf hgaps hpid hcap hin => ?_,
    fun start stop => ⟨pageSpan_of_lt, fun h => ?_⟩, fun _ _ => rfl⟩
  · obtain ⟨hlegal, hstore, -⟩ := wf_iff.1 hwf
    obtain ⟨hlo, hhi⟩ := pageSpan_le start stop
    have hflush := exec_tlbFlush_of_no_gaps (s := s) (pid := pid) (lo := BitVec.ofNat 32 (pageSpan start stop).1)
      (hi := BitVec.ofNat 32 (pageSpan start stop).2)
      (checkFlush_of_ok hpid (by rwa [toNat_ofNat_bound hlo]) (by rwa [toNat_ofNat_bound hhi]) hcap) hgaps
    rw [toNat_ofNat_bound hlo, toNat_ofNat_bound hhi] at hflush
    have hissues := issues_facFree host pid start stop s.pgd
    obtain ⟨rs, t, v, hsteps, hall, ht, -, hother⟩ :=
      steps_of_issues hissues (s := { s with inputs := rest }) hlegal hstore.hosts rfl
    rw [withOutside_of_inputs hin, hissues.length_eq, List.length_map, length_pages] at hsteps
    obtain ⟨rs', r, hall'⟩ := execAll_tlbInv (s := { s with inputs := rest }) hpid hcap
      fun p => lt_of_mem_pageSpan (start := start) (stop := stop)
    rw [hall'] at hall
    cases hall
    exact ⟨t, _, hsteps, hflush, by rw [ht]; rfl, hother⟩
  · rw [pageSpan_of_le h, pages_nil le_rfl]

end Sys2Proof.Machine

/-! The lookup that a Façade read or write begins with (44_facade.md R183, R184), and a write followed by a read. -/

namespace Sys2Proof.Machine

/-- The step that takes a command's record is the first of a run. -/
theorem steps_succ_of_command {s t : State} {host : Nat} {i : Instr} {rest : List Input} (hlegal : s.cfg.legal = true)
    (hin : s.inputs = .command host (encode i) :: rest) (hexec : exec i { s with inputs := rest } = .next t) (n : Nat) :
    steps (n + 1) s = steps n (deliver host t) := by
  refine steps_succ_of_input hlegal hin ?_ n
  rw [takeInput_encode, hexec, delivered]

/-- A read that changes nothing but the response does and answers the same wherever the store is the same. -/
theorem exec_tlbRd_of_same_mem {s s' : State} {pid page : Word} {r : Response} (hok : pageOperandsOk s.cfg pid page)
    (hcfg : s'.cfg = s.cfg) (hmem : s'.mem = s.mem) (h : exec (.tlbRd pid page) s = .next (respond r s)) :
    exec (.tlbRd pid page) s' = .next (respond r s') := by
  have hok' : pageOperandsOk s'.cfg pid page := hcfg ▸ hok
  cases hw : hitWay s.mem (lineOf s.cfg pid.toNat page.toNat) (tag pid.toNat page.toNat) with
  | none =>
    rw [(tlbRd_misses_iff hok).2 (noWayHits_iff.2 hw)] at h
    obtain rfl : { status := .miss } = r := congrArg State.response (Host.Outcome.next.inj h)
    exact (tlbRd_misses_iff hok').2 (noWayHits_iff.2 (by rw [hcfg, hmem, hw]))
  | some w =>
    rw [exec_tlbRd_hit hok hw] at h
    have htouch : touch s.mem (lineOf s.cfg pid.toNat page.toNat) w = s.mem :=
      congrArg State.mem (Host.Outcome.next.inj h)
    have hr : ({ status := .ok, res0 := _ } : Response) = r := congrArg State.response (Host.Outcome.next.inj h)
    rw [exec_tlbRd_hit hok' (w := w) (by rw [hcfg, hmem, hw]), hcfg, hmem, htouch, hr, ← hmem, ← hcfg]

/-- The state after the two commands of a Façade lookup, the page of the address and a read that changes nothing and
answers `r`. -/
def answered (host : Nat) (addr : Word) (r : Response) (s : State) : State :=
  deliver host (respond r (deliver host (respond { status := .ok, res0 := vaPage addr } s)))

theorem respond_wf {s : State} (hs : s.wf = true) (r : Response) : (respond r s).wf = true := hs

theorem answered_wf {s : State} (hs : s.wf = true) (host : Nat) (addr : Word) (r : Response) :
    (answered host addr r s).wf = true := by
  have hpage := deliver_wf (respond_wf hs { status := .ok, res0 := vaPage addr }) host
  exact deliver_wf (respond_wf hpage r) host

/-- The state after a Façade lookup: its read is counted. -/
def lookedUp (host : Nat) (pid addr : Word) (r : Response) (s : State) : State :=
  countLookup host pid.toNat (answered host addr r s)

theorem lookedUp_wf {s : State} (hs : s.wf = true) (host : Nat) (pid addr : Word) (r : Response) :
    (lookedUp host pid addr r s).wf = true :=
  stats_update_wf (answered_wf hs host addr r) _ _ _

/-- The host's registers hold the read's response. -/
theorem hostResponse_answered {s : State} (hs : s.wf = true) (host : Nat) (addr : Word) (r : Response) :
    hostResponse (answered host addr r s) host = r := by
  obtain ⟨-, hstore, -⟩ := wf_iff.1 hs
  exact hostResponse_deliver_same
    (s := respond r (deliver host (respond { status := .ok, res0 := vaPage addr } s)))
    (rising_update hstore.hosts (Nat.zero_le _) _) host

theorem hostResponse_lookedUp {s : State} (hs : s.wf = true) (host : Nat) (pid addr : Word) (r : Response) :
    hostResponse (lookedUp host pid addr r s) host = r :=
  hostResponse_answered hs host addr r

/-- The read's status is counted (R183, R186). -/
theorem statsOf_lookedUp {s : State} (hs : s.wf = true) (host : Nat) (pid addr : Word) (r : Response) :
    statsOf (lookedUp host pid addr r s) pid.toNat = counted r.status s.freeCount (statsOf s pid.toNat) := by
  obtain ⟨-, -, -, -, hstats⟩ := wf_iff.1 (answered_wf hs host addr r)
  rw [lookedUp, statsOf_countLookup_same hstats, hostResponse_answered hs]
  rfl

/-- The three inputs of a lookup. -/
theorem steps_facLookup {s : State} {host : Nat} {pid addr : Word} {r : Response} {rest : List Input}
    (hlegal : s.cfg.legal = true) (hok : pageOperandsOk s.cfg pid (vaPage addr))
    (hin : s.inputs = facLookup host pid addr ++ rest)
    (hread : exec (.tlbRd pid (vaPage addr)) s = .next (respond r s)) (n : Nat) :
    steps (n + 3) s = steps n (lookedUp host pid addr r { s with inputs := rest }) := calc
  steps (n + 3) s
  _ = steps (n + 2) (deliver host (respond { status := .ok, res0 := vaPage addr }
        { s with
          inputs := .command host (encode (.tlbRd pid (vaPage addr))) :: .countLookup host pid.toNat :: rest })) :=
    steps_succ_of_command hlegal hin rfl _
  _ = steps (n + 1) (answered host addr r { s with inputs := .countLookup host pid.toNat :: rest }) :=
    steps_succ_of_command (by exact hlegal) rfl (by exact exec_tlbRd_of_same_mem hok rfl rfl hread) _
  _ = steps n (lookedUp host pid addr r { s with inputs := rest }) :=
    steps_succ_of_input (by exact hlegal) rfl rfl _

/-- A page that no valid way holds reads `MISS`. -/
theorem exec_tlbRd_of_pageAbsent {s : State} {pid page : Word} (hok : pageOperandsOk s.cfg pid page)
    (habsent : pageAbsent s pid page = true) :
    exec (.tlbRd pid page) s = .next (respond { status := .miss } s) :=
  (tlbRd_misses_iff hok).2 (noWayHits_of_pageAbsent habsent)

/-- The Façade's insert after a miss, of a page that no valid way holds: the page reads with its directory entry's frame
(R184). -/
theorem steps_insert_after_miss {s : State} {host : Nat} {pid page : Word} {rest : List Input} (hwf : s.wf = true)
    (hregular : regularLines s) (hok : pageOperandsOk s.cfg pid page) (habsent : pageAbsent s pid page = true)
    (hpresent : ptePresent (pgdRead s pid.toNat page.toNat) = true) (hmiss : (hostResponse s host).status ≠ .ok)
    (hin : s.inputs = .insertFromDirectory host pid page true :: rest) :
    ∃ t, (∀ n, steps (n + 1) s = steps n t) ∧ t.wf = true ∧ t.cfg = s.cfg ∧ t.inputs = rest ∧ t.stats = s.stats ∧
      exec (.tlbRd pid page) t =
        .next (respond { status := .ok, res0 := (pteFrame (pgdRead s pid.toNat page.toNat)).setWidth 32 } t) := by
  obtain ⟨hlegal, hstore, -⟩ := wf_iff.1 hwf
  obtain ⟨u, hins, hst⟩ :=
    insertAlwaysFindsAWay.2 pid page (pgdRead s pid.toNat page.toNat) { s with inputs := rest } hok hregular
  have hread := insertThenReadHits pid page _ { s with inputs := rest } u hstore.wf hok habsent hpresent hins hst
  have htake : takeInput (.insertFromDirectory host pid page true) { s with inputs := rest } =
      .next (deliver host u) := by
    have hguard : ((hostResponse { s with inputs := rest } host).status == .ok) = false :=
      beq_eq_false_iff_ne.2 hmiss
    rw [takeInput, insertFromDirectory, hguard, Bool.and_false, if_neg Bool.false_ne_true]
    exact congrArg (delivered host) hins
  have hwf' : u.wf = true := exec_wf (s := { s with inputs := rest }) hwf hins
  obtain ⟨hcfg, -, hstats, -, hinputs⟩ := exec_keeps hins
  have hok' : pageOperandsOk u.cfg pid page := hcfg ▸ hok
  exact ⟨deliver host u, steps_succ_of_input hlegal hin htake, deliver_wf hwf' host, hcfg, hinputs, hstats,
    exec_tlbRd_of_same_mem (s' := deliver host u) hok' rfl rfl hread⟩

/-- The four inputs of a Façade write of a page that the cache did not hold: the miss is counted, and the page reads
with its directory entry's frame (R184). -/
theorem steps_facWrite_of_pageAbsent {s : State} {host : Nat} {pid addr : Word} {rest : List Input}
    (hwf : s.wf = true) (hregular : regularLines s) (hok : pageOperandsOk s.cfg pid (vaPage addr))
    (habsent : pageAbsent s pid (vaPage addr) = true)
    (hpresent : ptePresent (pgdRead s pid.toNat (vaPage addr).toNat) = true)
    (hin : s.inputs = facWrite host pid addr [] true ++ rest) :
    ∃ t, (∀ n, steps (n + 4) s = steps n t) ∧ t.wf = true ∧ t.cfg = s.cfg ∧ t.inputs = rest ∧
      statsOf t pid.toNat = counted .miss s.freeCount (statsOf s pid.toNat) ∧
      exec (.tlbRd pid (vaPage addr)) t =
        .next (respond
          { status := .ok, res0 := (pteFrame (pgdRead s pid.toNat (vaPage addr).toNat)).setWidth 32 } t) := by
  obtain ⟨hlegal, -⟩ := wf_iff.1 hwf
  have hlookup := steps_facLookup hlegal hok
    (rest := .insertFromDirectory host pid (vaPage addr) true :: rest) hin (exec_tlbRd_of_pageAbsent hok habsent)
  have hpopped : ({ s with inputs := .insertFromDirectory host pid (vaPage addr) true :: rest } : State).wf = true :=
    hwf
  have hstatus := congrArg Response.status (hostResponse_lookedUp hpopped host pid addr { status := .miss })
  obtain ⟨t, hsteps, hwf', hcfg, hinputs, hstats, hread⟩ :=
    steps_insert_after_miss (lookedUp_wf hpopped host pid addr { status := .miss }) hregular hok habsent hpresent
      (by rw [hstatus]; decide) rfl
  refine ⟨t, fun n => (hlookup (n + 1)).trans (hsteps n), hwf', hcfg, hinputs, ?_, hread⟩
  rw [statsOf, hstats]
  exact statsOf_lookedUp hpopped host pid addr { status := .miss }

/-- Settles O58: the write counts a miss and inserts the page (`steps_facWrite_of_pageAbsent`), so that the read's
lookup hits and is counted as a hit (`steps_facLookup`). -/
theorem writeAfterMissMakesTheNextReadHit : Obligations.WriteAfterMissMakesTheNextReadHit := by
  intro s host pid addr rest hwf hregular hpid hcap habsent hpresent hhit hmiss hin
  have hok : pageOperandsOk s.cfg pid (vaPage addr) := ⟨hpid, vaPage_lt addr, hcap⟩
  have hin' : s.inputs = facWrite host pid addr [] true ++ (facLookup host pid addr ++ rest) := hin
  obtain ⟨t, hwrite, hwf', hcfg, hinputs, hstats, hread⟩ :=
    steps_facWrite_of_pageAbsent hwf hregular hok habsent hpresent hin'
  obtain ⟨hlegal, -⟩ := wf_iff.1 hwf'
  have hlookup := steps_facLookup hlegal (by rw [hcfg]; exact hok) hinputs hread 0
  have hpopped : ({ t with inputs := rest } : State).wf = true := hwf'
  refine ⟨_, (hwrite 3).trans hlookup, rfl, ?_, hostResponse_lookedUp hpopped host pid addr _⟩
  have hfirst := hstats.trans (counted_miss (by decide) hmiss _)
  have hsecond := statsOf_lookedUp hpopped host pid addr
    { status := .ok, res0 := (pteFrame (pgdRead s pid.toNat (vaPage addr).toNat)).setWidth 32 }
  have hstats' : statsOf { t with inputs := rest } pid.toNat = statsOf t pid.toNat := rfl
  rw [hsecond, hstats', hfirst, counted_hit rfl]
  exact hhit

end Sys2Proof.Machine

/-! One level written (46_scheduler.md R230): what the other levels and the quotas hold afterwards, and the marks that
the scheduler writes and leaves. -/

namespace Sys2Proof.Machine

theorem levelAt_congr {s t : State} (h : t.levels = s.levels) (l : Nat) : levelAt t l = levelAt s l := by
  rw [levelAt, h, levelAt]

theorem levelAt_setLevel_same {s : State} {l : Nat} (hl : l < s.levels.length) (lv : Level) :
    levelAt (setLevel l lv s) l = lv := by
  rw [levelAt_setLevel, if_pos ⟨rfl, hl⟩]

theorem levelAt_setLevel_ne {l l' : Nat} (h : l' ≠ l) (lv : Level) (s : State) :
    levelAt (setLevel l lv s) l' = levelAt s l' := by
  rw [levelAt_setLevel, if_neg fun e => h e.1]

theorem addQuota_levels_congr {s t : State} (h : t.levels = s.levels) (l : Nat) (d : Word) :
    (addQuota l d t).levels = (addQuota l d s).levels := by
  rw [addQuota, addQuota, setLevel_levels, setLevel_levels, levelAt_congr h, h]

/-- A quota changed after its level was written is one write of the level. -/
theorem addQuota_setLevel {s : State} {l : Nat} (hl : l < s.levels.length) (lv : Level) (d : Word) :
    addQuota l d (setLevel l lv s) = setLevel l { lv with slot := lv.slot + d } s := by
  rw [addQuota, levelAt_setLevel_same hl, setLevel, setLevel_levels, List.set_set]
  rfl

/-- A level written with its quota changed by `d` changes that quota by `d` and no other. -/
theorem slot_setLevel {s : State} {l : Nat} {lv : Level} {d : Word} (hl : l < s.levels.length)
    (hlv : lv.slot = (levelAt s l).slot + d) (l' : Nat) :
    (levelAt (setLevel l lv s) l').slot = (levelAt s l').slot + if l = l' then d else 0 := by
  by_cases h : l = l'
  · subst h
    rw [levelAt_setLevel_same hl, hlv, if_pos rfl]
  · rw [levelAt_setLevel_ne (Ne.symm h), if_neg h, add_zero]

/-- Within the invariant a level below `MAX_PRIO` is one of the state's levels (10_state.md R31). -/
theorem lt_length_levels {s : State} (hok : levelsOk s = true) {l : Nat} (hl : l < s.cfg.maxPrio) :
    l < s.levels.length := by
  obtain ⟨hlen, -⟩ := levelsOk_iff.1 hok
  omega

theorem qFullFlag_clearQFull (f : BitVec 2) : qFullFlag (clearQFull f) = false := by simp [qFullFlag, clearQFull]

theorem devErrFlag_clearQFull (f : BitVec 2) : devErrFlag (clearQFull f) = devErrFlag f := by
  simp [devErrFlag, clearQFull]

theorem devErrFlag_setQFull (f : BitVec 2) : devErrFlag (setQFull f) = devErrFlag f := by
  simp [devErrFlag, setQFull]

end Sys2Proof.Machine

/-! The scheduler commands' operand checks (46_scheduler.md R219, R222, R229, R231): which error each failing check
gives. -/

namespace Sys2Proof.Machine

section checks
variable {c : Config} {prio level pid lo hi : Word}

theorem checkPut_of_bad_prio (hprio : c.maxPrio ≤ prio.toNat) : checkPut c prio = some (.badArg 1) := by
  simp [checkPut, prioOk, hprio]

theorem checkPut_of_ok (hprio : prio.toNat < c.maxPrio) : checkPut c prio = none := by
  simp [checkPut, prioOk, hprio]

theorem checkSlot_of_bad_level (hlevel : c.maxPrio ≤ level.toNat) : checkSlot c level = some (.badArg 0) := by
  simp [checkSlot, prioOk, hlevel]

theorem checkSlot_of_ok (hlevel : level.toNat < c.maxPrio) : checkSlot c level = none := by
  simp [checkSlot, prioOk, hlevel]

theorem checkEnd_of_bad_prio (hprio : c.maxPrio ≤ prio.toNat) : checkEnd c prio pid lo hi = some (.badArg 1) := by
  simp [checkEnd, prioOk, hprio]

theorem checkEnd_of_bad_pid (hprio : prio.toNat < c.maxPrio) (hpid : 2 ^ c.pidW ≤ pid.toNat) :
    checkEnd c prio pid lo hi = some (.badArg 2) := by
  simp [checkEnd, prioOk, pidOk, hprio, hpid]

theorem checkEnd_of_bad_lo (hprio : prio.toNat < c.maxPrio) (hpid : pid.toNat < 2 ^ c.pidW) (hlo : 2 ^ 14 < lo.toNat) :
    checkEnd c prio pid lo hi = some (.badArg 3) := by
  simp [-Nat.reducePow, checkEnd, prioOk, pidOk, boundOk, hprio, hpid, hlo]

theorem checkEnd_of_bad_hi (hprio : prio.toNat < c.maxPrio) (hpid : pid.toNat < 2 ^ c.pidW) (hlo : lo.toNat ≤ 2 ^ 14)
    (hhi : 2 ^ 14 < hi.toNat) : checkEnd c prio pid lo hi = some (.badArg 4) := by
  simp [-Nat.reducePow, checkEnd, prioOk, pidOk, boundOk, hprio, hpid, hlo.not_gt, hhi]

end checks

theorem exec_schPut_refused {s : State} {prio : Word} {e : CmdError} (h : checkPut s.cfg prio = some e) (proc : Word) :
    exec (.schPut proc prio) s = .next (raise e s) := by
  simp [exec, execSchPut, h]

theorem exec_schSlot_refused {s : State} {level : Word} {e : CmdError} (h : checkSlot s.cfg level = some e) :
    exec (.schSlot level) s = .next (raise e s) := by
  simp [exec, execSchSlot, h]

theorem exec_schEnd_refused {s : State} {prio pid lo hi : Word} {e : CmdError}
    (h : checkEnd s.cfg prio pid lo hi = some e) (proc : Word) :
    exec (.schEnd proc prio pid lo hi) s = .next (raise e s) := by
  simp [exec, execSchEnd, h]

end Sys2Proof.Machine

/-! The scheduler's commands (46_scheduler.md R216 to R229), an equation for each of their cases. -/

namespace Sys2Proof.Machine

/-- No level has one: `EMPTY` (R217). -/
theorem exec_schGet_of_empty {s : State} (h : ∀ l < s.cfg.maxPrio, (levelAt s l).items = []) :
    exec .schGet s = .next (respond { status := .empty } s) := by
  simp [exec, execSchGet, firstReady_eq_none.2 h]

/-- The front of the first level that has one leaves it, and that level's quota is decremented (R217). -/
theorem exec_schGet_of_front {s : State} (hok : levelsOk s = true) {l : Nat} {x : Word} {rest : List Word}
    (hl : l < s.cfg.maxPrio) (hitems : (levelAt s l).items = x :: rest)
    (hfirst : ∀ l' < l, (levelAt s l').items = []) :
    exec .schGet s =
      .next (respond { status := .ok, res0 := x, res1 := BitVec.ofNat 32 l }
        (setLevel l { items := rest, slot := (levelAt s l).slot - 1 } s)) := by
  have hready : firstReady s = some l := firstReady_eq_some.2 ⟨hl, by simp [hitems], hfirst⟩
  have hdequeue : dequeue l s = some (x, setLevel l { levelAt s l with items := rest } s) := by
    simp [dequeue, hitems]
  simp only [exec, execSchGet, hready, hdequeue, addQuota_setLevel (lt_length_levels hok hl), BitVec.sub_eq_add_neg]

/-- What a get finds: no level with an item, or a first one. -/
theorem empty_or_front (s : State) :
    (∀ l < s.cfg.maxPrio, (levelAt s l).items = []) ∨
      ∃ l x rest, l < s.cfg.maxPrio ∧ (levelAt s l).items = x :: rest ∧ ∀ l' < l, (levelAt s l').items = [] := by
  cases h : firstReady s with
  | none => exact .inl (firstReady_eq_none.1 h)
  | some l =>
    obtain ⟨hl, hne, hfirst⟩ := firstReady_eq_some.1 h
    obtain ⟨x, rest, hitems⟩ := List.exists_cons_of_ne_nil hne
    exact .inr ⟨l, x, rest, hl, hitems, hfirst⟩

/-- A put with room joins the end of its level's queue and increments its quota (R219). -/
theorem exec_schPut_of_room {s : State} (hok : levelsOk s = true) {prio : Word} (hprio : prio.toNat < s.cfg.maxPrio)
    (hroom : (levelAt s prio.toNat).items.length < s.cfg.maxQueue) (proc : Word) :
    exec (.schPut proc prio) s =
      .next (respond { status := .ok }
        (setLevel prio.toNat
          { items := (levelAt s prio.toNat).items ++ [proc], slot := (levelAt s prio.toNat).slot + 1 } s)) := by
  simp only [exec, execSchPut, checkPut_of_ok hprio, enqueue, if_neg hroom.ne, if_true,
    addQuota_setLevel (lt_length_levels hok hprio)]

/-- A put on a full queue increments the quota all the same, and records the loss (R219, R221). -/
theorem exec_schPut_of_full {s : State} {prio : Word} (hprio : prio.toNat < s.cfg.maxPrio)
    (hfull : (levelAt s prio.toNat).items.length = s.cfg.maxQueue) (proc : Word) :
    exec (.schPut proc prio) s =
      .next (respond { status := .full } { addQuota prio.toNat 1 s with flags := setQFull s.flags }) := by
  simp [exec, execSchPut, checkPut_of_ok hprio, enqueue, hfull]

theorem exec_schSlot_of_ok {s : State} {level : Word} (hlevel : level.toNat < s.cfg.maxPrio) :
    exec (.schSlot level) s = .next (respond { status := .ok, res0 := (levelAt s level.toNat).slot } s) := by
  simp [exec, execSchSlot, checkSlot_of_ok hlevel]

theorem schEmpty_of_queued {s : State} {l : Nat} (hl : l < s.cfg.maxPrio) (h : (levelAt s l).items ≠ []) :
    exec .schEmpty s = .next (respond { status := .ok, res0 := 0 } s) := by
  have hall : (List.range s.cfg.maxPrio).all (fun l => queueEmpty l s) = false :=
    List.all_eq_false.2 ⟨l, List.mem_range.2 hl, by simp [queueEmpty_eq_false.2 ⟨hl, h⟩]⟩
  simp [exec, execSchEmpty, hall]

/-- The answer of `SCH.END` counts its reclaim events by kind (R222). -/
def endResponse (es : List Event) : Response :=
  { status := .ok, res0 := BitVec.ofNat 32 (es.countP Event.isRam), res1 := BitVec.ofNat 32 (es.countP Event.isSwap) }

/-- The flush of `SCH.END` is `TLB.FLUSH` of the range but for its response, or nothing without a line (R222). -/
theorem exists_tlbFlush_afterFlush {s : State} {pid lo hi : Word} (hpid : pid.toNat < 2 ^ s.cfg.pidW)
    (hlo : lo.toNat ≤ 2 ^ 14) (hhi : hi.toNat ≤ 2 ^ 14) :
    ∃ f, (16 ≤ s.cfg.cap → exec (.tlbFlush pid lo hi) s = .next f) ∧ (s.cfg.cap < 16 → f = s) ∧
      ∀ r, respond r (afterFlush pid lo hi s) = respond r f := by
  by_cases hcap : 16 ≤ s.cfg.cap
  · refine ⟨_, fun _ => exec_tlbFlush_of_ok (checkFlush_of_ok hpid hlo hhi hcap), fun h => by omega, fun r => ?_⟩
    rw [afterFlush, if_pos (hasLine_iff.2 (one_le_lines hcap))]
    rfl
  · have hnoline : hasLine s.cfg = false := by simp [hasLine, lines_eq_zero (Nat.lt_of_not_le hcap)]
    exact ⟨s, fun h => absurd h hcap, fun _ => rfl, fun r => by simp [afterFlush, hnoline]⟩

/-- The quota and the events of `SCH.END` are written beside what its flush wrote. -/
theorem respond_emit_addQuota (r : Response) (es : List Event) (l : Nat) (d : Word) (s : State) :
    respond r (emit es (addQuota l d s)) =
      { respond r s with levels := (addQuota l d s).levels, events := s.events ++ es } := rfl

/-- An end that passes its checks, where `f` is the state after its flush but for the response: the quota, the walk, the
release (R222, R223). -/
theorem exec_schEnd_of_ok {s f : State} {prio pid lo hi : Word} (hcheck : checkEnd s.cfg prio pid lo hi = none)
    (hf : ∀ r, respond r (afterFlush pid lo hi s) = respond r f) (proc : Word) :
    exec (.schEnd proc prio pid lo hi) s =
      .next (respond (endResponse (walk s pid.toNat lo.toNat hi.toNat))
        { f with
          levels := (addQuota prio.toNat 1 s).levels
          events := s.events ++ walk s pid.toNat lo.toNat hi.toNat ++ [.pcbRelease proc] }) := by
  have hkeeps := StoreOnly.afterFlush pid lo hi s
  rcases execSchEnd_cases proc prio pid lo hi s with ⟨e, he, -⟩ | ⟨-, hexec⟩
  · rw [hcheck] at he
    cases he
  · rw [hexec, respond_emit_addQuota, hf, hkeeps.events, addQuota_levels_congr hkeeps.levels, ← List.append_assoc]
    rfl

/-- Settles O44: the levels of `SCH.INIT` are those of reset (`getD_initialLevels`), and of `FLAGS` it clears
`QFULL` alone. -/
theorem schedulerInit : Obligations.SchedulerInit := fun s =>
  ⟨carriedBy_of_withOperands rfl rfl rfl, _, rfl, rfl, length_initialLevels s.cfg,
    fun _ hl => getD_initialLevels s.cfg hl _, qFullFlag_clearQFull s.flags, devErrFlag_clearQFull s.flags⟩

/-- Settles O48: each clause is a case of its command. -/
theorem schedulerQueries : Obligations.SchedulerQueries := by
  intro level s
  exact ⟨carriedBy_of_withOperands rfl rfl rfl, carriedBy_of_withOperands rfl rfl rfl, schEmpty_of_empty_queues,
    fun ⟨_, hl, hne⟩ => schEmpty_of_queued hl hne, fun hlevel => exec_schSlot_refused (checkSlot_of_bad_level hlevel),
    exec_schSlot_of_ok⟩

/-- Settles O45: `EMPTY`, or the first level that has an item is written (`exec_schGet_of_front`) and no other. -/
theorem schedulerGet : Obligations.SchedulerGet := by
  intro s hok
  refine ⟨carriedBy_of_withOperands rfl rfl rfl, exec_schGet_of_empty, fun l x rest hl hitems hfirst => ?_⟩
  exact ⟨_, exec_schGet_of_front hok hl hitems hfirst, rfl, levelAt_setLevel_same (lt_length_levels hok hl) _,
    fun l' hne => levelAt_setLevel_ne hne _ s⟩

/-- Settles O46: a refusal changes nothing; with room and on a full queue the put's own level is written
(`exec_schPut_of_room`, `exec_schPut_of_full`) and no other. -/
theorem schedulerPut : Obligations.SchedulerPut := by
  intro proc prio s hok
  refine ⟨carriedBy_of_withOperands rfl rfl rfl, fun hprio => exec_schPut_refused (checkPut_of_bad_prio hprio) proc,
    fun hprio hroom => ?_, fun hprio hfull => ?_⟩
  · exact ⟨_, exec_schPut_of_room hok hprio hroom proc, rfl, levelAt_setLevel_same (lt_length_levels hok hprio) _,
      fun l hne => levelAt_setLevel_ne hne _ s⟩
  · exact ⟨_, exec_schPut_of_full hprio hfull proc, rfl, levelAt_setLevel_same (lt_length_levels hok hprio) _,
      fun l hne => levelAt_setLevel_ne hne _ s⟩

/-- Settles O47: the first check that fails refuses the end; past the checks (`exec_schEnd_of_ok`) its flush is the
command's (`exists_tlbFlush_afterFlush`), and one level is written. -/
theorem schedulerEnd : Obligations.SchedulerEnd := by
  intro proc prio pid lo hi s hok
  refine ⟨carriedBy_of_withOperands rfl rfl rfl, fun hprio => exec_schEnd_refused (checkEnd_of_bad_prio hprio) proc,
    fun hprio hpid => exec_schEnd_refused (checkEnd_of_bad_pid hprio hpid) proc,
    fun hprio hpid hlo => exec_schEnd_refused (checkEnd_of_bad_lo hprio hpid hlo) proc,
    fun hprio hpid hlo hhi => exec_schEnd_refused (checkEnd_of_bad_hi hprio hpid hlo hhi) proc,
    fun hprio hpid hlo hhi => ?_⟩
  obtain ⟨f, hflush, hnone, hf⟩ := exists_tlbFlush_afterFlush hpid hlo hhi
  refine ⟨f, _, walk s pid.toNat lo.toNat hi.toNat, hflush, hnone, rfl,
    exec_schEnd_of_ok (checkEnd_eq_none.2 ⟨hprio, hpid, hlo, hhi⟩) hf proc, rfl, ?_, fun l hne => ?_⟩
  · exact levelAt_setLevel_same (lt_length_levels hok hprio) _
  · exact levelAt_setLevel_ne hne _ s

end Sys2Proof.Machine

/-! Gets in a row (46_scheduler.md R218, 45_queue.md R204): each takes the first of everything queued. -/

namespace Sys2Proof.Machine

/-- What is queued at one level, from the front, each item with the level. -/
def queuedAt (s : State) (l : Nat) : List (Word × Nat) := (levelAt s l).items.map fun x => (x, l)

theorem waiting_eq_flatMap (s : State) : waiting s = (List.range s.cfg.maxPrio).flatMap (queuedAt s) := rfl

theorem waiting_eq_nil {s : State} (h : ∀ l < s.cfg.maxPrio, (levelAt s l).items = []) : waiting s = [] := by
  rw [waiting_eq_flatMap, List.flatMap_eq_nil_iff]
  intro l hl
  simp [queuedAt, h l (List.mem_range.1 hl)]

/-- With nothing queued below level `l`, what is queued begins with that level's queue. -/
theorem waiting_eq_append {s : State} {l : Nat} (hl : l < s.cfg.maxPrio)
    (hfirst : ∀ l' < l, (levelAt s l').items = []) :
    waiting s = queuedAt s l ++ (List.range' (l + 1) (s.cfg.maxPrio - (l + 1))).flatMap (queuedAt s) := by
  have hsplit : List.range s.cfg.maxPrio = List.range l ++ l :: List.range' (l + 1) (s.cfg.maxPrio - (l + 1)) := calc
    List.range s.cfg.maxPrio = List.range' 0 (l + (s.cfg.maxPrio - (l + 1) + 1)) := by
      rw [List.range_eq_range']
      congr 1
      omega
    _ = List.range' 0 l ++ List.range' (0 + l) (s.cfg.maxPrio - (l + 1) + 1) := List.range'_append_1.symm
    _ = _ := by rw [Nat.zero_add, List.range'_succ, List.range_eq_range']
  have hbelow : (List.range l).flatMap (queuedAt s) = [] :=
    List.flatMap_eq_nil_iff.2 fun l' hl' => by simp [queuedAt, hfirst l' (List.mem_range.1 hl')]
  rw [waiting_eq_flatMap, hsplit, List.flatMap_append, hbelow, List.nil_append, List.flatMap_cons]

/-- The front of the first level that has one is the first of everything queued; without it the rest is queued. -/
theorem waiting_of_front {s : State} (hok : levelsOk s = true) {l : Nat} {x : Word} {rest : List Word}
    (hl : l < s.cfg.maxPrio) (hitems : (levelAt s l).items = x :: rest)
    (hfirst : ∀ l' < l, (levelAt s l').items = []) (slot : Word) :
    waiting s = (x, l) :: waiting (setLevel l { items := rest, slot := slot } s) := by
  have hsame := levelAt_setLevel_same (lt_length_levels hok hl) { items := rest, slot := slot }
  have hother : ∀ l' ≠ l, levelAt (setLevel l { items := rest, slot := slot } s) l' = levelAt s l' :=
    fun l' hne => levelAt_setLevel_ne hne _ s
  have hfirst' : ∀ l' < l, (levelAt (setLevel l { items := rest, slot := slot } s) l').items = [] := fun l' hl' => by
    rw [hother l' hl'.ne, hfirst l' hl']
  have hlater : (List.range' (l + 1) (s.cfg.maxPrio - (l + 1))).flatMap
        (queuedAt (setLevel l { items := rest, slot := slot } s)) =
      (List.range' (l + 1) (s.cfg.maxPrio - (l + 1))).flatMap (queuedAt s) :=
    List.flatMap_congr fun l' hl' => by
      have hlt : l < l' := (List.mem_range'_1.1 hl').1
      rw [queuedAt, hother l' hlt.ne', queuedAt]
  rw [waiting_eq_append hl hfirst, waiting_eq_append (s := setLevel l _ s) hl hfirst', setLevel_cfg, hlater, queuedAt,
    hitems, queuedAt, hsame]
  rfl

/-- The answer to a get of an item from a level (R217). -/
def gotResponse (x : Word × Nat) : Response := { status := .ok, res0 := x.1, res1 := BitVec.ofNat 32 x.2 }

/-- A get answers `EMPTY` and changes nothing but the port, or takes the first of everything queued. -/
theorem exec_schGet_waiting {s : State} (hok : levelsOk s = true) :
    (waiting s = [] ∧ exec .schGet s = .next (respond { status := .empty } s)) ∨
      ∃ x t, exec .schGet s = .next t ∧ t.response = gotResponse x ∧ waiting s = x :: waiting t := by
  rcases empty_or_front s with hempty | ⟨l, x, rest, hl, hitems, hfirst⟩
  · exact .inl ⟨waiting_eq_nil hempty, exec_schGet_of_empty hempty⟩
  · exact .inr ⟨(x, l), _, exec_schGet_of_front hok hl hitems hfirst, rfl, waiting_of_front hok hl hitems hfirst _⟩

/-- Settles O49: by induction on the number of gets; each takes the first of everything queued or finds nothing
(`exec_schGet_waiting`). -/
theorem getsDrainByLevelThenArrival : Obligations.GetsDrainByLevelThenArrival := by
  intro n
  induction n with
  | zero => exact fun s _ => ⟨s, by simp [execAll], rfl⟩
  | succ n ih =>
    intro s hok
    rcases exec_schGet_waiting hok with ⟨hnil, hexec⟩ | ⟨x, u, hexec, hresponse, hcons⟩
    · obtain ⟨t, hall, hleft⟩ := ih _ (exec_levelsOk hok hexec)
      have hnil' : waiting (respond { status := .empty } s) = [] := hnil
      rw [hnil'] at hall hleft
      refine ⟨t, ?_, by rw [hleft, hnil, List.drop_nil, List.drop_nil]⟩
      rw [List.replicate_succ, execAll_cons hexec, hall, hnil]
      simp [List.replicate_succ]
    · obtain ⟨t, hall, hleft⟩ := ih u (exec_levelsOk hok hexec)
      refine ⟨t, ?_, by rw [hleft, hcons, List.drop_succ_cons]⟩
      rw [List.replicate_succ, execAll_cons hexec, hall, hresponse, hcons]
      simp [gotResponse]

end Sys2Proof.Machine

/-! The quotas' account (46_scheduler.md R230): what one command counts for each quota, and commands in a row. -/

namespace Sys2Proof.Machine

/-- The command changes every quota by what its response counts for it (R230). -/
def QuotaAccounted (i : Instr) (s t : State) : Prop :=
  ∀ l < s.cfg.maxPrio, (levelAt t l).slot = (levelAt s l).slot + quotaDelta l i t.response

theorem QuotaAccounted.of_levels {i : Instr} {s t : State} (h : t.levels = s.levels)
    (hdelta : ∀ l, quotaDelta l i t.response = 0) : QuotaAccounted i s t := fun l _ => by
  rw [levelAt_congr h, hdelta, add_zero]

/-- A command that writes one level, its quota changed by `d`, is accounted for when it counts `d` for that level
alone. -/
theorem QuotaAccounted.of_set {i : Instr} {s t : State} {k : Nat} {lv : Level} {d : Word} (hk : k < s.levels.length)
    (hlevels : t.levels = s.levels.set k lv) (hlv : lv.slot = (levelAt s k).slot + d)
    (hdelta : ∀ l, quotaDelta l i t.response = if k = l then d else 0) : QuotaAccounted i s t := fun l _ => by
  rw [levelAt_congr (s := setLevel k lv s) hlevels, slot_setLevel hk hlv, hdelta]

theorem quotaDelta_of_unit {i : Instr} (hi : unitOf i ≠ 3) (l : Nat) (r : Response) : quotaDelta l i r = 0 := by
  cases i with
  | schGet => simp [unitOf, Instr.opcode] at hi
  | schPut proc prio => simp [unitOf, Instr.opcode] at hi
  | schEnd proc prio pid lo hi' => simp [unitOf, Instr.opcode] at hi
  | _ => rfl

theorem status_raise_ne (e : CmdError) (s : State) :
    (raise e s).response.status ≠ .ok ∧ (raise e s).response.status ≠ .full := by
  cases e <;> exact ⟨Status.noConfusion, Status.noConfusion⟩

theorem quotaAccounted_schGet {s t : State} (hok : levelsOk s = true) (hprio : s.cfg.maxPrio ≤ 2 ^ 32)
    (h : exec .schGet s = .next t) : QuotaAccounted .schGet s t := by
  rcases empty_or_front s with hempty | ⟨k, x, rest, hk, hitems, hfirst⟩
  · rw [exec_schGet_of_empty hempty] at h
    cases h
    exact .of_levels rfl fun l => by simp [quotaDelta]
  · rw [exec_schGet_of_front hok hk hitems hfirst] at h
    cases h
    have hlevel : (BitVec.ofNat 32 k).toNat = k := by
      rw [BitVec.toNat_ofNat]
      omega
    exact .of_set (lt_length_levels hok hk) rfl (BitVec.sub_eq_add_neg _ 1) fun l => by simp [quotaDelta, hlevel]

theorem quotaAccounted_schPut {s t : State} {proc prio : Word} (hok : levelsOk s = true)
    (h : exec (.schPut proc prio) s = .next t) : QuotaAccounted (.schPut proc prio) s t := by
  by_cases hprio : prio.toNat < s.cfg.maxPrio
  · have hlen := lt_length_levels hok hprio
    rcases (levelAt_items_le hok prio.toNat).lt_or_eq with hroom | hfull
    · rw [exec_schPut_of_room hok hprio hroom] at h
      cases h
      exact .of_set hlen rfl rfl fun l => by simp [quotaDelta]
    · rw [exec_schPut_of_full hprio hfull] at h
      cases h
      exact .of_set hlen rfl rfl fun l => by simp [quotaDelta]
  · rw [exec_schPut_refused (checkPut_of_bad_prio (Nat.le_of_not_lt hprio))] at h
    cases h
    exact .of_levels (raise_levels _ s) fun l => by simp [quotaDelta, status_raise_ne]

theorem quotaAccounted_schEnd {s t : State} {proc prio pid lo hi : Word} (hok : levelsOk s = true)
    (h : exec (.schEnd proc prio pid lo hi) s = .next t) : QuotaAccounted (.schEnd proc prio pid lo hi) s t := by
  rcases execSchEnd_cases proc prio pid lo hi s with ⟨e, -, hexec⟩ | ⟨hcheck, hexec⟩ <;> rw [hexec] at h <;> cases h
  · exact .of_levels (raise_levels e s) fun l => by simp [quotaDelta, status_raise_ne]
  · obtain ⟨hprio, -⟩ := checkEnd_eq_none.1 hcheck
    have hlevels := addQuota_levels_congr (StoreOnly.afterFlush pid lo hi s).levels prio.toNat 1
    exact .of_set (lt_length_levels hok hprio) hlevels rfl fun l => by simp [quotaDelta]

theorem quotaAccounted_schSlot {s t : State} {level : Word} (h : exec (.schSlot level) s = .next t) :
    QuotaAccounted (.schSlot level) s t := by
  by_cases hlevel : level.toNat < s.cfg.maxPrio
  · rw [exec_schSlot_of_ok hlevel] at h
    cases h
    exact .of_levels rfl fun _ => rfl
  · rw [exec_schSlot_refused (checkSlot_of_bad_level (Nat.le_of_not_lt hlevel))] at h
    cases h
    exact .of_levels (raise_levels _ s) fun _ => rfl

/-- Every command but `SCH.INIT` changes every quota by what it counts for it. -/
theorem exec_quotaAccounted {i : Instr} (hi : i ≠ .schInit) {s t : State} (hok : levelsOk s = true)
    (hprio : s.cfg.maxPrio ≤ 2 ^ 32) (h : exec i s = .next t) : QuotaAccounted i s t := by
  by_cases hunit : unitOf i = 3
  · cases i with
    | schInit => exact absurd rfl hi
    | schGet => exact quotaAccounted_schGet hok hprio h
    | schPut proc prio => exact quotaAccounted_schPut hok h
    | schEnd proc prio pid lo hi' => exact quotaAccounted_schEnd hok h
    | schEmpty =>
      cases h
      exact .of_levels rfl fun _ => rfl
    | schSlot level => exact quotaAccounted_schSlot h
    | _ => simp [unitOf, Instr.opcode] at hunit
  · obtain ⟨u, -, hu, -, -, hstore, -⟩ := exec_answers hunit (SameStore.refl s)
    rw [hu] at h
    cases h
    exact .of_levels hstore.levels fun l => quotaDelta_of_unit hunit l _

/-- Commands in a row are the first, then the others, with the first's response in front. -/
theorem execAll_cons_eq_some {i : Instr} {is : List Instr} {s t : State} {rs : List Response}
    (h : execAll (i :: is) s = some (rs, t)) :
    ∃ u rs', exec i s = .next u ∧ execAll is u = some (rs', t) ∧ rs = u.response :: rs' := by
  obtain ⟨u, hu⟩ := exec_next i s
  rw [execAll_cons hu, Option.map_eq_some_iff] at h
  obtain ⟨⟨rs', t'⟩, hrest, heq⟩ := h
  cases heq
  exact ⟨u, rs', hu, hrest, rfl⟩

/-- Settles O50: by induction on the commands, each of which counts for every quota what its response says
(`exec_quotaAccounted`) and keeps the invariant of the levels (`exec_levelsOk`). -/
theorem quotaCountsPutsEndsAndGets : Obligations.QuotaCountsPutsEndsAndGets := by
  refine ⟨fun is => ?_, fun s t h l hl => ?_⟩
  · induction is with
    | nil =>
      intro s t rs _ _ _ h l _
      cases h
      simp
    | cons i is ih =>
      intro s t rs hok hprio hinit h l hl
      obtain ⟨hi, his⟩ := not_or.1 (mt List.mem_cons.2 hinit)
      obtain ⟨u, rs', hu, hrest, rfl⟩ := execAll_cons_eq_some h
      obtain ⟨hcfg, -⟩ := exec_keeps hu
      have hfirst := exec_quotaAccounted (Ne.symm hi) hok hprio hu l hl
      have hothers := ih u t rs' (exec_levelsOk hok hu) (by rw [hcfg]; exact hprio) his hrest l (by rw [hcfg]; exact hl)
      rw [hothers, hfirst, List.zip_cons_cons, List.map_cons, List.sum_cons, BitVec.add_assoc]
  · cases h
    exact congrArg Level.slot (getD_initialLevels s.cfg hl _)

end Sys2Proof.Machine

/-! The units keep apart (46_scheduler.md R215, 60_exceptions.md R262). -/

namespace Sys2Proof.Machine

/-- Settles O55: the Codec and the store unit change only the store and what goes with it (`exec_answers`); a scheduler
command but `SCH.END` writes the levels, `FLAGS.QFULL` and the response (`exec_scheduler`). -/
theorem unitsKeepApart : Obligations.UnitsKeepApart := by
  intro i s t h
  refine ⟨fun hunit => ?_, fun hunit hend => ?_⟩
  · obtain ⟨u, -, hu, -, -, hstore, -⟩ := exec_answers hunit (SameStore.refl s)
    rw [hu] at h
    cases h
    exact ⟨hstore.levels, hstore.events, hstore.qFull⟩
  · obtain ⟨levels, r, g, hg, hexec⟩ := exec_scheduler hunit hend s
    rw [hexec s rfl rfl] at h
    cases h
    have hdevErr : devErrFlag (g s.flags) = devErrFlag s.flags := by
      rcases hg with rfl | rfl | rfl
      · rfl
      · exact devErrFlag_setQFull s.flags
      · exact devErrFlag_clearQFull s.flags
    exact ⟨rfl, rfl, rfl, rfl, hdevErr⟩

end Sys2Proof.Machine

/-! How a command can end (60_exceptions.md R240 to R253): each command with one of the statuses of the status table, and
every ending but `OK` changes no more than its status says. -/

namespace Sys2Proof.Machine

/-- The status of an error (R242 to R244). -/
def CmdError.status : CmdError → Status
  | .badOp => .badOp
  | .badArg _ => .badArg
  | .devErr _ => .devErr

@[simp] theorem raise_status (e : CmdError) (s : State) : (raise e s).response.status = e.status := by
  cases e <;> rfl

/-- What a command that answers `OK` does to `FLAGS`: of its own it writes `QFULL` in `SCH.INIT` alone, and `DEVERR` is
gained only by the steps of other hosts inside a flush (R248). -/
structure LeavesFlags (i : Instr) (s t : State) : Prop where
  qFull : i ≠ .schInit → qFullFlag t.flags = qFullFlag s.flags
  devErr : devErrFlag s.flags = true → devErrFlag t.flags = true
  devErr_of_no_gaps : s.gaps = [] → devErrFlag t.flags = devErrFlag s.flags

theorem LeavesFlags.of_eq {i : Instr} {s t : State} (h : t.flags = s.flags) : LeavesFlags i s t :=
  ⟨fun _ => by rw [h], fun hd => by rw [h, hd], fun _ => by rw [h]⟩

/-- A flush, inside which other hosts' steps can raise `DEVERR`. -/
theorem LeavesFlags.of_storeOnly {i : Instr} {s t : State} (h : StoreOnly s t)
    (hnil : s.gaps = [] → t.flags = s.flags) : LeavesFlags i s t :=
  ⟨fun _ => h.qFull, h.devErr, fun hgaps => by rw [hnil hgaps]⟩

/-- The ways in which command `i`, run in `s`, can end, with the next state of each. -/
inductive EndsAs (i : Instr) (s : State) : State → Prop
  /-- `OK`, whatever the command did. -/
  | ok {t : State} (hok : t.response.status = .ok) (hmem : .ok ∈ statusesOf i) (hflags : LeavesFlags i s t) : EndsAs i s t
  /-- An error (R246). -/
  | raised (e : CmdError) (hmem : e.status ∈ statusesOf i) : EndsAs i s (raise e s)
  /-- An ordinary outcome that leaves everything as it was. -/
  | idle (st : Status) (hst : st ∈ [Status.miss, .novict, .empty, .unimpl]) (hmem : st ∈ statusesOf i) :
      EndsAs i s (respond { status := st } s)
  /-- A put on a full queue (46_scheduler.md R219, R221). -/
  | full {proc prio : Word} (hi : i = .schPut proc prio) (hprio : prio.toNat < s.cfg.maxPrio) :
      EndsAs i s (respond { status := .full } { addQuota prio.toNat 1 s with flags := setQFull s.flags })

namespace EndsAs
variable {i : Instr} {s : State}

/-- An answer `OK` after a change that left `FLAGS`. -/
theorem answered {u : State} {r : Response} (hok : r.status = .ok) (hflags : u.flags = s.flags)
    (hmem : .ok ∈ statusesOf i := by simp [statusesOf]) : EndsAs i s (respond r u) :=
  .ok hok hmem (.of_eq hflags)

/-- An operand out of range. -/
theorem badArg {e : CmdError} (he : e.status = .badArg) (hmem : .badArg ∈ statusesOf i := by simp [statusesOf]) :
    EndsAs i s (raise e s) :=
  .raised e (he ▸ hmem)

/-- An access out of the store, or a store without a line. -/
theorem devErr (a : Nat) (hmem : .devErr ∈ statusesOf i := by simp [statusesOf]) : EndsAs i s (raise (.devErr a) s) :=
  .raised _ hmem

/-- A check of operands, then of the store, that fails. -/
theorem badArg_or_devErr {e : CmdError} (he : e.status = .badArg ∨ e.status = .devErr)
    (hbad : .badArg ∈ statusesOf i := by simp [statusesOf]) (hdev : .devErr ∈ statusesOf i := by simp [statusesOf]) :
    EndsAs i s (raise e s) :=
  .raised e (he.elim (· ▸ hbad) (· ▸ hdev))

end EndsAs

/-! Which errors the operand checks give. -/

theorem checkPage_status {c : Config} {pid page : Word} {e : CmdError} (h : checkPage c pid page = some e) :
    e.status = .badArg ∨ e.status = .devErr := by
  rw [checkPage] at h
  split_ifs at h <;> cases h
  · exact .inl rfl
  · exact .inl rfl
  · exact .inr rfl

theorem checkFlush_status {c : Config} {pid lo hi : Word} {e : CmdError} (h : checkFlush c pid lo hi = some e) :
    e.status = .badArg ∨ e.status = .devErr := by
  rw [checkFlush] at h
  split_ifs at h <;> cases h
  · exact .inl rfl
  · exact .inl rfl
  · exact .inl rfl
  · exact .inr rfl

theorem checkInvall_status {c : Config} {pid : Word} {e : CmdError} (h : checkInvall c pid = some e) :
    e.status = .badArg := by
  rw [checkInvall] at h
  split_ifs at h
  cases h
  rfl

theorem checkEnd_status {c : Config} {prio pid lo hi : Word} {e : CmdError} (h : checkEnd c prio pid lo hi = some e) :
    e.status = .badArg := by
  rw [checkEnd] at h
  split_ifs at h <;> cases h <;> rfl

/-! How each command that has more than one ending ends. -/

/-- An invalidation that finds no tag has written nothing (43_tlb.md R160). -/
theorem tlbInv_endsAs (pid page : Word) (s : State) : EndsAs (.tlbInv pid page) s (tlbInv pid page s) := by
  rcases tlbInv_cases pid page s with ⟨e, hc, h⟩ | ⟨-, h⟩ <;> rw [h]
  · exact .badArg_or_devErr (checkPage_status hc)
  · cases hfound : (invalidateLine s.mem (lineOf s.cfg pid.toNat page.toNat) (tag pid.toNat page.toNat)).2 with
    | true => exact .answered rfl rfl
    | false =>
      have hsame : invalidatePage pid.toNat page.toNat s = s := by
        rw [invalidatePage, invalidateLine_absent hfound]
      rw [hsame]
      exact .idle .miss (by simp) (by simp [statusesOf])

theorem tlbFlush_endsAs (pid lo hi : Word) (s : State) : EndsAs (.tlbFlush pid lo hi) s (tlbFlush pid lo hi s) := by
  have hstore := StoreOnly.tlbFlush pid lo hi s
  rcases tlbFlush_cases pid lo hi s with ⟨e, hc, h⟩ | ⟨-, h⟩ <;> rw [h] at hstore ⊢
  · exact .badArg_or_devErr (checkFlush_status hc)
  · refine .ok rfl (by simp [statusesOf]) (.of_storeOnly hstore fun hgaps => ?_)
    rw [respond_flags, flushPages_nil hgaps]

theorem schGet_endsAs {s t : State} (h : exec .schGet s = .next t) : EndsAs .schGet s t := by
  rcases empty_or_front s with hempty | ⟨l, x, rest, hl, hitems, hfirst⟩
  · rw [exec_schGet_of_empty hempty] at h
    cases h
    exact .idle .empty (by simp) (by simp [statusesOf])
  · have hready : firstReady s = some l := firstReady_eq_some.2 ⟨hl, by simp [hitems], hfirst⟩
    simp only [exec, execSchGet, hready, dequeue, hitems] at h
    cases h
    exact .answered rfl rfl

theorem schPut_endsAs {s t : State} {proc prio : Word} (h : exec (.schPut proc prio) s = .next t) :
    EndsAs (.schPut proc prio) s t := by
  by_cases hprio : prio.toNat < s.cfg.maxPrio
  · by_cases hfull : (levelAt s prio.toNat).items.length = s.cfg.maxQueue
    · rw [exec_schPut_of_full hprio hfull] at h
      cases h
      exact .full rfl hprio
    · simp only [exec, execSchPut, checkPut_of_ok hprio, enqueue, if_neg hfull, if_true] at h
      cases h
      exact .answered rfl rfl
  · rw [exec_schPut_refused (checkPut_of_bad_prio (Nat.le_of_not_lt hprio))] at h
    cases h
    exact .badArg rfl

theorem schEnd_endsAs {s t : State} {proc prio pid lo hi : Word} (h : exec (.schEnd proc prio pid lo hi) s = .next t) :
    EndsAs (.schEnd proc prio pid lo hi) s t := by
  rcases execSchEnd_cases proc prio pid lo hi s with ⟨e, hc, hexec⟩ | ⟨-, hexec⟩ <;> rw [hexec] at h <;> cases h
  · exact .badArg (checkEnd_status hc)
  · have hstore := StoreOnly.afterFlush pid lo hi s
    refine .ok rfl (by simp [statusesOf]) ⟨fun _ => hstore.qFull, hstore.devErr, fun hgaps => ?_⟩
    rw [respond_flags, emit_flags, addQuota_flags, afterFlush_nil hgaps]

theorem schSlot_endsAs {s t : State} {level : Word} (h : exec (.schSlot level) s = .next t) :
    EndsAs (.schSlot level) s t := by
  by_cases hlevel : level.toNat < s.cfg.maxPrio
  · rw [exec_schSlot_of_ok hlevel] at h
    cases h
    exact .answered rfl rfl
  · rw [exec_schSlot_refused (checkSlot_of_bad_level (Nat.le_of_not_lt hlevel))] at h
    cases h
    exact .badArg rfl

/-- `SCH.INIT` clears `QFULL` and leaves `DEVERR` (46_scheduler.md R216). -/
theorem schInit_endsAs {s t : State} (h : exec .schInit s = .next t) : EndsAs .schInit s t := by
  cases h
  have hdevErr := devErrFlag_clearQFull s.flags
  exact .ok rfl (by simp [statusesOf]) ⟨fun hne => absurd rfl hne, fun hd => hdevErr.trans hd, fun _ => hdevErr⟩

/-- Every command ends in one of these ways. -/
theorem exec_endsAs {i : Instr} {s t : State} (h : exec i s = .next t) : EndsAs i s t := by
  cases i with
  | ptePack | vaOff | vaPgn | pteFpn | pteSwp | sumDec | pteUnpack | stDump | stBdump | schEmpty =>
    cases h
    exact .answered rfl rfl
  | stRdb addr =>
    cases h
    rcases stRdb_cases addr s with ⟨-, h⟩ | ⟨-, h⟩ <;> rw [h]
    · exact .devErr _
    · exact .answered rfl rfl
  | stWrb addr value =>
    cases h
    rcases stWrb_cases addr value s with ⟨-, h⟩ | ⟨-, h⟩ <;> rw [h]
    · exact .devErr _
    · exact .answered rfl rfl
  | stRdw addr =>
    cases h
    rcases stRdw_cases addr s with ⟨-, h⟩ | ⟨-, h⟩ <;> rw [h]
    · exact .devErr _
    · exact .answered rfl rfl
  | stWrw addr value =>
    cases h
    rcases stWrw_cases addr value s with ⟨-, h⟩ | ⟨-, h⟩ <;> rw [h]
    · exact .devErr _
    · exact .answered rfl rfl
  | tlbRd pid page =>
    cases h
    rcases tlbRd_cases pid page s with ⟨e, hc, h⟩ | ⟨-, w, -, h⟩ | ⟨-, -, h⟩ <;> rw [h]
    · exact .badArg_or_devErr (checkPage_status hc)
    · exact .answered rfl rfl
    · exact .idle .miss (by simp) (by simp [statusesOf])
  | tlbIns pid page pte =>
    cases h
    rcases tlbIns_cases pid page pte s with ⟨e, hc, h⟩ | ⟨-, k, -, h⟩ | ⟨-, -, h⟩ <;> rw [h]
    · exact .badArg_or_devErr (checkPage_status hc)
    · exact .answered rfl rfl
    · exact .idle .novict (by simp) (by simp [statusesOf])
  | tlbInv pid page =>
    cases h
    exact tlbInv_endsAs pid page s
  | tlbFlush pid lo hi =>
    cases h
    exact tlbFlush_endsAs pid lo hi s
  | tlbInvall pid =>
    cases h
    rcases tlbInvall_cases pid s with ⟨e, hc, h⟩ | ⟨-, h⟩ <;> rw [h]
    · exact .badArg (checkInvall_status hc)
    · exact .idle .unimpl (by simp) (by simp [statusesOf])
  | schInit => exact schInit_endsAs h
  | schGet => exact schGet_endsAs h
  | schPut proc prio => exact schPut_endsAs h
  | schEnd proc prio pid lo hi => exact schEnd_endsAs h
  | schSlot level => exact schSlot_endsAs h

end Sys2Proof.Machine

/-! What follows from the ending: the status table, the precision of errors, the sticky flags (60_exceptions.md R241,
R248, R253). -/

namespace Sys2Proof.Machine

namespace EndsAs
variable {i : Instr} {s t : State}

theorem status_mem (h : EndsAs i s t) : t.response.status ∈ statusesOf i := by
  cases h with
  | ok hok hmem hflags => exact hok ▸ hmem
  | raised e hmem => exact raise_status e s ▸ hmem
  | idle st hst hmem => exact hmem
  | full hi hprio => simp [hi, statusesOf]

/-- Only an error that says where it arose sets a result register without `OK` (30_encoding.md R93, R246). -/
theorem results (h : EndsAs i s t) (hst : t.response.status ≠ .ok) :
    t.response.res1 = 0 ∧ t.response.res2 = 0 ∧ t.response.res3 = 0 ∧ t.response.res4 = 0 ∧ t.response.res5 = 0 ∧
      (t.response.status ≠ .devErr → t.response.status ≠ .badArg → t.response.res0 = 0) := by
  cases h with
  | ok hok hmem hflags => exact absurd hok hst
  | raised e hmem =>
    cases e with
    | badOp => exact ⟨rfl, rfl, rfl, rfl, rfl, fun _ _ => rfl⟩
    | badArg k => exact ⟨rfl, rfl, rfl, rfl, rfl, fun _ hne => absurd rfl hne⟩
    | devErr a => exact ⟨rfl, rfl, rfl, rfl, rfl, fun hne => absurd rfl hne⟩
  | idle st hst hmem => exact ⟨rfl, rfl, rfl, rfl, rfl, fun _ _ => rfl⟩
  | full hi hprio => exact ⟨rfl, rfl, rfl, rfl, rfl, fun _ _ => rfl⟩

/-- Of the endings that are not `OK`, all but a device error and a put on a full queue change the response alone. -/
theorem eq_respond (h : EndsAs i s t) (hok : t.response.status ≠ .ok) (hdev : t.response.status ≠ .devErr)
    (hfull : t.response.status ≠ .full) : t = respond t.response s := by
  cases h with
  | ok hst hmem hflags => exact absurd hst hok
  | raised e hmem =>
    cases e with
    | badOp => rfl
    | badArg k => rfl
    | devErr a => exact absurd rfl hdev
  | idle st hst hmem => rfl
  | full hi hprio => exact absurd rfl hfull

theorem eq_of_devErr (h : EndsAs i s t) (hdev : t.response.status = .devErr) :
    t = respond t.response { s with flags := setDevErr s.flags } := by
  cases h with
  | ok hst hmem hflags =>
    rw [hst] at hdev
    cases hdev
  | raised e hmem =>
    cases e with
    | badOp => cases hdev
    | badArg k => cases hdev
    | devErr a => rfl
  | idle st hst hmem =>
    subst hdev
    simp at hst
  | full hi hprio => cases hdev

theorem eq_of_full (h : EndsAs i s t) (hfull : t.response.status = .full) :
    ∃ l < s.cfg.maxPrio, t = respond t.response { addQuota l 1 s with flags := setQFull s.flags } := by
  cases h with
  | ok hst hmem hflags =>
    rw [hst] at hfull
    cases hfull
  | raised e hmem => exact absurd hfull (status_raise_ne e s).2
  | idle st hst hmem =>
    subst hfull
    simp at hst
  | full hi hprio => exact ⟨_, hprio, rfl⟩

/-- Unless the command answers `DEV_ERR` or `FULL`, it leaves the flags as a command that answers `OK` does. -/
theorem leavesFlags (h : EndsAs i s t) (hdev : t.response.status ≠ .devErr) (hfull : t.response.status ≠ .full) :
    LeavesFlags i s t := by
  cases h with
  | ok hst hmem hflags => exact hflags
  | raised e hmem =>
    cases e with
    | badOp => exact .of_eq rfl
    | badArg k => exact .of_eq rfl
    | devErr a => exact absurd rfl hdev
  | idle st hst hmem => exact .of_eq rfl
  | full hi hprio => exact absurd rfl hfull

/-- What each ending does to `FLAGS` (R248). -/
theorem flags_cases (h : EndsAs i s t) :
    (t.response.status = .devErr ∧ t.flags = setDevErr s.flags) ∨
      (t.response.status = .full ∧ t.flags = setQFull s.flags) ∨
      (t.response.status ≠ .devErr ∧ t.response.status ≠ .full ∧ LeavesFlags i s t) := by
  by_cases hdev : t.response.status = .devErr
  · exact .inl ⟨hdev, by rw [h.eq_of_devErr hdev, respond_flags]⟩
  · by_cases hfull : t.response.status = .full
    · obtain ⟨l, -, ht⟩ := h.eq_of_full hfull
      exact .inr (.inl ⟨hfull, by rw [ht, respond_flags]⟩)
    · exact .inr (.inr ⟨hdev, hfull, h.leavesFlags hdev hfull⟩)

end EndsAs

/-- Settles O54: both parts are read off the command's ending (`exec_endsAs`). -/
theorem statusesOfEachCommand : Obligations.StatusesOfEachCommand := fun _ _ _ h =>
  ⟨(exec_endsAs h).status_mem, (exec_endsAs h).results⟩

theorem badOp_notMem_statusesOf (i : Instr) : .badOp ∉ statusesOf i := by
  cases i <;> simp [statusesOf]

/-- Settles O51: each status comes from one kind of ending, which says what it changed (`EndsAs.eq_respond`,
`EndsAs.eq_of_devErr`, `EndsAs.eq_of_full`); at the port only a record that is no command answers `BAD_OP`. -/
theorem errorsArePrecise : Obligations.ErrorsArePrecise := by
  refine ⟨fun i s t hok h => ⟨fun hst => ?_, (exec_endsAs h).eq_of_devErr, fun hfull => ?_⟩,
    fun host r s t h hst => ?_⟩
  · refine (exec_endsAs h).eq_respond ?_ ?_ ?_ <;> intro he <;> simp [he] at hst
  · obtain ⟨l, hl, ht⟩ := (exec_endsAs h).eq_of_full hfull
    have hlevels : t.levels = (addQuota l 1 s).levels := by rw [ht, respond_levels]
    refine ⟨?_, l, hl, ?_, fun l' hne => ?_⟩
    · rw [hlevels]
      exact ht
    · rw [levelAt_congr hlevels, levelAt_addQuota, if_pos ⟨rfl, lt_length_levels hok hl⟩]
    · rw [levelAt_congr hlevels, levelAt_addQuota, if_neg fun e => hne e.1]
  · rcases runCommand_cases h with ⟨i, u, -, hu, rfl⟩ | ⟨e, -, rfl⟩
    · have hmem := (exec_endsAs hu).status_mem
      rw [deliver_response] at hst
      rw [hst] at hmem
      exact absurd hmem (badOp_notMem_statusesOf i)
    · rfl

theorem qFullFlag_setQFull (f : BitVec 2) : qFullFlag (setQFull f) = true := by
  simp [qFullFlag, setQFull]

/-- Settles O52: a `DEV_ERR` sets its flag and leaves the other, so does a `FULL`, and any other ending leaves both
(`EndsAs.flags_cases`); `SCH.INIT` and reset clear (`qFullFlag_clearQFull`, `resetBlock_flags`). -/
theorem flagsAreSticky : Obligations.FlagsAreSticky := by
  refine ⟨fun i s t h => ?_, fun s t rest hin h => ?_⟩
  · have hinit : i = .schInit → qFullFlag t.flags = false := by
      rintro rfl
      cases h
      exact qFullFlag_clearQFull s.flags
    rcases (exec_endsAs h).flags_cases with ⟨hst, hf⟩ | ⟨hst, hf⟩ | ⟨hdev, hfull, hleaves⟩
    · have hdevErr : devErrFlag t.flags = true := by rw [hf, devErrFlag_setDevErr]
      have hqFull : qFullFlag t.flags = qFullFlag s.flags := by rw [hf, qFullFlag_setDevErr]
      exact ⟨fun _ => hdevErr, fun _ hq => hqFull.trans hq, hinit, fun _ => hdevErr,
        fun hfull => absurd (hst.symm.trans hfull) (by decide), fun _ hne => absurd hst hne, fun _ _ => hqFull⟩
    · have hdevErr : devErrFlag t.flags = devErrFlag s.flags := by rw [hf, devErrFlag_setQFull]
      have hqFull : qFullFlag t.flags = true := by rw [hf, qFullFlag_setQFull]
      exact ⟨fun hd => hdevErr.trans hd, fun _ _ => hqFull, hinit,
        fun hdev => absurd (hst.symm.trans hdev) (by decide), fun _ => hqFull, fun _ _ => hdevErr,
        fun _ hne => absurd hst hne⟩
    · exact ⟨hleaves.devErr, fun hi hq => (hleaves.qFull hi).trans hq, hinit, fun hst => absurd hst hdev,
        fun hst => absurd hst hfull, fun hgaps _ => hleaves.devErr_of_no_gaps hgaps, fun hi _ => hleaves.qFull hi⟩
  · obtain ⟨hlegal, -⟩ := step_eq_next_iff.1 h
    rw [step_of_input hlegal hin] at h
    cases h
    rw [resetBlock_flags]
    decide

end Sys2Proof.Machine

/-! The scheduler beside the other units (60_exceptions.md R262, 20_memory.md R63). -/

namespace Sys2Proof.Machine

/-- What the scheduler does to `FLAGS` and what the store unit adds commute: they are different bits. -/
theorem schedulerMark_or {g : BitVec 2 → BitVec 2} (hg : g = id ∨ g = setQFull ∨ g = clearQFull) {d : BitVec 2}
    (hd : d = 0 ∨ d = 1) (f : BitVec 2) : g (f ||| d) = g f ||| d := by
  have hset : ∀ f : BitVec 2, setQFull (f ||| 1) = setQFull f ||| 1 := by decide
  have hclear : ∀ f : BitVec 2, clearQFull (f ||| 1) = clearQFull f ||| 1 := by decide
  rcases hd with rfl | rfl
  · rw [BitVec.ofNat_eq_ofNat, BitVec.or_zero, BitVec.or_zero]
  · rcases hg with rfl | rfl | rfl
    · rfl
    · exact hset f
    · exact hclear f

/-- Settles O56: the scheduler's command runs on the configuration and the levels (`exec_scheduler`), the other on what
the scheduler does not write (`exec_answers`), and each leaves what the other runs on. -/
theorem schedulerAndStoreCommute : Obligations.SchedulerAndStoreCommute := by
  intro i j s a b c d hi hend hj ha hb hc hd
  obtain ⟨levels, r, g, hg, hexec⟩ := exec_scheduler hi hend s
  rw [hexec s rfl rfl] at ha
  cases ha
  have hsame : SameStore s (respond r { s with levels := levels, flags := g s.flags }) := ⟨rfl, rfl, rfl, rfl⟩
  obtain ⟨c', b', hc', hb', hans, hsc, hab⟩ := exec_answers hj hsame
  rw [hc] at hc'
  rw [hb] at hb'
  cases hc'
  cases hb'
  rw [hexec c hsc.cfg hsc.levels] at hd
  cases hd
  obtain ⟨m, hm, hflags, hflags'⟩ := hans.marks
  have hsame' := hans.same
  refine ⟨rfl, hans.response, State.eq_of_fields hsame'.cfg hsame'.mem ?_ hab.levels.symm rfl hsame'.hosts
    (hsc.events.trans hab.events.symm) (hsc.pgd.trans hab.pgd.symm) (hsc.stats.trans hab.stats.symm)
    (hsc.freeCount.trans hab.freeCount.symm) (hsc.inputs.trans hab.inputs.symm) hsame'.gaps⟩
  calc g c.flags = g s.flags ||| m := by rw [hflags, schedulerMark_or hg hm]
    _ = b.flags := hflags'.symm

end Sys2Proof.Machine

/-! No command stops the block (60_exceptions.md R242, R249; 70_reset_and_hazards.md R273). -/

namespace Sys2Proof.Machine

/-- Delivering a command's response does not stop the block. -/
theorem delivered_exec_next (host : Nat) (i : Instr) (s : State) : ∃ t, delivered host (exec i s) = .next t := by
  obtain ⟨t, ht⟩ := exec_next i s
  exact ⟨deliver host t, by rw [ht, delivered]⟩

/-- Every input is taken. -/
theorem takeInput_next (x : Input) (s : State) : ∃ t, takeInput x s = .next t := by
  cases x with
  | command host rec =>
    rw [takeInput, runCommand]
    split
    · exact delivered_exec_next host _ s
    · exact ⟨_, rfl⟩
  | reset => exact ⟨_, rfl⟩
  | setPte pid page pte => exact ⟨_, rfl⟩
  | createProcess pid => exact ⟨_, rfl⟩
  | countLookup host pid => exact ⟨_, rfl⟩
  | insertFromDirectory host pid page onlyAfterMiss =>
    rw [takeInput, insertFromDirectory]
    split
    · exact ⟨_, rfl⟩
    · exact delivered_exec_next host _ s

/-- Settles O8: every command answers a next state (`exec_next`), so every input does (`takeInput_next`). -/
theorem noCommandStopsTheBlock : Obligations.NoCommandStopsTheBlock := by
  refine ⟨exec_next, fun s => ⟨fun hlegal => ?_, fun hillegal => by simp [step, hillegal]⟩⟩
  cases hin : s.inputs with
  | nil => exact ⟨s, step_eq_next_iff.2 ⟨hlegal, .inl ⟨hin, rfl⟩⟩⟩
  | cons x rest =>
    rw [step_of_input hlegal hin]
    exact takeInput_next x _

end Sys2Proof.Machine

/-! The reset event (70_reset_and_hazards.md R270, 10_state.md R41). -/

namespace Sys2Proof.Machine

/-- The reset event keeps of a state what is outside the block and the configuration; all else is as after creation. -/
theorem resetBlock_eq_resetOf (s : State) :
    resetBlock s = { State.resetOf s.cfg with
      hosts := s.hosts, events := s.events, pgd := s.pgd, freeCount := s.freeCount, inputs := s.inputs,
      gaps := s.gaps } := rfl

/-- Settles O14: a step takes the reset event (`step_of_input`), which leaves `resetBlock_eq_resetOf`'s state. -/
theorem resetEventRestoresTheResetState : Obligations.ResetEventRestoresTheResetState := by
  intro s rest hlegal hin
  calc step s = takeInput .reset { s with inputs := rest } := step_of_input hlegal hin
    _ = .next (resetBlock { s with inputs := rest }) := by rw [takeInput]
    _ = _ := by rw [resetBlock_eq_resetOf]

end Sys2Proof.Machine

/-! The printed records (95_test_vectors.md). -/

namespace Sys2Proof

/-- A record that is a command's encoding carries that command. -/
theorem decode_of_encode_eq {r : BitVec 200} {i : Instr} (h : encode i = r) : decode r = .ok i :=
  h ▸ decodeInvertsEncode i

/-- Settles O4: each printed record, its unused operands zero, is the encoding of its command, so it carries that command
(`decode_of_encode_eq`). -/
theorem sampleRecordsDecode : Obligations.SampleRecordsDecode := by
  have hptePack : encode (.ptePack 3 0x2001 2 2 0x21 0x101) =
      0x00000000030000200100000002000000020000002100000101#200 := by decide
  have hsumDec : encode (.sumDec 0x8C00502A) = 0x058C00502A0000000000000000000000000000000000000000#200 := by decide
  have hstWrw : encode (.stWrw 4 0xDEADBEEF) = 0x1300000004DEADBEEF00000000000000000000000000000000#200 := by decide
  have htlbIns : encode (.tlbIns 3 5 0x8000002A) =
      0x2100000003000000058000002A000000000000000000000000#200 := by decide
  have hschEnd : encode (.schEnd 0xA0 1 2 0 2) = 0x33000000A00000000100000002000000000000000200000000#200 := by decide
  exact ⟨decode_of_encode_eq hptePack, decode_of_encode_eq hsumDec, decode_of_encode_eq hstWrw,
    decode_of_encode_eq htlbIns, decode_of_encode_eq hschEnd⟩

end Sys2Proof
